-- ==== Sys2Proof/Word.lean ====
section
/-! DEFINITION. The word types of HUF-CORE. -/

namespace Sys2Proof

/-- A byte: a symbol of the alphabet, a buffer byte, one byte of a host access (spec 00_scope R12). -/
abbrev Byte := BitVec 8

/-- A 32-bit word: a register of the register window, a command word (10_state R23, 30_encoding R80). -/
abbrev Word := BitVec 32

/-- A host-port byte address (20_memory R60). -/
abbrev Addr := BitVec 24

end Sys2Proof
end

