-- ==== Sys2Proof/Config.lean ====
section
/-! DEFINITION. What is fixed for every HUF-CORE (spec 00_scope R6) and the free values: the values the spec
leaves open, which nothing in this model can evaluate. -/

namespace Sys2Proof

/-- The ID register's constant (10_state R24). -/
def Config.idValue : Word := 0x48554631

/-- BLOCK_MAX: the longest raw block, in bytes (00_scope R6). -/
def Config.blockMax : Nat := 65536

/-- PACK_CAP: the packer's output capacity, in bytes (00_scope R6). -/
def Config.packCap : Nat := 65536

/-- FRM_CAP: the frame buffer's size, in bytes (00_scope R6). -/
def Config.frmCap : Nat := 66826

/-- COUNT_MAX: the largest sum of counts a tree is built from (00_scope R6, 42_tree_builder R136). -/
def Config.countMax : Nat := 65536

/-- MAX_WIDTH: the widest code, in bits (00_scope R6). -/
def Config.maxWidth : Nat := 56

/-- PQ_CAP: the queue's capacity, in entries (00_scope R6). -/
def Config.pqCap : Nat := 256

/-- The largest number of frequency entries (00_scope R6, ALPHABET). -/
def Config.alphabet : Nat := 256

/-- The two readings of which extracted entry becomes the zero-child (00_scope R7). -/
inductive ChildOrder where
  | firstIsZero
  | firstIsOne
deriving DecidableEq, Repr

/-- CHILD_ORDER has the value of 00_scope R6: the entry extracted first is the zero-child (log 7). -/
def Config.childOrder : ChildOrder := .firstIsZero

/-- FREE VALUE. What a buffer byte at a host-port address holds before anything has written it
(93_implementation_defined row 7, log 1). -/
opaque Config.powerOnByte : Nat → Byte

/-- FREE VALUE. What a reset that abandons a command leaves in a buffer byte that command writes: the first argument
counts the draws, the second is the byte's host-port address (93_implementation_defined row 8, log 2). -/
opaque Config.lostByte : Nat → Nat → Byte

/-- FREE VALUE. How many host turns come between a CMD write and the engine's step; the argument counts the draws
(93_implementation_defined rows 11 and 12, log 3). -/
opaque Config.busyTurns : Nat → Nat

end Sys2Proof
end

