-- ==== Sys2Proof/Syntax.lean ====
section
/-! DEFINITION. The commands of HUF-CORE: one constructor per row of spec/opcode_table.json (30_encoding R81).
A command word holds no operand (30_encoding R80), so no constructor has an argument. -/

namespace Sys2Proof

/-- The thirteen commands. -/
inductive Instr where
  /-- NOP, 47_control R220. -/
  | nop
  /-- RESET, 47_control R221. -/
  | reset
  /-- FA_RUN, 41_frequency_analyzer R126. -/
  | faRun
  /-- PQ_CLEAR, 40_priority_queue R115. -/
  | pqClear
  /-- PQ_INSERT, 40_priority_queue R116. -/
  | pqInsert
  /-- PQ_EXTRACT, 40_priority_queue R117. -/
  | pqExtract
  /-- TB_RUN, 42_tree_builder R139. -/
  | tbRun
  /-- DB_RUN, 43_dictionary R153. -/
  | dbRun
  /-- DICT_LOOKUP, 43_dictionary R154. -/
  | dictLookup
  /-- PK_RUN, 44_bit_packer R169. -/
  | pkRun
  /-- UP_RUN, 45_bit_unpacker R185. -/
  | upRun
  /-- ENCODE, 46_block_codec R196. -/
  | encodeBlock
  /-- DECODE, 46_block_codec R201. -/
  | decodeFrame
deriving DecidableEq, Repr

end Sys2Proof
end

