-- ==== Sys2Proof/WellFormed.lean ====
section
/-! DEFINITION. Well-formedness. A command has no operand, so every `Instr` is well formed; what can be ill formed is
a command word (30_encoding R80, R82): its reserved bits must be 0 and its OPCODE must be one of R81. -/

namespace Sys2Proof

/-- The OPCODE values of 30_encoding R81. -/
def opcodes : List Byte :=
  [0x00, 0x01, 0x10, 0x20, 0x21, 0x22, 0x30, 0x40, 0x41, 0x50, 0x60, 0x70, 0x71]

/-- Bits 31:8 of a command word are 0 (30_encoding R80). -/
def reservedClear (w : Word) : Bool := w.extractLsb' 8 24 == 0

/-- Bits 7:0 of a command word are an OPCODE (30_encoding R81). -/
def opcodeKnown (w : Word) : Bool := opcodes.contains (w.setWidth 8)

/-- A command word is legal when it passes both checks (30_encoding R82). -/
def commandWordWf (w : Word) : Bool := reservedClear w && opcodeKnown w

/-- Every command is well formed: it has no operand a check could refuse (30_encoding R80). -/
def Instr.wf : Instr → Bool
  | .nop => true
  | .reset => true
  | .faRun => true
  | .pqClear => true
  | .pqInsert => true
  | .pqExtract => true
  | .tbRun => true
  | .dbRun => true
  | .dictLookup => true
  | .pkRun => true
  | .upRun => true
  | .encodeBlock => true
  | .decodeFrame => true

end Sys2Proof
end

