-- ==== Sys2Proof/Decode.lean ====
section
/-! DEFINITION. The decoder of a command word, total on all 2^32 words, and the encoder (30_encoding R80 to R83). -/

namespace Sys2Proof

/-- Why a command word is illegal (30_encoding R82). -/
inductive DecodeError where
  /-- Bits 31:8, given here, are not all 0. -/
  | reservedBitsSet (rsvd : BitVec 24)
  /-- Bits 7:0, given here, are no OPCODE of R81. -/
  | unknownOpcode (opcode : Byte)
deriving DecidableEq, Repr

/-- A row of the opcode table: `word` is the row's match value; its mask is all ones (30_encoding R81). -/
structure OpcodeRow where
  word : Word
  instr : Instr
deriving DecidableEq, Repr

/-- The opcode table, in the order of 30_encoding R81. -/
def opcodeTable : List OpcodeRow :=
  [ ⟨0x00000000, .nop⟩,
    ⟨0x00000001, .reset⟩,
    ⟨0x00000010, .faRun⟩,
    ⟨0x00000020, .pqClear⟩,
    ⟨0x00000021, .pqInsert⟩,
    ⟨0x00000022, .pqExtract⟩,
    ⟨0x00000030, .tbRun⟩,
    ⟨0x00000040, .dbRun⟩,
    ⟨0x00000041, .dictLookup⟩,
    ⟨0x00000050, .pkRun⟩,
    ⟨0x00000060, .upRun⟩,
    ⟨0x00000070, .encodeBlock⟩,
    ⟨0x00000071, .decodeFrame⟩ ]

/-- The command a word selects: the row whose match value it equals under the all-ones mask; an illegal word is
refused by name (30_encoding R81, R82). -/
def decode (w : Word) : Except DecodeError Instr :=
  if w.extractLsb' 8 24 ≠ 0 then .error (.reservedBitsSet (w.extractLsb' 8 24))
  else
    match opcodeTable.find? (fun r => w == r.word) with
    | some r => .ok r.instr
    | none => .error (.unknownOpcode (w.setWidth 8))

/-- The command word of a command: OPCODE in bits 7:0, zero above (30_encoding R80, R81). -/
def encode : Instr → Word
  | .nop => 0x00000000
  | .reset => 0x00000001
  | .faRun => 0x00000010
  | .pqClear => 0x00000020
  | .pqInsert => 0x00000021
  | .pqExtract => 0x00000022
  | .tbRun => 0x00000030
  | .dbRun => 0x00000040
  | .dictLookup => 0x00000041
  | .pkRun => 0x00000050
  | .upRun => 0x00000060
  | .encodeBlock => 0x00000070
  | .decodeFrame => 0x00000071

/-- The 32-bit command word of a table word of `nbits` bits, the bits above `nbits` being 0 (log 22). -/
def tableWord (nbits w : Nat) : Word := BitVec.ofNat 32 (w % 2 ^ nbits)

/-- The command the decoder reads from a table word. -/
def decodeTableWord (nbits w : Nat) : Option Instr :=
  match decode (tableWord nbits w) with
  | .ok i => some i
  | .error _ => none

end Sys2Proof
end

