-- ==== Sys2Proof/Machine/State.lean ====
section
/-! DEFINITION. The state of HUF-CORE as plain data (10_state), the host's turns that act on it (20_memory,
30_encoding R85 and R86), the reasons a step can stop, and the state right after reset (10_state R45). -/

namespace Sys2Proof.Machine

/-- The completion codes of 60_exceptions R230, by name; `Code.toByte` gives the value. -/
inductive Code where
  | ok
  | errIllegalCmd
  | errLength
  | errEmpty
  | errFlist
  | errNoTree
  | errNoDict
  | errPqUnderflow
  | errPqOverflow
  | errPqSerial
  | fmtTruncated
  | fmtDiscriminator
  | fmtLength
  | fmtCount
  | fmtExhausted
  | dictOverflow
  | packOverflow
  | encCoded
  | encRawEmpty
  | encRawSingle
  | encRawDict
  | encRawPack
  | decCoded
  | decRaw
deriving DecidableEq, Repr

/-- The engine's control state (10_state R21). `turns` is the model's own: how many host turns come before the engine's
step (log 3). -/
inductive Eng where
  | idle
  | busy (op : Word) (turns : Nat)
deriving DecidableEq, Repr

/-- A frequency entry (10_state R38). -/
structure FreqEntry where
  sym : Byte
  count : Word
deriving DecidableEq, Repr

/-- A priority-queue entry: the weight is two's complement signed (10_state R39). -/
structure PqEntry where
  weight : BitVec 32
  serial : BitVec 32
  payload : BitVec 16
deriving DecidableEq, Repr

/-- A tree node (10_state R40). -/
inductive Node where
  | leaf (sym : Byte)
  | internal (zero one : BitVec 9)
deriving DecidableEq, Repr

/-- A dictionary entry (10_state R41). -/
structure DictEntry where
  pattern : BitVec 56
  width : BitVec 6
  present : Bool
deriving DecidableEq, Repr

/-- The buffers (10_state R34 to R36). -/
inductive Buffer where
  | raw
  | pay
  | frm
deriving DecidableEq, Repr

/-- The buffer bytes that something has written, as pairs of host-port address and byte, addresses strictly rising;
what an unlisted byte reads as is said once, by `State.memByte` (log 1). -/
abbrev Memory := List Host.Cell

/-- One access at the host port (20_memory R60, 30_encoding R85). -/
inductive HostAccess where
  | rd8 (a : Addr)
  | rd32 (a : Addr)
  | wr8 (a : Addr) (v : Byte)
  | wr32 (a : Addr) (v : Word)
deriving DecidableEq, Repr

/-- What the outside does next: an access, the polling loop `wait` (30_encoding R86), or an assertion of the reset
input (70_reset_and_hazards R260). -/
inductive HostTurn where
  | access (a : HostAccess)
  | wait
  | resetInput
deriving DecidableEq, Repr

/-- A value the host read (70_reset_and_hazards R264). -/
inductive HostValue where
  | byte (v : Byte)
  | word (v : Word)
deriving DecidableEq, Repr

/-- The machine stops with no fault: "No behaviour in this spec is treated as `fault` or `stuck`"
(93_implementation_defined), so the type has no constructor and no one raises one (log 20). -/
inductive Fault where
deriving DecidableEq, Repr

/-- Why a step has no meaning. Apart from `notModelled`, these are the refusals of 93_implementation_defined rows 9
and 10. -/
inductive Refusal where
  /-- Raised only by `exec`'s arm of a command that has no meaning yet; there is none. Safe. -/
  | notModelled (mnemonic : String)
  /-- Raised by a host turn other than a STATUS read while ENG = BUSY (70_reset_and_hazards R270). Safe: the spec
  refuses it. -/
  | accessWhileBusy (a : HostAccess)
  /-- Raised by a byte access to the register window (20_memory R63). Safe: the spec refuses it. -/
  | registerByteAccess (a : Addr)
  /-- Raised by a word access at an address that is no multiple of 4 (20_memory R63, R64). Safe: the spec refuses it. -/
  | misalignedWord (a : Addr)
deriving DecidableEq, Repr

/-- Everything the spec gives the machine, then the model's own three fields. -/
structure State where
  /-- ENG (R21); STATUS.BUSY is a view of it. -/
  eng : Eng
  /-- STATUS.DONE (R26). -/
  done : Bool
  /-- STATUS.ERR (R26). -/
  err : Bool
  /-- STATUS.ANY_ERR (R26). -/
  anyErr : Bool
  /-- STATUS.TREE_VALID (R26, R30). -/
  treeValid : Bool
  /-- STATUS.DICT_VALID (R26, R30). -/
  dictValid : Bool
  /-- STATUS.CODE (R26). -/
  code : Code
  /-- STATUS.LAST_OP (R26). -/
  lastOp : Byte
  /-- OPA (R23). -/
  opa : Word
  /-- OPB (R23). -/
  opb : Word
  /-- RES0 (R23). -/
  res0 : Word
  /-- RES1 (R23). -/
  res1 : Word
  /-- RES2 (R23). -/
  res2 : Word
  /-- RAW_LEN (R29). -/
  rawLen : BitVec 17
  /-- PAY_LEN (R29). -/
  payLen : BitVec 17
  /-- FRM_LEN (R29). -/
  frmLen : BitVec 17
  /-- FRM_USED (R29). -/
  frmUsed : BitVec 17
  /-- FLIST_LEN (R29). -/
  flistLen : BitVec 9
  /-- RAW, PAY and FRM (R34 to R36). -/
  mem : Memory
  /-- FCNT (R37). -/
  fcnt : Vector (BitVec 17) 256
  /-- FLIST (R38). -/
  flist : Vector FreqEntry 256
  /-- PQ (R39), oldest entry first; PQ_SIZE is its length (log 8). -/
  pq : List PqEntry
  /-- PQ_SERIAL (R31, R39). -/
  pqSerial : BitVec 32
  /-- TREE (R40). -/
  tree : Vector Node 511
  /-- TREE_INFO.ROOT (R32). -/
  treeRoot : BitVec 9
  /-- TREE_INFO.NODES (R32). -/
  treeNodes : BitVec 10
  /-- DICT (R41). -/
  dict : Vector DictEntry 256
  /-- The model's own: what the host and the reset input do next, oldest first (log 4). -/
  host : List HostTurn
  /-- The model's own: what the host has read, oldest first (log 5). -/
  reads : List HostValue
  /-- The model's own: how many free values have been drawn (log 6). -/
  drawn : Nat
deriving DecidableEq, Repr

/-- The state right after power-on reset (10_state R45). No buffer byte is listed: their power-on content is a free
value (log 1). The model's own fields start empty and at 0 (logs 4, 5, 6). -/
def State.reset : State where
  eng := .idle
  done := false
  err := false
  anyErr := false
  treeValid := false
  dictValid := false
  code := .ok
  lastOp := 0
  opa := 0
  opb := 0
  res0 := 0
  res1 := 0
  res2 := 0
  rawLen := 0
  payLen := 0
  frmLen := 0
  frmUsed := 0
  flistLen := 0
  mem := []
  fcnt := Vector.replicate 256 0
  flist := Vector.replicate 256 ⟨0, 0⟩
  pq := []
  pqSerial := 0
  tree := Vector.replicate 511 (.internal 0 0)
  treeRoot := 0
  treeNodes := 0
  dict := Vector.replicate 256 ⟨0, 0, false⟩
  host := []
  reads := []
  drawn := 0

end Sys2Proof.Machine
end

