-- ==== Sys2Proof/Machine/Operands.lean ====
section
/-! DEFINITION. The operand forms: every command takes its operands from registers (30_encoding R84). -/

namespace Sys2Proof.Machine

/-- PQ_INSERT's weight: OPA as a two's complement signed 32-bit value, kept as its 32 bits (30_encoding R84). -/
def State.weightOperand (s : State) : BitVec 32 := s.opa

/-- PQ_INSERT's payload: OPB[15:0] (30_encoding R84). -/
def State.payloadOperand (s : State) : BitVec 16 := s.opb.setWidth 16

/-- DICT_LOOKUP's symbol: OPA[7:0] (30_encoding R84). -/
def State.symOperand (s : State) : Byte := s.opa.setWidth 8

/-- The block length, for FA_RUN, PK_RUN, ENCODE and, as the declared original length, UP_RUN (30_encoding R84). -/
def State.blockLength (s : State) : Nat := s.rawLen.toNat

/-- The declared payload length, for UP_RUN (30_encoding R84). -/
def State.payloadLength (s : State) : Nat := s.payLen.toNat

/-- The number of frame bytes available, for DECODE (30_encoding R84). -/
def State.frameLength (s : State) : Nat := s.frmLen.toNat

/-- The length of the frequency list, for TB_RUN and UP_RUN (30_encoding R84). -/
def State.listLength (s : State) : Nat := s.flistLen.toNat

/-- The first `n` entries of the frequency list. -/
def State.entries (s : State) (n : Nat) : List FreqEntry := s.flist.toList.take n

/-- The sum of the counts of the first `n` entries, exact (42_tree_builder R139, 92_eei_decisions D38). -/
def State.countSum (s : State) (n : Nat) : Nat := ((s.entries n).map fun e => e.count.toNat).sum

end Sys2Proof.Machine
end

