-- ==== Sys2Proof/Machine/Flags.lean ====
section
/-! DEFINITION. Completion codes and the STATUS register (60_exceptions R230, 10_state R26). HUF-CORE has no other flags
(10_state R28). -/

namespace Sys2Proof.Machine

/-- The value of a completion code (60_exceptions R230). -/
def Code.toByte : Code → Byte
  | .ok => 0x00
  | .errIllegalCmd => 0x01
  | .errLength => 0x02
  | .errEmpty => 0x03
  | .errFlist => 0x04
  | .errNoTree => 0x05
  | .errNoDict => 0x06
  | .errPqUnderflow => 0x07
  | .errPqOverflow => 0x08
  | .errPqSerial => 0x09
  | .fmtTruncated => 0x10
  | .fmtDiscriminator => 0x11
  | .fmtLength => 0x12
  | .fmtCount => 0x13
  | .fmtExhausted => 0x14
  | .dictOverflow => 0x20
  | .packOverflow => 0x21
  | .encCoded => 0x30
  | .encRawEmpty => 0x31
  | .encRawSingle => 0x32
  | .encRawDict => 0x33
  | .encRawPack => 0x34
  | .decCoded => 0x40
  | .decRaw => 0x41

/-- The kind of a completion code: an error, or else an outcome (60_exceptions R230). -/
def Code.isError : Code → Bool
  | .ok => false
  | .errIllegalCmd => true
  | .errLength => true
  | .errEmpty => true
  | .errFlist => true
  | .errNoTree => true
  | .errNoDict => true
  | .errPqUnderflow => true
  | .errPqOverflow => true
  | .errPqSerial => true
  | .fmtTruncated => true
  | .fmtDiscriminator => true
  | .fmtLength => true
  | .fmtCount => true
  | .fmtExhausted => true
  | .dictOverflow => false
  | .packOverflow => false
  | .encCoded => false
  | .encRawEmpty => false
  | .encRawSingle => false
  | .encRawDict => false
  | .encRawPack => false
  | .decCoded => false
  | .decRaw => false

/-- STATUS.BUSY: 1 while ENG = BUSY (10_state R26). -/
def State.isBusy (s : State) : Bool :=
  match s.eng with
  | .idle => false
  | .busy _ _ => true

/-- A flag placed at bit `i` of a word. -/
def flagBit (b : Bool) (i : Nat) : Word := (BitVec.ofBool b).setWidth 32 <<< i

/-- The word a read of STATUS returns (10_state R26). -/
def State.statusWord (s : State) : Word :=
  flagBit s.isBusy 0 ||| flagBit s.done 1 ||| flagBit s.err 2 ||| flagBit s.anyErr 3
    ||| flagBit s.treeValid 4 ||| flagBit s.dictValid 5
    ||| s.code.toByte.setWidth 32 <<< 8 ||| s.lastOp.setWidth 32 <<< 16

end Sys2Proof.Machine
end

