-- ==== Sys2Proof/Machine/Ops.lean ====
section
/-! DEFINITION. The named operations over memory, tables, the queue and STATUS that the commands share. -/

namespace Sys2Proof.Machine

/-! ### Little-endian bytes (20_memory R64, R65; 00_scope R9) -/

/-- Byte `k` of a word, byte 0 being bits 7:0. -/
def byteOf (v : Word) (k : Nat) : Byte := (v >>> (8 * k)).setWidth 8

/-- The word of four bytes, lowest address first. -/
def wordOf (b0 b1 b2 b3 : Byte) : Word := b3 ++ b2 ++ b1 ++ b0

/-- The two bytes of `put_le16`. -/
def le16Bytes (v : BitVec 16) : List Byte := [v.setWidth 8, (v >>> 8).setWidth 8]

/-- The four bytes of `put_le32`. -/
def le32Bytes (v : Word) : List Byte := [byteOf v 0, byteOf v 1, byteOf v 2, byteOf v 3]

/-! ### Buffers (10_state R34 to R36, 20_memory R61) -/

/-- The host-port address of byte 0 of a buffer. -/
def Buffer.base : Buffer → Nat
  | .raw => 0x010000
  | .pay => 0x020000
  | .frm => 0x040000

/-- The number of bytes of a buffer. -/
def Buffer.size : Buffer → Nat
  | .raw => 65536
  | .pay => 65536
  | .frm => Config.frmCap

/-- The address is a byte of this buffer. -/
abbrev Buffer.holds (b : Buffer) (a : Nat) : Prop := b.base ≤ a ∧ a < b.base + b.size

/-- The address is a byte of some buffer. -/
abbrev bufferAddress (a : Nat) : Prop := Buffer.raw.holds a ∨ Buffer.pay.holds a ∨ Buffer.frm.holds a

/-- The byte listed at an address; nothing is listed for a byte that was never written. -/
def Memory.find (m : Memory) (a : Nat) : Option Byte := m.lookup a

/-- Store one byte, keeping the addresses strictly rising. -/
def Memory.write : Memory → Nat → Byte → Memory
  | [], a, v => [(a, v)]
  | (k, x) :: m, a, v =>
    if a < k then (a, v) :: (k, x) :: m
    else if a = k then (a, v) :: m
    else (k, x) :: Memory.write m a v

/-- Store consecutive bytes from address `a` up, keeping the addresses strictly rising. -/
def Memory.writeRange (m : Memory) (a : Nat) (bs : List Byte) : Memory :=
  m.filter (fun c => c.1 < a) ++ (bs.zipIdx a).map (fun p => (p.2, p.1))
    ++ m.filter (fun c => a + bs.length ≤ c.1)

/-- The canonical form: addresses strictly rising, every address a buffer byte. -/
abbrev Memory.wf (m : Memory) : Prop :=
  m.Pairwise (fun c d => c.1 < d.1) ∧ ∀ c ∈ m, bufferAddress c.1

/-- What the buffer byte at an address reads as: the byte last written, or the free power-on value (log 1). -/
def State.memByte (s : State) (a : Nat) : Byte := (Memory.find s.mem a).getD (Config.powerOnByte a)

/-- Byte `i` of a buffer. -/
def State.bufByte (s : State) (b : Buffer) (i : Nat) : Byte := s.memByte (b.base + i)

/-- Bytes `i` to `i + n − 1` of a buffer. -/
def State.bufBytes (s : State) (b : Buffer) (i n : Nat) : List Byte :=
  (List.range n).map fun k => s.bufByte b (i + k)

/-- Write bytes into a buffer from its byte 0 up; a buffer has no byte past its size (log 15). -/
def State.fillBuf (s : State) (b : Buffer) (bs : List Byte) : State :=
  { s with mem := Memory.writeRange s.mem b.base (bs.take b.size) }

/-- `le16` of a buffer at an offset (00_scope R9). -/
def State.bufLe16 (s : State) (b : Buffer) (i : Nat) : BitVec 16 := s.bufByte b (i + 1) ++ s.bufByte b i

/-- `le32` of a buffer at an offset (00_scope R9). -/
def State.bufLe32 (s : State) (b : Buffer) (i : Nat) : Word :=
  wordOf (s.bufByte b i) (s.bufByte b (i + 1)) (s.bufByte b (i + 2)) (s.bufByte b (i + 3))

/-! ### Tables (10_state R37 to R41) -/

/-- Counter of a symbol in a counter table. -/
def counterAt (v : Vector (BitVec 17) 256) (sym : Byte) : BitVec 17 := v[sym.toNat]'sym.isLt

/-- Entry of a symbol in a dictionary. -/
def dictAt (d : Vector DictEntry 256) (sym : Byte) : DictEntry := d[sym.toNat]'sym.isLt

/-- Node of an index in a tree store; index 511, which no tree has, reads as the reset node (log 10). -/
def nodeAt (t : Vector Node 511) (n : BitVec 9) : Node := t[n.toNat]?.getD (.internal 0 0)

/-- A table whose first entries are replaced by those of a list. -/
def overwriteFirst {α : Type} {n : Nat} (v : Vector α n) (xs : List α) : Vector α n :=
  ⟨(xs.take n ++ v.toList.drop xs.length).toArray, by simp; omega⟩

/-! ### The priority queue (40_priority_queue R110 to R114) -/

/-- `a > b` in the order of R110: greater signed weight, or equal weight and smaller serial. -/
def PqEntry.above (a b : PqEntry) : Bool :=
  b.weight.slt a.weight || (a.weight == b.weight && a.serial.ult b.serial)

/-- The greatest entry of a queue under R110. -/
def pqGreatest : List PqEntry → Option PqEntry
  | [] => none
  | e :: es => some (es.foldl (fun m f => if f.above m then f else m) e)

/-- The greatest entry and the queue without it (R114 `pq_extract`); nothing when the queue is empty. -/
def pqTake (q : List PqEntry) : Option (PqEntry × List PqEntry) :=
  (pqGreatest q).map fun e => (e, q.erase e)

/-- The queue with a new entry, which takes the given serial (R111). -/
def pqPush (q : List PqEntry) (w serial : BitVec 32) (p : BitVec 16) : List PqEntry := q ++ [⟨w, serial, p⟩]

/-! ### Updates of State -/

/-- Replace the queue and its serial counter. -/
def State.setQueue (s : State) (q : List PqEntry) (serial : BitVec 32) : State :=
  { s with pq := q, pqSerial := serial }

/-- Write RES0 to RES2. -/
def State.setResults (s : State) (r0 r1 r2 : Word) : State := { s with res0 := r0, res1 := r1, res2 := r2 }

/-- Write FCNT. -/
def State.setFcnt (s : State) (c : Vector (BitVec 17) 256) : State := { s with fcnt := c }

/-- Write FLIST and FLIST_LEN. -/
def State.setFlist (s : State) (l : Vector FreqEntry 256) (n : Nat) : State :=
  { s with flist := l, flistLen := BitVec.ofNat 9 n }

/-- Record a completed tree build: TREE, TREE_INFO, TREE_VALID 1, DICT_VALID 0 (42_tree_builder R138). -/
def State.setTree (s : State) (t : Vector Node 511) (root : BitVec 9) (nodes : Nat) : State :=
  { s with tree := t, treeRoot := root, treeNodes := BitVec.ofNat 10 nodes, treeValid := true, dictValid := false }

/-- Record a dictionary build: DICT and DICT_VALID (43_dictionary R151). -/
def State.setDict (s : State) (d : Vector DictEntry 256) (valid : Bool) : State :=
  { s with dict := d, dictValid := valid }

/-- Write RAW_LEN. -/
def State.setRawLen (s : State) (n : Nat) : State := { s with rawLen := BitVec.ofNat 17 n }

/-- Write PAY_LEN. -/
def State.setPayLen (s : State) (n : Nat) : State := { s with payLen := BitVec.ofNat 17 n }

/-- Write FRM_LEN. -/
def State.setFrmLen (s : State) (n : Nat) : State := { s with frmLen := BitVec.ofNat 17 n }

/-- Write FRM_USED. -/
def State.setFrmUsed (s : State) (n : Nat) : State := { s with frmUsed := BitVec.ofNat 17 n }

/-! ### The command lifecycle (10_state R27, 60_exceptions R231) -/

/-- A CMD write that starts a command (10_state R21, R27): ENG BUSY with the word, DONE, ERR and CODE cleared, LAST_OP
the word's OPCODE bits; the other STATUS fields stay. -/
def State.startCommand (s : State) (w : Word) (turns : Nat) : State :=
  { s with eng := .busy w turns, done := false, err := false, code := .ok, lastOp := w.setWidth 8 }

/-- `finish(code)`: the command ends with an outcome; ANY_ERR stays (00_scope R9, 10_state R27). -/
def State.finish (s : State) (c : Code) : State :=
  { s with eng := .idle, done := true, err := false, code := c }

/-- `raise Error(code)`: the command ends with an error, what it wrote stays; this is HUF-CORE's only exception, and it
saves nothing but STATUS and transfers no control (60_exceptions R231, R236). There is no return from it (R237). -/
def State.raise (s : State) (c : Code) : State :=
  { s with eng := .idle, done := true, err := true, code := c, anyErr := true }

end Sys2Proof.Machine
end

