-- ==== Sys2Proof/Machine/Sweep.lean ====
section
/-! DEFINITION. Reading a run of buffer bytes in one pass. `State.bufBytes` is the model's definition; this file only
gives compiled code an equal one that takes linear time, so that whole blocks of 65536 bytes can be run. -/

namespace Sys2Proof.Machine

/-- `n` buffer bytes from address `a` up, in one pass over a memory whose addresses rise from `a` on; `acc` holds the
bytes before, last first. -/
def Memory.sweep : Nat → Nat → Memory → List Byte → List Byte
  | 0, _, _, acc => acc.reverse
  | n + 1, a, [], acc => Memory.sweep n (a + 1) [] (Config.powerOnByte a :: acc)
  | n + 1, a, (k, x) :: m, acc =>
    if k = a then Memory.sweep n (a + 1) m (x :: acc)
    else Memory.sweep n (a + 1) ((k, x) :: m) (Config.powerOnByte a :: acc)

/-- `State.bufBytes` by one sweep over a memory whose addresses rise, byte by byte over any other. -/
def State.bufBytesSweep (s : State) (b : Buffer) (i n : Nat) : List Byte :=
  if s.mem.IsChain (fun c d => c.1 < d.1) then
    Memory.sweep n (b.base + i) (s.mem.filter fun c => b.base + i ≤ c.1) []
  else (List.range n).map fun k => s.bufByte b (i + k)

/-- Nothing is listed at an address below all listed ones. -/
theorem Memory.find_eq_none {m : Memory} {a : Nat} (h : ∀ c ∈ m, a < c.1) : Memory.find m a = none := by
  simp only [Memory.find, List.lookup_eq_none_iff]
  intro c hc
  have := h c hc
  simp; omega

/-- What the sweep answers on a rising memory. -/
theorem Memory.sweep_eq (n a : Nat) (m : Memory) (acc : List Byte) (hm : m.Pairwise fun c d => c.1 < d.1)
    (ha : ∀ c ∈ m, a ≤ c.1) :
    Memory.sweep n a m acc
      = acc.reverse ++ (List.range' a n).map fun k => (Memory.find m k).getD (Config.powerOnByte k) := by
  induction n generalizing a m acc with
  | zero => simp [Memory.sweep]
  | succ n ih =>
    match m with
    | [] => simp [Memory.sweep, ih, List.range'_succ, Memory.find]
    | (k, x) :: m =>
      rw [List.pairwise_cons] at hm
      rw [Memory.sweep]
      split
      · subst k
        rw [ih _ _ _ hm.2 (fun c hc => hm.1 c hc), List.range'_succ]
        simp only [List.reverse_cons, List.append_assoc, List.map_cons, List.singleton_append]
        congr 2
        · simp [Memory.find]
        · apply List.map_congr_left
          intro j hj
          have : (j == a) = false := by simp at hj ⊢; omega
          simp [Memory.find, List.lookup_cons, this]
      · next hk =>
        have hak : a < k := by have := ha (k, x) (by simp); simp at this; omega
        have hall : ∀ c ∈ (k, x) :: m, a < c.1 := by
          intro c hc
          rcases List.mem_cons.1 hc with rfl | hc
          · exact hak
          · have := hm.1 c hc; simp at this; omega
        rw [ih _ _ _ (List.pairwise_cons.2 hm) (fun c hc => hall c hc), List.range'_succ]
        simp [Memory.find_eq_none hall]

/-- Compiled code may read a buffer by the sweep. -/
@[csimp] theorem State.bufBytes_eq_sweep : @State.bufBytes = @State.bufBytesSweep := by
  funext s b i n
  rw [State.bufBytesSweep]
  split
  · next h =>
    have hp : s.mem.Pairwise (fun c d => c.1 < d.1) := by
      have : IsTrans Host.Cell (fun c d => c.1 < d.1) := ⟨fun a b c h1 h2 => Nat.lt_trans h1 h2⟩
      exact List.isChain_iff_pairwise.1 h
    rw [Memory.sweep_eq _ _ _ _ (hp.filter _) (by simp)]
    simp only [State.bufBytes, List.range'_eq_map_range, List.map_map, List.reverse_nil, List.nil_append]
    apply List.map_congr_left
    intro j _
    simp only [State.bufByte, State.memByte, Function.comp, Nat.add_assoc]
    congr 1
    generalize s.mem = m
    induction m with
    | nil => rfl
    | cons c m ih =>
      obtain ⟨k, x⟩ := c
      simp only [Memory.find] at ih ⊢
      by_cases hc : b.base + i ≤ k
      · simp [hc, List.lookup_cons, ih]
      · have : (b.base + (i + j) == k) = false := by simp; omega
        simp [hc, List.lookup_cons, ih, this]
  · rfl
end Sys2Proof.Machine
end

