-- ==== Sys2Proof/Machine/BitPacker.lean ====
section
/-! DEFINITION. The bit packer (44_bit_packer): PK_RUN and the function it shares with ENCODE. -/

namespace Sys2Proof.Machine

/-- The bytes that leave the low end of the window while it drains `n` times (R166). -/
def drainBytes : Nat → BitVec 64 → List Byte
  | 0, _ => []
  | n + 1, win => win.setWidth 8 :: drainBytes n (win >>> 8)

/-- The packed bytes of a block from a window holding `wb` pending bits on (R166): each symbol's pattern is OR-ed above
the pending bits, whole bytes drain from the low end, and pending bits at the end make one last byte. -/
def packFrom (d : Vector DictEntry 256) : List Byte → BitVec 64 → Nat → List Byte
  | [], win, wb => if 0 < wb then [win.setWidth 8] else []
  | b :: bs, win, wb =>
    let e := dictAt d b
    let win' := win ||| (e.pattern.setWidth 64 <<< wb)
    let wb' := wb + e.width.toNat
    drainBytes (wb' / 8) win' ++ packFrom d bs (win' >>> (8 * (wb' / 8))) (wb' % 8)

/-- The whole packed stream of a block, before the capacity of PAY is applied (R166, R168; log 11). -/
def packStream (d : Vector DictEntry 256) (block : List Byte) : List Byte := packFrom d block 0 0

/-- Does the packed stream of the block reach the capacity, so that `pack` returns OVERFLOW (R168)? -/
def State.packOverflows (s : State) (len : Nat) : Bool :=
  Config.packCap ≤ (packStream s.dict (s.bufBytes .raw 0 len)).length

/-- `pack(L)` (R166): PAY and PAY_LEN; past the capacity only the first 65536 bytes leave the packer (R168). -/
def State.pack (s : State) (len : Nat) : State :=
  let out := (packStream s.dict (s.bufBytes .raw 0 len)).take Config.packCap
  (s.fillBuf .pay out).setPayLen out.length

/-- PK_RUN (R169). -/
def pkRun (s : State) : State :=
  if Config.blockMax < s.blockLength then s.raise .errLength
  else if s.dictValid = false then s.raise .errNoDict
  else (s.pack s.blockLength).finish (if s.packOverflows s.blockLength then .packOverflow else .ok)

/-- PK_RUN (R169). -/
def execPkRun (s : State) : Host.Outcome State Fault Refusal := .next (pkRun s)

end Sys2Proof.Machine
end

