-- ==== Sys2Proof/Machine/PriorityQueue.lean ====
section
/-! DEFINITION. The priority-queue commands (40_priority_queue): PQ_CLEAR, PQ_INSERT, PQ_EXTRACT. -/

namespace Sys2Proof.Machine

/-- `pq_clear()` (R114). -/
def State.pqClear (s : State) : State := s.setQueue [] 0

/-- `pq_insert(w, p)` (R114): the error it raises, or the state with the new entry. -/
def State.pqInsert (s : State) (w : BitVec 32) (p : BitVec 16) : Except Code State :=
  if Config.pqCap ≤ s.pq.length then .error .errPqOverflow
  else if s.pqSerial = 0xFFFFFFFF then .error .errPqSerial
  else .ok (s.setQueue (pqPush s.pq w s.pqSerial p) (s.pqSerial + 1))

/-- `pq_extract()` (R114): the error it raises, or the greatest entry and the state without it. -/
def State.pqExtract (s : State) : Except Code (PqEntry × State) :=
  match pqTake s.pq with
  | none => .error .errPqUnderflow
  | some (e, q) => .ok (e, s.setQueue q s.pqSerial)

/-- PQ_CLEAR (R115). -/
def pqClearRun (s : State) : State := s.pqClear.finish .ok

/-- PQ_INSERT (R116). -/
def pqInsertRun (s : State) : State :=
  match s.pqInsert s.weightOperand s.payloadOperand with
  | .error c => s.raise c
  | .ok t => t.finish .ok

/-- PQ_EXTRACT (R117): weight, payload and serial of the greatest entry to RES0 to RES2. -/
def pqExtractRun (s : State) : State :=
  match s.pqExtract with
  | .error c => s.raise c
  | .ok (e, t) => (t.setResults e.weight (e.payload.setWidth 32) e.serial).finish .ok

/-- PQ_CLEAR (R115). -/
def execPqClear (s : State) : Host.Outcome State Fault Refusal := .next (pqClearRun s)

/-- PQ_INSERT (R116). -/
def execPqInsert (s : State) : Host.Outcome State Fault Refusal := .next (pqInsertRun s)

/-- PQ_EXTRACT (R117). -/
def execPqExtract (s : State) : Host.Outcome State Fault Refusal := .next (pqExtractRun s)

end Sys2Proof.Machine
end

