-- ==== Sys2Proof/Machine/TreeBuilder.lean ====
section
/-! DEFINITION. The Huffman tree builder (42_tree_builder): TB_RUN and the function it shares with UP_RUN, ENCODE and
DECODE. -/

namespace Sys2Proof.Machine

/-- What the tree builder works on inside one command (R135): the queue, its serial counter, the tree store, and the
index of the next node. -/
structure Builder where
  queue : List PqEntry
  serial : BitVec 32
  tree : Vector Node 511
  next : Nat
deriving DecidableEq, Repr

/-- CLEAR (R136): the queue is emptied, the serial counter is 0, no node is placed. -/
def Builder.clear (t : Vector Node 511) : Builder := ⟨[], 0, t, 0⟩

/-- Place a node at the next index and insert it with a weight; the node's index is its payload (R136). The queue's
capacity and serial checks of `pq_insert` cannot fire here (R142, log 9). -/
def Builder.place (b : Builder) (n : Node) (w : BitVec 32) : Builder where
  queue := pqPush b.queue w b.serial (BitVec.ofNat 16 b.next)
  serial := b.serial + 1
  tree := b.tree.setIfInBounds b.next n
  next := b.next + 1

/-- LOAD of one frequency entry (R136): a leaf, weighted by the negated count. -/
def Builder.addLeaf (b : Builder) (e : FreqEntry) : Builder := b.place (.leaf e.sym) (-e.count)

/-- The internal node over two extracted entries, in the order of CHILD_ORDER (R136, 00_scope R6 and R7). -/
def mergedNode (order : ChildOrder) (x y : PqEntry) : Node :=
  match order with
  | .firstIsZero => .internal (x.payload.setWidth 9) (y.payload.setWidth 9)
  | .firstIsOne => .internal (y.payload.setWidth 9) (x.payload.setWidth 9)

/-- MERGE once (R136): extract two entries, place their parent. With fewer than two entries there is nothing to merge. -/
def Builder.merge (b : Builder) : Builder :=
  match pqTake b.queue with
  | none => b
  | some (x, q) =>
    match pqTake q with
    | none => b
    | some (y, r) => Builder.place { b with queue := r } (mergedNode Config.childOrder x y) (x.weight + y.weight)

/-- MERGE while the queue holds more than one entry (R136), at most `fuel` times; N entries need N − 1 merges. -/
def Builder.mergeAll : Nat → Builder → Builder
  | 0, b => b
  | fuel + 1, b => if 1 < b.queue.length then Builder.mergeAll fuel b.merge else b

/-- CLEAR, LOAD and MERGE for a frequency list (R136). -/
def buildNodes (t : Vector Node 511) (es : List FreqEntry) : Builder :=
  Builder.mergeAll es.length (es.foldl Builder.addLeaf (Builder.clear t))

/-- `build_tree(N)` (R136): FINAL extracts the root, DONE records TREE, TREE_INFO and the validity flags. -/
def State.buildTree (s : State) (n : Nat) : State :=
  let b := buildNodes s.tree (s.entries n)
  match pqTake b.queue with
  | none => s.setQueue [] b.serial
  | some (r, q) => (s.setQueue q b.serial).setTree b.tree (r.payload.setWidth 9) b.next

/-- TB_RUN (R139). -/
def tbRun (s : State) : State :=
  if s.listLength = 0 then s.raise .errEmpty
  else if Config.alphabet < s.listLength then s.raise .errFlist
  else if Config.countMax < s.countSum s.listLength then s.raise .errFlist
  else (s.buildTree s.listLength).finish .ok

/-- TB_RUN (R139). -/
def execTbRun (s : State) : Host.Outcome State Fault Refusal := .next (tbRun s)

end Sys2Proof.Machine
end

