-- ==== Sys2Proof/Machine/BitUnpacker.lean ====
section
/-! DEFINITION. The bit unpacker (45_bit_unpacker): UP_RUN and the function it shares with DECODE. The window of R182
holds at most the unread bits of one payload byte (R183), so the walk is written over the list of payload bits in the
order R105 gives them (log 12). -/

namespace Sys2Proof.Machine

/-- The bits of a byte in stream order, bit 0 first (30_encoding R105). -/
def byteBits (b : Byte) : List Bool := (List.range 8).map b.getLsbD

/-- The bits of a payload in stream order (30_encoding R105). -/
def payloadBits (bytes : List Byte) : List Bool := bytes.flatMap byteBits

/-- Walk from a node to a leaf, one payload bit per internal node, 0 to the zero-child and 1 to the one-child (R182):
the leaf's symbol and the bits left, or nothing when the payload is exhausted before the leaf. -/
def walk (t : Vector Node 511) : BitVec 9 → List Bool → Option (Byte × List Bool)
  | n, [] =>
    match nodeAt t n with
    | .leaf sym => some (sym, [])
    | .internal _ _ => none
  | n, bit :: bits =>
    match nodeAt t n with
    | .leaf sym => some (sym, bit :: bits)
    | .internal z o => walk t (if bit then o else z) bits

/-- The symbols `unpack` emits, at most `count` of them: it stops early when the payload is exhausted (R182). -/
def unpackSyms (t : Vector Node 511) (root : BitVec 9) : Nat → List Bool → List Byte
  | 0, _ => []
  | count + 1, bits =>
    match walk t root bits with
    | none => []
    | some (sym, rest) => sym :: unpackSyms t root count rest

/-- The symbols emitted from PAY[0..P−1] for a declared length L with the tree of the state (R182). -/
def State.emitted (s : State) (len payLen : Nat) : List Byte :=
  unpackSyms s.tree s.treeRoot len (payloadBits (s.bufBytes .pay 0 payLen))

/-- `unpack(L, P)` (R182): RAW gets the symbols emitted. -/
def State.unpack (s : State) (len payLen : Nat) : State := s.fillBuf .raw (s.emitted len payLen)

/-- Does `unpack(L, P)` return EXHAUSTED: fewer symbols than L were emitted (R182)? -/
def State.exhausts (s : State) (len payLen : Nat) : Bool := (s.emitted len payLen).length < len

/-- UP_RUN (R185). -/
def upRun (s : State) : State :=
  if s.listLength = 0 then s.raise .errEmpty
  else if Config.alphabet < s.listLength then s.raise .errFlist
  else if Config.blockMax < s.blockLength ∨ Config.packCap < s.payloadLength then s.raise .errLength
  else if s.countSum s.listLength ≠ s.blockLength then s.raise .fmtCount
  else
    let t := s.buildTree s.listLength
    if t.exhausts s.blockLength s.payloadLength then
      (t.unpack s.blockLength s.payloadLength).raise .fmtExhausted
    else (t.unpack s.blockLength s.payloadLength).finish .ok

/-- UP_RUN (R185). -/
def execUpRun (s : State) : Host.Outcome State Fault Refusal := .next (upRun s)

end Sys2Proof.Machine
end

