-- ==== Sys2Proof/Machine/Dictionary.lean ====
section
/-! DEFINITION. The dictionary builder and the lookup engine (43_dictionary): DB_RUN, DICT_LOOKUP, and the function
DB_RUN shares with ENCODE. -/

namespace Sys2Proof.Machine

/-- The dictionary with no symbol (R151). -/
def emptyDict : Vector DictEntry 256 := Vector.replicate 256 ⟨0, 0, false⟩

/-- A leaf's record (R151). -/
def recordLeaf (d : Vector DictEntry 256) (sym : Byte) (pat : BitVec 56) (width : Nat) : Vector DictEntry 256 :=
  d.set sym.toNat ⟨pat, BitVec.ofNat 6 width, true⟩ sym.isLt

/-- `visit(n, pat, w)` (R151), with `left = 56 − w` edges still allowed: the dictionary after the subtree, or nothing
when an internal node stands at width 56 (R152). The zero-child is visited first. -/
def visit (t : Vector Node 511) : Nat → BitVec 9 → BitVec 56 → Vector DictEntry 256 → Option (Vector DictEntry 256)
  | 0, n, pat, d =>
    match nodeAt t n with
    | .leaf sym => some (recordLeaf d sym pat Config.maxWidth)
    | .internal _ _ => none
  | left + 1, n, pat, d =>
    match nodeAt t n with
    | .leaf sym => some (recordLeaf d sym pat (Config.maxWidth - (left + 1)))
    | .internal z o =>
      match visit t left z pat d with
      | none => none
      | some d' => visit t left o (pat ||| 1#56 <<< (Config.maxWidth - (left + 1))) d'

/-- The dictionary of a tree, or nothing when it overflows the width bound (R151, R152). -/
def dictOfTree (t : Vector Node 511) (root : BitVec 9) : Option (Vector DictEntry 256) :=
  visit t Config.maxWidth root 0 emptyDict

/-- `build_dict()` (R151): on overflow DICT is all zero and DICT_VALID is 0. -/
def State.buildDict (s : State) : State :=
  match dictOfTree s.tree s.treeRoot with
  | some d => s.setDict d true
  | none => s.setDict emptyDict false

/-- DB_RUN (R153); after `build_dict`, DICT_VALID says which of OK and OVERFLOW it returned (R151). -/
def dbRun (s : State) : State :=
  if s.treeValid = false then s.raise .errNoTree
  else if s.buildDict.dictValid then s.buildDict.finish .ok
  else s.buildDict.finish .dictOverflow

/-- RES2 of a lookup: present in bit 8, width in bits 5:0 (R154). -/
def DictEntry.infoWord (e : DictEntry) : Word := (BitVec.ofBool e.present ++ (0 : BitVec 2) ++ e.width).setWidth 32

/-- DICT_LOOKUP (R154). -/
def dictLookupRun (s : State) : State :=
  let e := dictAt s.dict s.symOperand
  (s.setResults (e.pattern.setWidth 32) ((e.pattern >>> 32).setWidth 32) e.infoWord).finish .ok

/-- DB_RUN (R153). -/
def execDbRun (s : State) : Host.Outcome State Fault Refusal := .next (dbRun s)

/-- DICT_LOOKUP (R154). -/
def execDictLookup (s : State) : Host.Outcome State Fault Refusal := .next (dictLookupRun s)

end Sys2Proof.Machine
end

