-- ==== Sys2Proof/Machine/FrequencyAnalyzer.lean ====
section
/-! DEFINITION. The frequency analyzer (41_frequency_analyzer): FA_RUN and the function it shares with ENCODE. -/

namespace Sys2Proof.Machine

/-- One counter incremented (R125; no counter wraps, R127). -/
def countByte (c : Vector (BitVec 17) 256) (b : Byte) : Vector (BitVec 17) 256 :=
  c.set b.toNat (counterAt c b + 1) b.isLt

/-- The 256 counters after one pass over a block (R125). -/
def countBytes (block : List Byte) : Vector (BitVec 17) 256 :=
  block.foldl countByte (Vector.replicate 256 0)

/-- The order of the frequency list: descending count, then ascending symbol (R125), made reflexive for the sort. -/
abbrev FreqEntry.precedes (e f : FreqEntry) : Prop :=
  f.count.toNat < e.count.toNat ∨ (f.count.toNat = e.count.toNat ∧ e.sym.toNat ≤ f.sym.toNat)

/-- The 256 pairs (symbol, counter) in symbol order (R125). -/
def counterEntries (c : Vector (BitVec 17) 256) : List FreqEntry :=
  (List.range 256).map fun i => ⟨BitVec.ofNat 8 i, (counterAt c (BitVec.ofNat 8 i)).setWidth 32⟩

/-- The 256 pairs sorted (R125). -/
def sortedEntries (c : Vector (BitVec 17) 256) : List FreqEntry :=
  (counterEntries c).insertionSort FreqEntry.precedes

/-- How many symbols occur (R125). -/
def occurring (c : Vector (BitVec 17) 256) : Nat := c.toList.countP fun n => n != 0

/-- `analyze(L)` (R125): FCNT, all 256 entries of FLIST, and FLIST_LEN. -/
def State.analyze (s : State) (len : Nat) : State :=
  (s.setFcnt (countBytes (s.bufBytes .raw 0 len))).setFlist
    (overwriteFirst s.flist (sortedEntries (countBytes (s.bufBytes .raw 0 len))))
    (occurring (countBytes (s.bufBytes .raw 0 len)))

/-- FA_RUN (R126). -/
def faRun (s : State) : State :=
  if Config.blockMax < s.blockLength then s.raise .errLength
  else (s.analyze s.blockLength).finish .ok

/-- FA_RUN (R126). -/
def execFaRun (s : State) : Host.Outcome State Fault Refusal := .next (faRun s)

end Sys2Proof.Machine
end

