-- ==== Sys2Proof/Machine/BlockCodec.lean ====
section
/-! DEFINITION. The block codec (46_block_codec): ENCODE and DECODE, over the frame layouts of 30_encoding R91 and R92. -/

namespace Sys2Proof.Machine

/-! ### Frame writers (R195) -/

/-- The bytes of a raw frame (30_encoding R92). -/
def rawFrame (block : List Byte) : List Byte :=
  le16Bytes 0 ++ le32Bytes (BitVec.ofNat 32 block.length) ++ block

/-- One entry of a coded frame's frequency table (30_encoding R91). -/
def FreqEntry.frameBytes (e : FreqEntry) : List Byte := e.sym :: le32Bytes e.count

/-- The bytes of a coded frame (30_encoding R91): entries, original length, payload. -/
def codedFrame (es : List FreqEntry) (len : Nat) (payload : List Byte) : List Byte :=
  le16Bytes (BitVec.ofNat 16 es.length) ++ es.flatMap FreqEntry.frameBytes
    ++ le32Bytes (BitVec.ofNat 32 len) ++ le32Bytes (BitVec.ofNat 32 payload.length) ++ payload

/-- Store a frame in FRM from byte 0 up, and its length in FRM_LEN (R195). -/
def State.putFrame (s : State) (frame : List Byte) : State := (s.fillBuf .frm frame).setFrmLen frame.length

/-- `write_raw(L)` (R195). -/
def State.writeRaw (s : State) (len : Nat) : State := s.putFrame (rawFrame (s.bufBytes .raw 0 len))

/-- `write_coded(N, L, P)` (R195). -/
def State.writeCoded (s : State) (n len payLen : Nat) : State :=
  s.putFrame (codedFrame (s.entries n) len (s.bufBytes .pay 0 payLen))

/-! ### ENCODE (R196) -/

/-- ENCODE from the packer on: the dictionary is built, the block has two symbols or more (R196). -/
def encodePacked (s : State) (n len : Nat) : State :=
  let t := s.pack len
  if s.packOverflows len then (t.writeRaw len).finish .encRawPack
  else (t.writeCoded n len t.payLen.toNat).finish .encCoded

/-- ENCODE from the tree build on: the block has two symbols or more (R196). -/
def encodeTree (s : State) (n len : Nat) : State :=
  let t := (s.buildTree n).buildDict
  if t.dictValid then encodePacked t n len
  else (t.writeRaw len).finish .encRawDict

/-- ENCODE (R196). -/
def encodeRun (s : State) : State :=
  let len := s.blockLength
  if Config.blockMax < len then s.raise .errLength
  else
    let t := s.analyze len
    let n := t.listLength
    if n = 0 then (t.writeRaw len).finish .encRawEmpty
    else if n = 1 then (t.writeRaw len).finish .encRawSingle
    else encodeTree t n len

/-! ### DECODE (R201) -/

/-- DECODE of a raw frame, A bytes being available (R201). -/
def decodeRaw (s : State) (avail : Nat) : State :=
  if avail < 6 then s.raise .fmtTruncated
  else
    let len := (s.bufLe32 .frm 2).toNat
    if Config.blockMax < len then s.raise .fmtLength
    else if avail < 6 + len then s.raise .fmtTruncated
    else (((s.fillBuf .raw (s.bufBytes .frm 6 len)).setRawLen len).setFrmUsed (6 + len)).finish .decRaw

/-- Entry `i` of the frequency table of the coded frame in FRM (30_encoding R91). -/
def State.frameEntry (s : State) (i : Nat) : FreqEntry := ⟨s.bufByte .frm (2 + 5 * i), s.bufLe32 .frm (3 + 5 * i)⟩

/-- FLIST and FLIST_LEN loaded from a coded frame's header of `n` entries (R201). -/
def State.loadHeader (s : State) (n : Nat) : State :=
  s.setFlist (overwriteFirst s.flist ((List.range n).map s.frameEntry)) n

/-- DECODE of a coded frame from the payload on: all header checks passed (R201). -/
def decodePayload (s : State) (n len payLen : Nat) : State :=
  let h := 10 + 5 * n
  let t := ((s.fillBuf .pay (s.bufBytes .frm h payLen)).setPayLen payLen).buildTree n
  let u := t.unpack len payLen
  if t.exhausts len payLen then u.raise .fmtExhausted
  else ((u.setRawLen len).setFrmUsed (h + payLen)).finish .decCoded

/-- DECODE of a coded frame of `n` entries, A bytes being available (R201). -/
def decodeCoded (s : State) (avail n : Nat) : State :=
  let h := 10 + 5 * n
  if avail < h then s.raise .fmtTruncated
  else
    let t := s.loadHeader n
    let len := (s.bufLe32 .frm (2 + 5 * n)).toNat
    let payLen := (s.bufLe32 .frm (6 + 5 * n)).toNat
    if Config.blockMax < len ∨ Config.packCap < payLen then t.raise .fmtLength
    else if avail < h + payLen then t.raise .fmtTruncated
    else if t.countSum n ≠ len then t.raise .fmtCount
    else decodePayload t n len payLen

/-- DECODE (R201). -/
def decodeRun (s : State) : State :=
  let avail := s.frameLength
  if Config.frmCap < avail then s.raise .errLength
  else if avail < 2 then s.raise .fmtTruncated
  else
    let n := (s.bufLe16 .frm 0).toNat
    if n = 0 then decodeRaw s avail
    else if Config.alphabet < n then s.raise .fmtDiscriminator
    else decodeCoded s avail n

/-- ENCODE (R196). -/
def execEncodeBlock (s : State) : Host.Outcome State Fault Refusal := .next (encodeRun s)

/-- DECODE (R201). -/
def execDecodeFrame (s : State) : Host.Outcome State Fault Refusal := .next (decodeRun s)

end Sys2Proof.Machine
end

