-- ==== Sys2Proof/Machine/Control.lean ====
section
/-! DEFINITION. The control commands (47_control): NOP, RESET, and the completion of an illegal command word. -/

namespace Sys2Proof.Machine

/-- NOP (R220). -/
def nopRun (s : State) : State := s.finish .ok

/-- RESET (R221): every item to its reset value but the buffers and the STATUS lifecycle. -/
def resetRun (s : State) : State :=
  State.finish
    { s with
      opa := 0, opb := 0, res0 := 0, res1 := 0, res2 := 0
      rawLen := 0, payLen := 0, frmLen := 0, frmUsed := 0, flistLen := 0
      pq := [], pqSerial := 0
      treeRoot := 0, treeNodes := 0
      fcnt := Vector.replicate 256 0
      dict := emptyDict
      flist := Vector.replicate 256 ⟨0, 0⟩
      tree := Vector.replicate 511 (.internal 0 0)
      anyErr := false, treeValid := false, dictValid := false }
    .ok

/-- An illegal command word completes with ERR_ILLEGAL_CMD and changes nothing but STATUS (R222). -/
def illegalRun (s : State) : State := s.raise .errIllegalCmd

/-- NOP (R220). -/
def execNop (s : State) : Host.Outcome State Fault Refusal := .next (nopRun s)

/-- RESET (R221). -/
def execReset (s : State) : Host.Outcome State Fault Refusal := .next (resetRun s)

/-- An illegal command word (R222). -/
def execIllegal (s : State) : Host.Outcome State Fault Refusal := .next (illegalRun s)

end Sys2Proof.Machine
end

