-- ==== Sys2Proof/Machine/Dispatch.lean ====
section
/-! DEFINITION. The dispatch of a command to its meaning: one arm per constructor of `Instr`. -/

namespace Sys2Proof.Machine

def exec (i : Instr) (s : State) : Host.Outcome State Fault Refusal :=
  match i with
  | .nop => Sys2Proof.Machine.execNop s
  | .reset => Sys2Proof.Machine.execReset s
  | .faRun => Sys2Proof.Machine.execFaRun s
  | .pqClear => Sys2Proof.Machine.execPqClear s
  | .pqInsert => Sys2Proof.Machine.execPqInsert s
  | .pqExtract => Sys2Proof.Machine.execPqExtract s
  | .tbRun => Sys2Proof.Machine.execTbRun s
  | .dbRun => Sys2Proof.Machine.execDbRun s
  | .dictLookup => Sys2Proof.Machine.execDictLookup s
  | .pkRun => Sys2Proof.Machine.execPkRun s
  | .upRun => Sys2Proof.Machine.execUpRun s
  | .encodeBlock => Sys2Proof.Machine.execEncodeBlock s
  | .decodeFrame => Sys2Proof.Machine.execDecodeFrame s

end Sys2Proof.Machine
end

