-- ==== Sys2Proof/Machine/HostPort.lean ====
section
/-! DEFINITION. The host port (20_memory): the register window, the buffer and table windows, and the host's turns on
an idle block. -/

namespace Sys2Proof.Machine

/-! ### The register window (10_state R23 to R33) -/

/-- The address is in the register window (20_memory R61). -/
def registerWindow (a : Addr) : Bool := a.toNat < 0x100

/-- PQ_SIZE (10_state R31). -/
def State.pqSizeWord (s : State) : Word := (BitVec.ofNat 9 s.pq.length).setWidth 32

/-- TREE_INFO: ROOT in bits 8:0, NODES in bits 25:16 (10_state R32). -/
def State.treeInfoWord (s : State) : Word := s.treeRoot.setWidth 32 ||| s.treeNodes.setWidth 32 <<< 16

/-- The word a register of the window reads as; CMD and the reserved offsets read 0 (10_state R23 to R33). -/
def State.readReg (s : State) (off : Nat) : Word :=
  match off with
  | 0x000 => Config.idValue
  | 0x004 => 0
  | 0x008 => s.statusWord
  | 0x00C => s.rawLen.setWidth 32
  | 0x010 => s.payLen.setWidth 32
  | 0x014 => s.frmLen.setWidth 32
  | 0x018 => s.frmUsed.setWidth 32
  | 0x01C => s.flistLen.setWidth 32
  | 0x020 => s.opa
  | 0x024 => s.opb
  | 0x028 => s.res0
  | 0x02C => s.res1
  | 0x030 => s.res2
  | 0x034 => s.pqSizeWord
  | 0x038 => s.pqSerial
  | 0x03C => s.treeInfoWord
  | _ => 0

/-- A CMD write on an idle block: the command starts, and how many host turns come before the engine's step is a free
value (10_state R25, R27; 70_reset_and_hazards R286; log 3). -/
def State.writeCmd (s : State) (w : Word) : State :=
  { s.startCommand w (Config.busyTurns s.drawn) with drawn := s.drawn + 1 }

/-- A word written to a register of the window of an idle block; read-only registers and reserved offsets ignore it
(10_state R23 to R33, 20_memory R71). -/
def State.writeReg (s : State) (off : Nat) (v : Word) : State :=
  match off with
  | 0x004 => s.writeCmd v
  | 0x00C => { s with rawLen := v.setWidth 17 }
  | 0x010 => { s with payLen := v.setWidth 17 }
  | 0x014 => { s with frmLen := v.setWidth 17 }
  | 0x01C => { s with flistLen := v.setWidth 9 }
  | 0x020 => { s with opa := v }
  | 0x024 => { s with opb := v }
  | _ => s

/-! ### The table windows (20_memory R67 to R70) -/

/-- FCNT word `i` (R67). -/
def State.fcntWord (s : State) (i : Nat) : Word := (s.fcnt[i]?.getD 0).setWidth 32

/-- Word `i` of the FLIST window: even words hold the symbol, odd words the count (R69). -/
def State.flistWord (s : State) (i : Nat) : Word :=
  let e := s.flist[i / 2]?.getD ⟨0, 0⟩
  if i % 2 = 0 then e.sym.setWidth 32 else e.count

/-- Word 0 of a DICT entry (R70). -/
def DictEntry.lowWord (e : DictEntry) : Word := e.pattern.setWidth 32

/-- Word 1 of a DICT entry: pattern[55:32], width in bits 29:24, present in bit 31 (R70). -/
def DictEntry.highWord (e : DictEntry) : Word :=
  (BitVec.ofBool e.present ++ (0 : BitVec 1) ++ e.width ++ (e.pattern >>> 32).setWidth 24 : BitVec 32)

/-- Word `i` of the DICT window (R70). -/
def State.dictWord (s : State) (i : Nat) : Word :=
  let e := s.dict[i / 2]?.getD ⟨0, 0, false⟩
  if i % 2 = 0 then e.lowWord else e.highWord

/-- The word form of a tree node (R68). -/
def Node.toWord : Node → Word
  | .leaf sym => 0x80000000 ||| sym.setWidth 32
  | .internal zero one => zero.setWidth 32 ||| one.setWidth 32 <<< 16

/-- TREE word `i` (R68). -/
def State.treeWord (s : State) (i : Nat) : Word := (s.tree[i]?.getD (.internal 0 0)).toWord

/-- Byte `off` of a window made of words. -/
def windowByte (words : Nat → Word) (off : Nat) : Byte := byteOf (words (off / 4)) (off % 4)

/-- The byte at a host-port address outside the register window; unmapped addresses read 0 (R61, R62). The FCNT window
starts at a multiple of its size 0x400, the others at multiples of 0x800, so the remainder is the offset. -/
def State.portByte (s : State) (a : Nat) : Byte :=
  if bufferAddress a then s.memByte a
  else if 0x060000 ≤ a ∧ a ≤ 0x0603FF then windowByte s.fcntWord (a % 0x400)
  else if 0x061000 ≤ a ∧ a ≤ 0x0617FF then windowByte s.flistWord (a % 0x800)
  else if 0x062000 ≤ a ∧ a ≤ 0x0627FF then windowByte s.dictWord (a % 0x800)
  else if 0x064000 ≤ a ∧ a ≤ 0x0647FB then windowByte s.treeWord (a % 0x800)
  else 0

/-- A word with byte `k` replaced. -/
def setByteOf (v : Word) (k : Nat) (b : Byte) : Word :=
  (v &&& ~~~((0xFF : Word) <<< (8 * k))) ||| b.setWidth 32 <<< (8 * k)

/-- A FLIST entry after a byte write at offset `k` of its 8 bytes: offset 0 sets the symbol, offsets 1 to 3 are ignored,
offsets 4 to 7 set a byte of the count (R69). -/
def FreqEntry.setByte (e : FreqEntry) (k : Nat) (b : Byte) : FreqEntry :=
  if k = 0 then { e with sym := b }
  else if k < 4 then e
  else { e with count := setByteOf e.count (k - 4) b }

/-- A byte write at an offset of the FLIST window (R69). -/
def State.writeFlistByte (s : State) (off : Nat) (v : Byte) : State :=
  let e := (s.flist[off / 8]?.getD ⟨0, 0⟩).setByte (off % 8) v
  { s with flist := s.flist.setIfInBounds (off / 8) e }

/-- A byte write at a host-port address outside the register window; read-only windows and unmapped addresses ignore it
(R61, R62, R69, R71). -/
def State.writePortByte (s : State) (a : Nat) (v : Byte) : State :=
  if bufferAddress a then { s with mem := Memory.write s.mem a v }
  else if 0x061000 ≤ a ∧ a ≤ 0x0617FF then s.writeFlistByte (a % 0x800) v
  else s

/-! ### Host accesses on an idle block -/

/-- Record a value the host read (70_reset_and_hazards R264). -/
def State.logRead (s : State) (v : HostValue) : State := { s with reads := s.reads ++ [v] }

/-- `MemRead(a, 4)` at an aligned address (20_memory R64, R65). -/
def State.readWord (s : State) (a : Addr) : Word :=
  if registerWindow a then s.readReg a.toNat
  else wordOf (s.portByte a.toNat) (s.portByte (a.toNat + 1)) (s.portByte (a.toNat + 2)) (s.portByte (a.toNat + 3))

/-- `MemWrite(a, 4, v)` at an aligned address (20_memory R64, R65). -/
def State.writeWord (s : State) (a : Addr) (v : Word) : State :=
  if registerWindow a then s.writeReg a.toNat v
  else
    (((s.writePortByte a.toNat (byteOf v 0)).writePortByte (a.toNat + 1) (byteOf v 1)).writePortByte
      (a.toNat + 2) (byteOf v 2)).writePortByte (a.toNat + 3) (byteOf v 3)

/-- The address is a multiple of 4 (20_memory R63, R64). -/
def aligned (a : Addr) : Bool := a.toNat % 4 == 0

/-- One host access on an idle block (20_memory R60 to R64, R71, R72). -/
def State.hostAccess (s : State) (x : HostAccess) : Host.Outcome State Fault Refusal :=
  match x with
  | .rd8 a =>
    if registerWindow a then .refused (.registerByteAccess a)
    else .next (s.logRead (.byte (s.portByte a.toNat)))
  | .rd32 a =>
    if aligned a then .next (s.logRead (.word (s.readWord a)))
    else .refused (.misalignedWord a)
  | .wr8 a v =>
    if registerWindow a then .refused (.registerByteAccess a)
    else .next (s.writePortByte a.toNat v)
  | .wr32 a v =>
    if aligned a then .next (s.writeWord a v)
    else .refused (.misalignedWord a)

/-- The address of STATUS (10_state R26). -/
def statusAddr : Addr := 0x000008

/-- A read of STATUS, recorded (10_state R26). -/
def State.pollStatus (s : State) : State := s.logRead (.word s.statusWord)

end Sys2Proof.Machine
end

