-- ==== Sys2Proof/Machine/ResetInput.lean ====
section
/-! DEFINITION. The reset input (70_reset_and_hazards R260), which may abandon a running command. -/

namespace Sys2Proof.Machine

/-- How many bytes of RAW, from byte 0 up, a command writes when it runs on this state. -/
def rawBytesWritten (i : Instr) (s : State) : Nat :=
  match i with
  | .nop => 0
  | .reset => 0
  | .faRun => 0
  | .pqClear => 0
  | .pqInsert => 0
  | .pqExtract => 0
  | .tbRun => 0
  | .dbRun => 0
  | .dictLookup => 0
  | .pkRun => 0
  | .upRun =>
    match (upRun s).code with
    | .ok => s.blockLength
    | .fmtExhausted => ((upRun s).emitted s.blockLength s.payloadLength).length
    | _ => 0
  | .encodeBlock => 0
  | .decodeFrame =>
    match (decodeRun s).code with
    | .decRaw => (decodeRun s).rawLen.toNat
    | .decCoded => (decodeRun s).rawLen.toNat
    | .fmtExhausted =>
      ((decodeRun s).emitted (s.bufLe32 .frm (2 + 5 * (s.bufLe16 .frm 0).toNat)).toNat (decodeRun s).payLen.toNat).length
    | _ => 0

/-- How many bytes of PAY, from byte 0 up, a command writes when it runs on this state. -/
def payBytesWritten (i : Instr) (s : State) : Nat :=
  match i with
  | .nop => 0
  | .reset => 0
  | .faRun => 0
  | .pqClear => 0
  | .pqInsert => 0
  | .pqExtract => 0
  | .tbRun => 0
  | .dbRun => 0
  | .dictLookup => 0
  | .pkRun => if (pkRun s).err then 0 else (pkRun s).payLen.toNat
  | .upRun => 0
  | .encodeBlock =>
    match (encodeRun s).code with
    | .encCoded => (encodeRun s).payLen.toNat
    | .encRawPack => (encodeRun s).payLen.toNat
    | _ => 0
  | .decodeFrame =>
    match (decodeRun s).code with
    | .decCoded => (decodeRun s).payLen.toNat
    | .fmtExhausted => (decodeRun s).payLen.toNat
    | _ => 0

/-- How many bytes of FRM, from byte 0 up, a command writes when it runs on this state. -/
def frmBytesWritten (i : Instr) (s : State) : Nat :=
  match i with
  | .nop => 0
  | .reset => 0
  | .faRun => 0
  | .pqClear => 0
  | .pqInsert => 0
  | .pqExtract => 0
  | .tbRun => 0
  | .dbRun => 0
  | .dictLookup => 0
  | .pkRun => 0
  | .upRun => 0
  | .encodeBlock => if (encodeRun s).err then 0 else (encodeRun s).frmLen.toNat
  | .decodeFrame => 0

/-- The first `n` bytes of a buffer take free values (93_implementation_defined row 8, log 2). -/
def State.loseBytes (s : State) (b : Buffer) (n : Nat) : State :=
  s.fillBuf b ((List.range n).map fun k => Config.lostByte s.drawn (b.base + k))

/-- What abandoning the running command does to the buffers: the bytes it writes take free values, all others keep
theirs (R260, log 2). Nothing is lost on an idle block or under an illegal word, which writes no buffer. -/
def State.abandon (s : State) : State :=
  match s.eng with
  | .idle => s
  | .busy w _ =>
    match decode w with
    | .error _ => s
    | .ok i =>
      ((s.loseBytes .raw (rawBytesWritten i s)).loseBytes .pay (payBytesWritten i s)).loseBytes .frm
        (frmBytesWritten i s)

/-- The reset input is asserted (R260): every item of 10_state R45 takes its reset value and the buffers are kept but for
what an abandoned command writes; the host's own future and past stay (log 17). -/
def State.assertReset (s : State) : State :=
  { State.reset with mem := s.abandon.mem, host := s.host, reads := s.reads, drawn := s.drawn + 1 }

end Sys2Proof.Machine
end

