-- ==== Sys2Proof/Machine/Engine.lean ====
section
/-! DEFINITION. Who moves, and what a move does: the engine's step, and the host's turns on an idle and on a busy block
(10_state R20, R21; 70_reset_and_hazards R260, R270). -/

namespace Sys2Proof.Machine

/-- The engine's own step: the whole command of the word (10_state R21), an illegal word by 47_control R222. -/
def engineStep (w : Word) (s : State) : Host.Outcome State Fault Refusal :=
  match decode w with
  | .ok i => exec i s
  | .error _ => execIllegal s

/-- A host turn on an idle block, still first on the list; `wait` reads STATUS once, BUSY being 0. -/
def idleTurn (turn : HostTurn) (rest : List HostTurn) (s : State) : Host.Outcome State Fault Refusal :=
  match turn with
  | .access x => State.hostAccess { s with host := rest } x
  | .wait => .next (State.pollStatus { s with host := rest })
  | .resetInput => .next { s.assertReset with host := rest }

/-- A host turn on a busy block, still first on the list, `turns` further ones coming before the engine's step: a STATUS
read is the only access with a meaning, `wait` reads STATUS and goes on waiting (R270, 30_encoding R86). -/
def busyTurn (w : Word) (turns : Nat) (turn : HostTurn) (rest : List HostTurn) (s : State) :
    Host.Outcome State Fault Refusal :=
  match turn with
  | .access x =>
    if x = .rd32 statusAddr then .next (State.pollStatus { s with eng := .busy w turns, host := rest })
    else .refused (.accessWhileBusy x)
  | .wait => .next (State.pollStatus { s with eng := .busy w turns })
  | .resetInput => .next { s.assertReset with host := rest }

/-- A step of an idle block: the host's next turn, or waiting for one (60_exceptions R256, log 18). -/
def idleStep (s : State) : Host.Outcome State Fault Refusal :=
  match s.host with
  | [] => .next s
  | turn :: rest => idleTurn turn rest s

/-- A step of a busy block: the host's next turn while turns before the engine's step are left and the host has one,
else the engine's step (log 18). -/
def busyStep (w : Word) (turns : Nat) (s : State) : Host.Outcome State Fault Refusal :=
  match s.host, turns with
  | [], _ => engineStep w s
  | _ :: _, 0 => engineStep w s
  | turn :: rest, left + 1 => busyTurn w left turn rest s

end Sys2Proof.Machine
end

