-- ==== Sys2Proof/Machine/Step.lean ====
section
/-! DEFINITION. One step of HUF-CORE with its host, and how a command word comes to be the next to run. -/

namespace Sys2Proof.Machine

/-- One step: ENG says whose (10_state R21). -/
def step (s : State) : Host.Outcome State Fault Refusal :=
  match s.eng with
  | .idle => idleStep s
  | .busy w turns => busyStep w turns s

/-- The state right after a CMD write of the table word, no host turn coming before the engine's step, so that the very
next step runs the command (10_state R25, R27; log 4). -/
def State.withFetchWord (s : State) (nbits w : Nat) : State := s.startCommand (tableWord nbits w) 0

end Sys2Proof.Machine
end

