-- ==== Sys2Proof/Safety.lean ====
section
/-! DEFINITION. What counts as a good state and a good outcome, and the notions claims are stated in: the invariants of
10_state R44 and R26, paths through a tree (30_encoding R100), code bits and packed streams (30_encoding R105). -/

namespace Sys2Proof.Machine

/-! ### Command words -/

/-- The OPCODE column of 30_encoding R81. -/
def specOpcode : Instr → Byte
  | .nop => 0x00
  | .reset => 0x01
  | .faRun => 0x10
  | .pqClear => 0x20
  | .pqInsert => 0x21
  | .pqExtract => 0x22
  | .tbRun => 0x30
  | .dbRun => 0x40
  | .dictLookup => 0x41
  | .pkRun => 0x50
  | .upRun => 0x60
  | .encodeBlock => 0x70
  | .decodeFrame => 0x71

/-! ### Outcomes -/

/-- The step went on: it stopped neither with a fault nor with a refusal. -/
def goesOn : Host.Outcome State Fault Refusal → Bool
  | .next _ => true
  | .fault _ => false
  | .refused _ => false

/-! ### Invariants -/

/-- 10_state R44 (c) and 40_priority_queue R112: at most 256 entries, serials strictly rising and below PQ_SERIAL. -/
def State.QueueWf (s : State) : Prop :=
  s.pq.length ≤ Config.pqCap ∧ s.pq.Pairwise (fun e f => e.serial.toNat < f.serial.toNat)
    ∧ ∀ e ∈ s.pq, e.serial.toNat < s.pqSerial.toNat

/-- 10_state R44 (a) and (b) for one entry. -/
def DictEntry.Wf (e : DictEntry) : Prop :=
  (e.present = false → e.pattern = 0 ∧ e.width = 0) ∧ e.pattern.toNat < 2 ^ e.width.toNat
    ∧ e.width.toNat ≤ Config.maxWidth

/-- 10_state R44 (a) and (b). -/
def State.DictWf (s : State) : Prop := ∀ sym : Byte, (dictAt s.dict sym).Wf

/-- The indices of a node's children, zero-child first (10_state R40). -/
def Node.children : Node → List Nat
  | .leaf _ => []
  | .internal z o => [z.toNat, o.toNat]

/-- The children of node `i` of a tree store. -/
def childrenAt (t : Vector Node 511) (i : Nat) : List Nat := (nodeAt t (BitVec.ofNat 9 i)).children

/-- 10_state R44 (d): nodes 0 to `nodes − 1` form one binary tree rooted at `root`: each of them is the root or the child
of exactly one of them, never both, and every child has a smaller index than its parent. -/
def TreeWf (t : Vector Node 511) (root : BitVec 9) (nodes : Nat) : Prop :=
  (root.toNat :: (List.range nodes).flatMap (childrenAt t)).Perm (List.range nodes)
    ∧ ∀ i < nodes, ∀ c ∈ childrenAt t i, c < i

/-- 10_state R44 (d), while TREE_VALID is 1. -/
def State.TreeOk (s : State) : Prop :=
  s.treeValid = true → TreeWf s.tree s.treeRoot s.treeNodes.toNat

/-- 10_state R26: while DICT_VALID is 1, TREE_VALID is 1 and DICT is the dictionary of the tree in TREE. -/
def State.DictCurrent (s : State) : Prop :=
  s.dictValid = true → s.treeValid = true ∧ dictOfTree s.tree s.treeRoot = some s.dict

/-- 10_state R26 and R27: ERR tells whether CODE is an error, an error is recorded in ANY_ERR, and while BUSY both
DONE and CODE are 0. -/
def State.StatusCoherent (s : State) : Prop :=
  s.err = s.code.isError ∧ (s.err = true → s.anyErr = true)
    ∧ (s.isBusy = true → s.done = false ∧ s.code = .ok)

/-- Every invariant. -/
def State.Inv (s : State) : Prop :=
  Memory.wf s.mem ∧ s.QueueWf ∧ s.DictWf ∧ s.TreeOk ∧ s.DictCurrent ∧ s.StatusCoherent

/-! ### Trees, codes and streams -/

/-- The node reached from `n` by a path, 0 to the zero-child and 1 to the one-child; nothing when the path runs past a
leaf (30_encoding R100). -/
def descend (t : Vector Node 511) : BitVec 9 → List Bool → Option (BitVec 9)
  | n, [] => some n
  | n, bit :: bits =>
    match nodeAt t n with
    | .leaf _ => none
    | .internal z o => descend t (if bit then o else z) bits

/-- The path leads from the root to a leaf of the symbol. -/
def isCodeOf (t : Vector Node 511) (root : BitVec 9) (bits : List Bool) (sym : Byte) : Prop :=
  ∃ n, descend t root bits = some n ∧ nodeAt t n = .leaf sym

/-- The code bits of a dictionary entry, the root edge first (30_encoding R100). -/
def DictEntry.codeBits (e : DictEntry) : List Bool := (List.range e.width.toNat).map e.pattern.getLsbD

/-- The packed bit stream of a block under a dictionary (30_encoding R105). -/
def streamBits (d : Vector DictEntry 256) (block : List Byte) : List Bool :=
  block.flatMap fun b => (dictAt d b).codeBits

/-- The block in RAW[0..RAW_LEN−1] (00_scope R12). -/
def State.block (s : State) : List Byte := s.bufBytes .raw 0 s.blockLength

/-- The end of path `p` is visited before that of path `q` by the depth-first traversal, which takes the zero-child first:
where they part, `p` goes to the zero-child (43_dictionary R151, R157). -/
def VisitedBefore (p q : List Bool) : Prop :=
  ∃ common x y, p = common ++ false :: x ∧ q = common ++ true :: y

/-- Reading `len` symbols from payload bits yields exactly `syms` (45_bit_unpacker R182, R185): their codes follow each
other at the front of the bits, and either there are `len` of them, or fewer and the bits left end at an internal node. -/
def Yields (t : Vector Node 511) (root : BitVec 9) (len : Nat) (bits : List Bool) (syms : List Byte) : Prop :=
  ∃ (codes : List (List Bool)) (rest : List Bool),
    List.Forall₂ (isCodeOf t root) codes syms ∧ bits = codes.flatten ++ rest
      ∧ (syms.length = len
        ∨ (syms.length < len ∧ ∃ n zero one, descend t root rest = some n ∧ nodeAt t n = .internal zero one))

/-! ### Merges -/

/-- `a > b` in the order of 40_priority_queue R110: the greater signed weight, then the smaller serial. -/
def PqEntry.Greater (a b : PqEntry) : Prop :=
  b.weight.toInt < a.weight.toInt ∨ (a.weight = b.weight ∧ a.serial.toNat < b.serial.toNat)

/-- One MERGE of 42_tree_builder R136: from queue `q`, the greatest entry and the greatest of the rest give way to their
parent, node `next`, in queue `r`; `placed` is what TREE[next] holds, the first taken being the zero-child. -/
def MergeStep (q r : List PqEntry) (next : Nat) (placed : Option Node) : Prop :=
  ∃ (x y : PqEntry) (rest : List PqEntry), q.Perm (x :: y :: rest)
    ∧ (∀ e ∈ y :: rest, x.Greater e) ∧ (∀ e ∈ rest, y.Greater e)
    ∧ r.Perm (⟨x.weight + y.weight, BitVec.ofNat 32 next, BitVec.ofNat 16 next⟩ :: rest)
    ∧ placed = some (.internal (x.payload.setWidth 9) (y.payload.setWidth 9))

/-- The queue after LOAD (42_tree_builder R136, R137): entry i of the list has its negated count, serial i and payload i. -/
def loadedQueue (es : List FreqEntry) : List PqEntry :=
  es.zipIdx.map fun p => ⟨-p.1.count, BitVec.ofNat 32 p.2, BitVec.ofNat 16 p.2⟩

/-! ### Frames -/

/-- Every byte reads as before, but perhaps the first `n` bytes of a buffer. -/
def UnchangedOutside (s t : State) (b : Buffer) (n : Nat) : Prop :=
  ∀ a, ¬ (b.base ≤ a ∧ a < b.base + n) → t.memByte a = s.memByte a

/-- The address belongs to a window of 20_memory R61. -/
def mapped (a : Nat) : Prop :=
  a ≤ 0x0000FF ∨ (0x010000 ≤ a ∧ a ≤ 0x01FFFF) ∨ (0x020000 ≤ a ∧ a ≤ 0x02FFFF) ∨ (0x040000 ≤ a ∧ a ≤ 0x050509)
    ∨ (0x060000 ≤ a ∧ a ≤ 0x0603FF) ∨ (0x061000 ≤ a ∧ a ≤ 0x0617FF) ∨ (0x062000 ≤ a ∧ a ≤ 0x0627FF)
    ∨ (0x064000 ≤ a ∧ a ≤ 0x0647FB)

end Sys2Proof.Machine
end

