-- ==== Sys2Proof/Certificates/Slice0/Obligations.lean ====
section
/-! DEFINITION. The statements about HUF-CORE, each from the rules of spec/ its docstring names. -/

open Sys2Proof Sys2Proof.Machine

/-! ### Command words (30_encoding) -/

/-- R81, R80: each of the thirteen words written out from the opcode map decodes to its command, and two illegal
words do not decode (47_control R222 names them). -/
def Obligations.CommandWordsDecode : Prop :=
  decode 0x00000000 = .ok .nop ∧ decode 0x00000001 = .ok .reset ∧ decode 0x00000010 = .ok .faRun
    ∧ decode 0x00000020 = .ok .pqClear ∧ decode 0x00000021 = .ok .pqInsert ∧ decode 0x00000022 = .ok .pqExtract
    ∧ decode 0x00000030 = .ok .tbRun ∧ decode 0x00000040 = .ok .dbRun ∧ decode 0x00000041 = .ok .dictLookup
    ∧ decode 0x00000050 = .ok .pkRun ∧ decode 0x00000060 = .ok .upRun ∧ decode 0x00000070 = .ok .encodeBlock
    ∧ decode 0x00000071 = .ok .decodeFrame
    ∧ decode 0x00000110 = .error (.reservedBitsSet 1) ∧ decode 0x000000FF = .error (.unknownOpcode 0xFF)

/-- R81, over all 2^32 words: a word selects a command exactly when its reserved bits are 0 and its low byte is the
command's OPCODE; and every command's own word selects it. -/
def Obligations.DecodeSelectsTheTable : Prop :=
  (∀ (w : Word) (i : Instr), decode w = .ok i ↔ w.extractLsb' 8 24 = 0 ∧ w.setWidth 8 = specOpcode i)
    ∧ ∀ i : Instr, i.wf = true → decode (encode i) = .ok i

/-- R82, R222: right after its CMD write, an illegal word is executed by one step that changes STATUS alone and
completes with ERR_ILLEGAL_CMD, LAST_OP holding the word's low byte. -/
def Obligations.IllegalWordOnlyRaisesError : Prop :=
  ∀ (s : State) (w : Word),
    (w.extractLsb' 8 24 ≠ 0 ∨ w.setWidth 8 ∉ opcodes) →
      step { s with eng := .busy w 0, done := false, err := false, code := .ok, lastOp := w.setWidth 8 }
        = .next { s with
            eng := .idle, done := true, err := true, code := .errIllegalCmd, anyErr := true, lastOp := w.setWidth 8 }

/-! ### The step and the busy protocol (10_state, 70_reset_and_hazards) -/

/-- R21: when it is the engine's turn (no host turn is waiting, or none comes before the engine's step: log 18) and
the word in ENG decodes to a command, the step is that command's meaning, with nothing around it. -/
def Obligations.StepRunsTheDecodedCommand : Prop :=
  ∀ (s : State) (w : Word) (turns : Nat) (i : Instr),
    s.eng = .busy w turns → (s.host = [] ∨ turns = 0) → decode w = .ok i → step s = exec i s

/-- R21, R27: a CMD write on an idle block makes ENG BUSY with the word, clears DONE, ERR and CODE, sets LAST_OP to
the word's low byte, and leaves everything else as it was; `turns` and the draw count are the model's own (log 3),
and the statement holds whatever the free value drawn is. -/
def Obligations.CmdWriteStartsCommand : Prop :=
  ∀ (s : State) (w : Word) (rest : List HostTurn),
    s.eng = .idle → s.host = .access (.wr32 0x000004 w) :: rest →
      ∃ (turns n : Nat), step s = .next { s with
        eng := .busy w turns, done := false, err := false, code := .ok, lastOp := w.setWidth 8, host := rest
        drawn := n }

/-- R270: on a busy block whose next turn is the host's, a STATUS read answers the STATUS word with BUSY 1 and DONE
0; every other access is refused, under the name accessWhileBusy whatever its address, a misaligned one included
(the name is the model's choice, log 14). The read leaves every item of the block as it was; the model's own count
of host turns before the engine's step falls by one (log 3), and its record of the host's turns and reads moves on
(logs 4, 5). DONE is 0 in every busy state a run reaches (StatusFieldsKept). -/
def Obligations.BusyRefusesAllButStatusReads : Prop :=
  ∀ (s : State) (w : Word) (turns : Nat) (x : HostAccess) (rest : List HostTurn),
    s.eng = .busy w (turns + 1) → s.host = .access x :: rest → s.done = false →
      (x ≠ .rd32 0x000008 → step s = .refused (.accessWhileBusy x))
        ∧ (x = .rd32 0x000008 →
            step s = .next { s with
              eng := .busy w turns, host := rest, reads := s.reads ++ [.word s.statusWord] }
            ∧ s.statusWord.getLsbD 0 = true ∧ s.statusWord.getLsbD 1 = false)

/-- R27, R230, R231: whatever the state, every command completes in its one step: ENG is IDLE, DONE is 1, ERR is 1
exactly when CODE is an error code, ANY_ERR takes ERR in (RESET alone clears it, R221), LAST_OP stays; the host's
turns and what it has read are untouched. -/
def Obligations.EveryCommandCompletes : Prop :=
  ∀ (i : Instr) (s : State), ∃ t, exec i s = .next t
    ∧ t.eng = .idle ∧ t.done = true ∧ t.err = t.code.isError ∧ t.lastOp = s.lastOp
    ∧ t.anyErr = (if i = .reset then false else s.anyErr || t.err)
    ∧ t.host = s.host ∧ t.reads = s.reads ∧ t.drawn = s.drawn

/-- R26, R230: the bits of a STATUS read; and, for each of the 24 completion codes, the value it has in CODE and
whether it is an error. -/
def Obligations.StatusWordFields : Prop :=
  (∀ s : State,
    s.statusWord.getLsbD 0 = s.isBusy ∧ s.statusWord.getLsbD 1 = s.done ∧ s.statusWord.getLsbD 2 = s.err
      ∧ s.statusWord.getLsbD 3 = s.anyErr ∧ s.statusWord.getLsbD 4 = s.treeValid
      ∧ s.statusWord.getLsbD 5 = s.dictValid ∧ s.statusWord.extractLsb' 6 2 = 0
      ∧ s.statusWord.extractLsb' 8 8 = s.code.toByte ∧ s.statusWord.extractLsb' 16 8 = s.lastOp
      ∧ s.statusWord.extractLsb' 24 8 = 0)
  ∧ ∀ c : Code, (c, c.toByte, c.isError) ∈ ([
      (.ok, 0x00, false), (.errIllegalCmd, 0x01, true), (.errLength, 0x02, true), (.errEmpty, 0x03, true),
      (.errFlist, 0x04, true), (.errNoTree, 0x05, true), (.errNoDict, 0x06, true), (.errPqUnderflow, 0x07, true),
      (.errPqOverflow, 0x08, true), (.errPqSerial, 0x09, true), (.fmtTruncated, 0x10, true),
      (.fmtDiscriminator, 0x11, true), (.fmtLength, 0x12, true), (.fmtCount, 0x13, true), (.fmtExhausted, 0x14, true),
      (.dictOverflow, 0x20, false), (.packOverflow, 0x21, false), (.encCoded, 0x30, false), (.encRawEmpty, 0x31, false),
      (.encRawSingle, 0x32, false), (.encRawDict, 0x33, false), (.encRawPack, 0x34, false), (.decCoded, 0x40, false),
      (.decRaw, 0x41, false)] : List (Code × Byte × Bool))

/-- R26, R237: once ANY_ERR is 1, only the RESET command and the reset input clear it. -/
def Obligations.AnyErrIsSticky : Prop :=
  ∀ s t : State, step s = .next t → s.anyErr = true → t.anyErr = false →
    (∃ turns, s.eng = .busy (encode .reset) turns) ∨ ∃ rest, s.host = .resetInput :: rest

/-! ### Reset (10_state R45, 70_reset_and_hazards R260) -/

/-- R45: the values the spec gives for reset. The buffers, whose content R45 leaves open, are not spoken of. -/
def Obligations.ResetLeavesTheseValues : Prop :=
  State.reset.eng = .idle ∧ State.reset.readReg 0x000 = 0x48554631 ∧ State.reset.statusWord = 0
    ∧ State.reset.opa = 0 ∧ State.reset.opb = 0 ∧ State.reset.res0 = 0 ∧ State.reset.res1 = 0 ∧ State.reset.res2 = 0
    ∧ State.reset.rawLen = 0 ∧ State.reset.payLen = 0 ∧ State.reset.frmLen = 0 ∧ State.reset.frmUsed = 0
    ∧ State.reset.flistLen = 0 ∧ State.reset.pq = [] ∧ State.reset.pqSerial = 0
    ∧ State.reset.treeRoot = 0 ∧ State.reset.treeNodes = 0
    ∧ (∀ sym, counterAt State.reset.fcnt sym = 0)
    ∧ (∀ (i : Nat) (h : i < 256), State.reset.flist[i] = ⟨0, 0⟩)
    ∧ (∀ (i : Nat) (h : i < 511), State.reset.tree[i] = .internal 0 0)
    ∧ ∀ sym, dictAt State.reset.dict sym = ⟨0, 0, false⟩

/-- R260: the reset input, when its turn comes, gives every item of R45 its reset value and keeps every buffer byte
on an idle block. On a busy one it keeps every byte the abandoned command does not write: NOP to TB_RUN, DB_RUN,
DICT_LOOKUP and illegal words write none, nor does a command whose run ends in an error other than FMT_EXHAUSTED;
PK_RUN writes PAY, UP_RUN RAW, ENCODE PAY and FRM, DECODE RAW and PAY, and within each buffer only the first bytes
that the command's whole run writes, counted by rawBytesWritten, payBytesWritten and frmBytesWritten (that reading
of 'would have written' is log 2), outside which the run itself leaves every byte as it was. The host's turns and
record are the model's own (log 17). -/
def Obligations.ResetInputResets : Prop :=
  ∀ (s : State) (rest : List HostTurn), s.host = .resetInput :: rest →
    (s.eng = .idle ∨ ∃ w turns, s.eng = .busy w (turns + 1)) →
      ∃ t, step s = .next t
        ∧ t = { State.reset with mem := t.mem, host := rest, reads := s.reads, drawn := t.drawn }
        ∧ (s.eng = .idle → ∀ a, t.memByte a = s.memByte a)
        ∧ (∀ (w : Word) (turns : Nat), s.eng = .busy w turns → ∀ a,
            (Buffer.raw.holds a → decode w = .ok .upRun ∨ decode w = .ok .decodeFrame ∨ t.memByte a = s.memByte a)
            ∧ (Buffer.pay.holds a → decode w = .ok .pkRun ∨ decode w = .ok .encodeBlock
                ∨ decode w = .ok .decodeFrame ∨ t.memByte a = s.memByte a)
            ∧ (Buffer.frm.holds a → decode w = .ok .encodeBlock ∨ t.memByte a = s.memByte a))
        ∧ ∀ (w : Word) (turns : Nat) (i : Instr) (u : State),
            s.eng = .busy w turns → decode w = .ok i → exec i s = .next u →
              (u.err = true → u.code ≠ .fmtExhausted → ∀ a, t.memByte a = s.memByte a)
              ∧ ∀ a, ¬ (Buffer.raw.base ≤ a ∧ a < Buffer.raw.base + rawBytesWritten i s) →
                  ¬ (Buffer.pay.base ≤ a ∧ a < Buffer.pay.base + payBytesWritten i s) →
                  ¬ (Buffer.frm.base ≤ a ∧ a < Buffer.frm.base + frmBytesWritten i s) →
                  t.memByte a = s.memByte a ∧ u.memByte a = s.memByte a

/-! ### The host port (20_memory) -/

/-- R62: an access outside every window reads 0 and writes nothing; a word access is meant whose four bytes all lie
outside. -/
def Obligations.UnmappedReadsZeroIgnoresWrites : Prop :=
  ∀ (s : State) (a : Addr) (v : Byte) (w : Word) (rest : List HostTurn), s.eng = .idle → ¬ mapped a.toNat →
    (s.host = .access (.rd8 a) :: rest → step s = .next { s with host := rest, reads := s.reads ++ [.byte 0] })
      ∧ (s.host = .access (.wr8 a v) :: rest → step s = .next { s with host := rest })
      ∧ (a.toNat % 4 = 0 → (∀ k < 4, ¬ mapped (a.toNat + k)) →
          (s.host = .access (.rd32 a) :: rest → step s = .next { s with host := rest, reads := s.reads ++ [.word 0] })
          ∧ (s.host = .access (.wr32 a w) :: rest → step s = .next { s with host := rest }))

/-- R61, R63, R64, R72: outside the register window a byte read of an idle block records the byte that stands at the
address and changes nothing else: in the RAW window from 0x010000, the PAY window from 0x020000 and the FRM window
from 0x040000 that buffer's byte, in every other window the byte of the aligned word that holds it (TableWordForms
gives the words, UnmappedReadsZeroIgnoresWrites the 0 outside the windows). A byte written to a buffer address reads
back, every other byte of the port reads as before, and nothing but the memory changes. -/
def Obligations.BufferByteWriteReadsBack : Prop :=
  (∀ (s : State) (a : Addr) (rest : List HostTurn),
    s.eng = .idle → 0x100 ≤ a.toNat → s.host = .access (.rd8 a) :: rest →
      step s = .next { s with host := rest, reads := s.reads ++ [.byte (s.portByte a.toNat)] })
  ∧ (∀ s : State,
      (∀ i < 65536, s.portByte (0x010000 + i) = s.bufByte .raw i)
      ∧ (∀ i < 65536, s.portByte (0x020000 + i) = s.bufByte .pay i)
      ∧ (∀ i < 66826, s.portByte (0x040000 + i) = s.bufByte .frm i)
      ∧ ∀ a : Addr, a.toNat % 4 = 0 → 0x100 ≤ a.toNat → ∀ k < 4,
          s.portByte (a.toNat + k) = byteOf (s.readWord a) k)
  ∧ ∀ (s : State) (a : Addr) (v : Byte) (rest : List HostTurn),
    s.eng = .idle → bufferAddress a.toNat → s.host = .access (.wr8 a v) :: rest →
      ∃ t, step s = .next t ∧ t = { s with host := rest, mem := t.mem }
        ∧ t.portByte a.toNat = v ∧ ∀ b, b ≠ a.toNat → t.portByte b = s.portByte b

/-- R64, R65, R62, R69: an aligned word access outside the register window is its four byte accesses together, the
byte at the lowest address in bits 7:0. A word read records the four bytes and changes nothing else. A word write
sets the buffer bytes among its four to the word's bytes, in the FLIST window the symbol (at offset 0 of an entry,
from bits 7:0) or the count (at offset 4), and leaves every other byte of the port, and every other item, as it was.
-/
def Obligations.WordAccessIsFourBytes : Prop :=
  ∀ (s : State) (a : Addr) (rest : List HostTurn), s.eng = .idle → a.toNat % 4 = 0 → 0x100 ≤ a.toNat →
    (s.host = .access (.rd32 a) :: rest →
      ∃ v : Word, step s = .next { s with host := rest, reads := s.reads ++ [.word v] }
        ∧ ∀ k < 4, byteOf v k = s.portByte (a.toNat + k))
    ∧ ∀ w : Word, s.host = .access (.wr32 a w) :: rest →
        ∃ t, step s = .next t
          ∧ t = { s with host := rest, mem := t.mem, flist := t.flist }
          ∧ (∀ b, t.memByte b
              = if a.toNat ≤ b ∧ b < a.toNat + 4 ∧ bufferAddress b then byteOf w (b - a.toNat) else s.memByte b)
          ∧ (∀ (i : Nat) (h : i < 256),
              (t.flist[i]).sym = (if a.toNat = 0x061000 + 8 * i then w.setWidth 8 else (s.flist[i]).sym)
              ∧ (t.flist[i]).count = if a.toNat = 0x061000 + 8 * i + 4 then w else (s.flist[i]).count)
          ∧ (∀ k < 4, bufferAddress (a.toNat + k) → t.portByte (a.toNat + k) = byteOf w k)
          ∧ ∀ b, b < a.toNat ∨ a.toNat + 4 ≤ b → t.portByte b = s.portByte b

/-- R63, R64: a byte access to the register window and a word access at an address that is no multiple of 4 are
refused. -/
def Obligations.MisfitAccessesAreRefused : Prop :=
  ∀ (s : State) (a : Addr) (v : Byte) (w : Word) (rest : List HostTurn), s.eng = .idle →
    (a.toNat ≤ 0xFF →
      (s.host = .access (.rd8 a) :: rest → step s = .refused (.registerByteAccess a))
      ∧ (s.host = .access (.wr8 a v) :: rest → step s = .refused (.registerByteAccess a)))
    ∧ (a.toNat % 4 ≠ 0 →
      (s.host = .access (.rd32 a) :: rest → step s = .refused (.misalignedWord a))
      ∧ (s.host = .access (.wr32 a w) :: rest → step s = .refused (.misalignedWord a)))

/-- R71: writes to the read-only registers and byte and word writes to the read-only windows change nothing. -/
def Obligations.ReadOnlyIgnoresWrites : Prop :=
  ∀ (s : State) (rest : List HostTurn), s.eng = .idle →
    (∀ (a : Addr) (w : Word),
      a ∈ [0x000000, 0x000008, 0x000018, 0x000028, 0x00002C, 0x000030, 0x000034, 0x000038, 0x00003C] →
        s.host = .access (.wr32 a w) :: rest → step s = .next { s with host := rest })
    ∧ ∀ (a : Addr) (v : Byte) (w : Word),
      (0x060000 ≤ a.toNat ∧ a.toNat ≤ 0x0603FF) ∨ (0x062000 ≤ a.toNat ∧ a.toNat ≤ 0x0627FF)
        ∨ (0x064000 ≤ a.toNat ∧ a.toNat ≤ 0x0647FB) →
        (s.host = .access (.wr8 a v) :: rest → step s = .next { s with host := rest })
        ∧ (a.toNat % 4 = 0 → s.host = .access (.wr32 a w) :: rest → step s = .next { s with host := rest })

/-- R23 to R33, R29: on an idle block a word written to OPA or OPB reads back whole; of a word written to RAW_LEN,
PAY_LEN or FRM_LEN the low 17 bits read back, of one written to FLIST_LEN the low 9; nothing else changes. A word
read of the register window records the register's value and changes nothing else: ID its constant, CMD 0, STATUS
its word, each length and operand register and RES0 to RES2 its value, PQ_SIZE the number of queued entries in 9
bits, PQ_SERIAL the next serial, TREE_INFO the node count over the root; the reserved offsets 0x040 to 0x0FF read 0
and ignore writes. -/
def Obligations.HostRegistersReadBack : Prop :=
  ∀ (s : State) (w : Word) (rest : List HostTurn), s.eng = .idle →
    (s.host = .access (.wr32 0x000020 w) :: rest →
      ∃ t, step s = .next t ∧ t = { s with host := rest, opa := t.opa } ∧ t.readReg 0x020 = w)
    ∧ (s.host = .access (.wr32 0x000024 w) :: rest →
      ∃ t, step s = .next t ∧ t = { s with host := rest, opb := t.opb } ∧ t.readReg 0x024 = w)
    ∧ (s.host = .access (.wr32 0x00000C w) :: rest →
      ∃ t, step s = .next t ∧ t = { s with host := rest, rawLen := t.rawLen } ∧ t.readReg 0x00C = w &&& 0x1FFFF)
    ∧ (s.host = .access (.wr32 0x000010 w) :: rest →
      ∃ t, step s = .next t ∧ t = { s with host := rest, payLen := t.payLen } ∧ t.readReg 0x010 = w &&& 0x1FFFF)
    ∧ (s.host = .access (.wr32 0x000014 w) :: rest →
      ∃ t, step s = .next t ∧ t = { s with host := rest, frmLen := t.frmLen } ∧ t.readReg 0x014 = w &&& 0x1FFFF)
    ∧ (s.host = .access (.wr32 0x00001C w) :: rest →
      ∃ t, step s = .next t ∧ t = { s with host := rest, flistLen := t.flistLen } ∧ t.readReg 0x01C = w &&& 0x1FF)
    ∧ (∀ (a : Addr) (v : Word),
        (a, v) ∈ [((0x000000 : Addr), (0x48554631 : Word)), (0x000004, 0), (0x000008, s.statusWord),
          (0x00000C, s.rawLen.setWidth 32), (0x000010, s.payLen.setWidth 32), (0x000014, s.frmLen.setWidth 32),
          (0x000018, s.frmUsed.setWidth 32), (0x00001C, s.flistLen.setWidth 32), (0x000020, s.opa), (0x000024, s.opb),
          (0x000028, s.res0), (0x00002C, s.res1), (0x000030, s.res2),
          (0x000034, (BitVec.ofNat 9 s.pq.length).setWidth 32), (0x000038, s.pqSerial),
          (0x00003C, (0 : BitVec 6) ++ s.treeNodes ++ (0 : BitVec 7) ++ s.treeRoot)] →
        s.host = .access (.rd32 a) :: rest →
          step s = .next { s with host := rest, reads := s.reads ++ [.word v] })
    ∧ ∀ a : Addr, 0x040 ≤ a.toNat → a.toNat ≤ 0x0FF → a.toNat % 4 = 0 →
        (s.host = .access (.rd32 a) :: rest →
          step s = .next { s with host := rest, reads := s.reads ++ [.word 0] })
        ∧ (s.host = .access (.wr32 a w) :: rest → step s = .next { s with host := rest })

/-- R67, R68, R70 and the read side of R69: what an aligned word of a table window reads as. -/
def Obligations.TableWordForms : Prop :=
  ∀ s : State,
    (∀ (i : Nat) (h : i < 256),
      s.readWord (BitVec.ofNat 24 (0x060000 + 4 * i)) = (s.fcnt[i]).setWidth 32
      ∧ s.readWord (BitVec.ofNat 24 (0x061000 + 8 * i)) = (s.flist[i]).sym.setWidth 32
      ∧ s.readWord (BitVec.ofNat 24 (0x061000 + 8 * i + 4)) = (s.flist[i]).count
      ∧ s.readWord (BitVec.ofNat 24 (0x062000 + 8 * i)) = (s.dict[i]).pattern.extractLsb' 0 32
      ∧ (s.readWord (BitVec.ofNat 24 (0x062000 + 8 * i + 4))).extractLsb' 0 24 = (s.dict[i]).pattern.extractLsb' 32 24
      ∧ (s.readWord (BitVec.ofNat 24 (0x062000 + 8 * i + 4))).extractLsb' 24 6 = (s.dict[i]).width
      ∧ (s.readWord (BitVec.ofNat 24 (0x062000 + 8 * i + 4))).getLsbD 30 = false
      ∧ (s.readWord (BitVec.ofNat 24 (0x062000 + 8 * i + 4))).getLsbD 31 = (s.dict[i]).present)
    ∧ ∀ (i : Nat) (h : i < 511),
      (∀ sym, s.tree[i] = .leaf sym →
        s.readWord (BitVec.ofNat 24 (0x064000 + 4 * i)) = 0x80000000 ||| sym.setWidth 32)
      ∧ ∀ zero one, s.tree[i] = .internal zero one →
        s.readWord (BitVec.ofNat 24 (0x064000 + 4 * i)) = zero.setWidth 32 ||| one.setWidth 32 <<< 16

/-- R69: a byte written at offset 0 of a FLIST entry sets its symbol, at offsets 1 to 3 nothing, at offsets 4 to 7
the byte of its count; every other entry, and every other item, is unchanged. -/
def Obligations.FlistByteWrites : Prop :=
  ∀ (s : State) (i k : Nat) (hi : i < 256) (_ : k < 8) (v : Byte) (rest : List HostTurn), s.eng = .idle →
    s.host = .access (.wr8 (BitVec.ofNat 24 (0x061000 + 8 * i + k)) v) :: rest →
      ∃ t, step s = .next t ∧ t = { s with host := rest, flist := t.flist }
        ∧ (∀ (j : Nat) (hj : j < 256), j ≠ i → t.flist[j] = s.flist[j])
        ∧ (t.flist[i]).sym = (if k = 0 then v else (s.flist[i]).sym)
        ∧ ∀ b < 4, byteOf (t.flist[i]).count b = if k = b + 4 then v else byteOf (s.flist[i]).count b

/-! ### Control commands (47_control) -/

/-- R220: NOP changes nothing but the STATUS lifecycle; run by its own CMD write, the word 0x00000000, it ends with
LAST_OP 0x00 and leaves ANY_ERR as it was. -/
def Obligations.NopChangesStatusOnly : Prop :=
  ∀ s : State,
    exec .nop s = .next { s with eng := .idle, done := true, err := false, code := .ok }
    ∧ step { s with eng := .busy 0x00000000 0, done := false, err := false, code := .ok, lastOp := 0x00 }
      = .next { s with eng := .idle, done := true, err := false, code := .ok, lastOp := 0x00 }

/-- R221: RESET gives every item its reset value but the buffers and the STATUS lifecycle; run by its own CMD write,
STATUS then reads 0x00010002. -/
def Obligations.ResetCommandClears : Prop :=
  ∀ s : State,
    exec .reset s = .next { State.reset with
      mem := s.mem, done := true, lastOp := s.lastOp, host := s.host, reads := s.reads, drawn := s.drawn }
    ∧ ∀ t, step { s with eng := .busy 0x00000001 0, done := false, err := false, code := .ok, lastOp := 0x01 } = .next t →
        t.statusWord = 0x00010002

/-! ### The priority queue (40_priority_queue) -/

/-- R115: PQ_CLEAR (OPCODE 0x20) empties the queue and resets the serial counter, and changes nothing else but
STATUS. -/
def Obligations.PqClearEmptiesQueue : Prop :=
  decode 0x00000020 = .ok .pqClear
    ∧ ∀ s : State, exec .pqClear s = .next { s with
        pq := [], pqSerial := 0, eng := .idle, done := true, err := false, code := .ok }

/-- R116: PQ_INSERT (OPCODE 0x21) with room adds the entry (OPA, PQ_SERIAL, OPB[15:0]) and steps the serial counter;
with 256 entries it completes with ERR_PQ_OVERFLOW, else with the last serial reached with ERR_PQ_SERIAL, the queue
and the counter unchanged. Nothing else changes but STATUS. -/
def Obligations.PqInsertFollowsItsRule : Prop :=
  decode 0x00000021 = .ok .pqInsert ∧ ∀ s : State,
    (s.pq.length < 256 → s.pqSerial ≠ 0xFFFFFFFF →
      exec .pqInsert s = .next { s with
        pq := s.pq ++ [⟨s.opa, s.pqSerial, s.opb.setWidth 16⟩], pqSerial := s.pqSerial + 1
        eng := .idle, done := true, err := false, code := .ok })
    ∧ (s.pq.length = 256 → exec .pqInsert s = .next { s with
        eng := .idle, done := true, err := true, anyErr := true, code := .errPqOverflow })
    ∧ (s.pq.length < 256 → s.pqSerial = 0xFFFFFFFF → exec .pqInsert s = .next { s with
        eng := .idle, done := true, err := true, anyErr := true, code := .errPqSerial })

/-- R117, R110: PQ_EXTRACT (OPCODE 0x22) on a non-empty well-formed queue takes the entry greater than every other
(signed weight, then smaller serial) and answers it in RES0 to RES2; on an empty queue it completes with
ERR_PQ_UNDERFLOW. Nothing else changes but STATUS. -/
def Obligations.PqExtractTakesGreatest : Prop :=
  decode 0x00000022 = .ok .pqExtract ∧ ∀ s : State,
    (s.QueueWf → s.pq ≠ [] →
      ∃ e ∈ s.pq,
        (∀ f ∈ s.pq, f ≠ e →
          f.weight.toInt < e.weight.toInt ∨ (e.weight = f.weight ∧ e.serial.toNat < f.serial.toNat))
        ∧ exec .pqExtract s = .next { s with
            pq := s.pq.filter (fun f => f ≠ e)
            res0 := e.weight, res1 := e.payload.setWidth 32, res2 := e.serial
            eng := .idle, done := true, err := false, code := .ok })
    ∧ (s.pq = [] → exec .pqExtract s = .next { s with
        eng := .idle, done := true, err := true, anyErr := true, code := .errPqUnderflow })

/-! ### The frequency analyzer (41_frequency_analyzer) -/

/-- R126, R169, R196: FA_RUN, PK_RUN and ENCODE with RAW_LEN above 65536 complete with ERR_LENGTH, before any other
check, and change STATUS alone. -/
def Obligations.BlockLengthErrors : Prop :=
  ∀ (s : State) (i : Instr), i = .faRun ∨ i = .pkRun ∨ i = .encodeBlock → 65536 < s.rawLen.toNat →
    exec i s = .next { s with eng := .idle, done := true, err := true, anyErr := true, code := .errLength }

/-- R125, R126: FA_RUN counts each symbol of the block, lists every symbol with its counter in strictly falling
order of (count, then rising symbol), and puts the number of symbols that occur in FLIST_LEN; nothing else changes
but STATUS. -/
def Obligations.FaRunCountsAndSorts : Prop :=
  ∀ s : State, s.rawLen.toNat ≤ 65536 →
    ∃ t, exec .faRun s = .next t
      ∧ t = { s with
          fcnt := t.fcnt, flist := t.flist, flistLen := t.flistLen, eng := .idle, done := true, err := false, code := .ok }
      ∧ (∀ sym, (counterAt t.fcnt sym).toNat = s.block.count sym)
      ∧ (∀ sym, ⟨sym, (counterAt t.fcnt sym).setWidth 32⟩ ∈ t.flist.toList)
      ∧ t.flist.toList.Pairwise (fun e f =>
          f.count.toNat < e.count.toNat ∨ (f.count.toNat = e.count.toNat ∧ e.sym.toNat < f.sym.toNat))
      ∧ t.flistLen.toNat = ((List.range 256).filter fun i => s.block.count (BitVec.ofNat 8 i) ≠ 0).length

/-- R128 (a), (b), (d): after FA_RUN the counts of the first FLIST_LEN entries add up to the block length, exactly
those entries have a count, and FLIST_LEN is 0 exactly for an empty block and at most 256. -/
def Obligations.FaRunListLaws : Prop :=
  ∀ s t : State, s.rawLen.toNat ≤ 65536 → exec .faRun s = .next t →
    t.countSum t.flistLen.toNat = s.rawLen.toNat
      ∧ (∀ (i : Nat) (h : i < 256), i < t.flistLen.toNat ↔ (t.flist[i]).count ≠ 0)
      ∧ (t.flistLen = 0 ↔ s.rawLen = 0) ∧ t.flistLen.toNat ≤ 256

/-! ### The tree builder (42_tree_builder) -/

/-- R139: TB_RUN's errors in their order; each changes STATUS alone. -/
def Obligations.TbRunErrors : Prop :=
  ∀ s : State,
    (s.flistLen.toNat = 0 → exec .tbRun s = .next { s with
      eng := .idle, done := true, err := true, anyErr := true, code := .errEmpty })
    ∧ (256 < s.flistLen.toNat ∨ (s.flistLen.toNat ≠ 0 ∧ 65536 < s.countSum s.flistLen.toNat) →
      exec .tbRun s = .next { s with
        eng := .idle, done := true, err := true, anyErr := true, code := .errFlist })

/-- R136, R137, R138, R139, R141, R146: TB_RUN on a list of N = 1 to 256 entries with counts of at most 65536 in sum
leaves a tree of 2N − 1 nodes rooted at 2N − 2, node i < N being the leaf of entry i and nodes N to 2N − 2 internal,
one binary tree whose children have smaller indices than their parents; nodes past it are kept, the queue is empty
and PQ_SERIAL is 2N − 1; nothing else changes but STATUS. The internal nodes are those of the merges: from the queue
of the loaded entries (negated count, serial i, payload i) the k-th MERGE takes the two greatest entries and places
their parent as node N + k, until one entry, the root, is left (CHILD_ORDER: log 7). -/
def Obligations.TbRunBuildsOneTree : Prop :=
  ∀ s : State, 1 ≤ s.flistLen.toNat → s.flistLen.toNat ≤ 256 → s.countSum s.flistLen.toNat ≤ 65536 →
    ∃ t, exec .tbRun s = .next t
      ∧ t = { s with
          tree := t.tree, treeRoot := t.treeRoot, treeNodes := t.treeNodes, treeValid := true, dictValid := false
          pq := [], pqSerial := t.pqSerial, eng := .idle, done := true, err := false, code := .ok }
      ∧ t.treeRoot.toNat = 2 * s.flistLen.toNat - 2 ∧ t.treeNodes.toNat = 2 * s.flistLen.toNat - 1
      ∧ t.pqSerial.toNat = 2 * s.flistLen.toNat - 1
      ∧ TreeWf t.tree t.treeRoot t.treeNodes.toNat
      ∧ (∀ (i : Nat) (h : i < 256), i < s.flistLen.toNat → t.tree[i] = .leaf (s.flist[i]).sym)
      ∧ (∀ (i : Nat) (h : i < 511), s.flistLen.toNat ≤ i → i < 2 * s.flistLen.toNat - 1 →
          ∃ zero one, t.tree[i] = .internal zero one)
      ∧ (∀ (i : Nat) (h : i < 511), 2 * s.flistLen.toNat - 1 ≤ i → t.tree[i] = s.tree[i])
      ∧ ∃ queue : Nat → List PqEntry, queue 0 = loadedQueue (s.entries s.flistLen.toNat)
          ∧ (∀ k, k + 1 < s.flistLen.toNat →
              MergeStep (queue k) (queue (k + 1)) (s.flistLen.toNat + k) t.tree[s.flistLen.toNat + k]?)
          ∧ ∃ root, queue (s.flistLen.toNat - 1) = [root] ∧ root.payload.toNat = t.treeRoot.toNat

/-- R136 for the shortest list with a merge: of two entries the one with the lower count becomes the zero-child, the
first of the list when the counts are equal (R110, R6 CHILD_ORDER). -/
def Obligations.LowerCountIsZeroChild : Prop :=
  ∀ s t : State, s.flistLen = 2 → s.countSum 2 ≤ 65536 → exec .tbRun s = .next t →
    t.tree[2] = if (s.flist[1]).count.toNat < (s.flist[0]).count.toNat then .internal 1 0 else .internal 0 1

/-- R136, R110: one MERGE takes the greatest entry of the queue, then the greatest of the rest, and places their
parent with the sum of their weights, the first taken being the zero-child. -/
def Obligations.MergeTakesTwoGreatest : Prop :=
  ∀ b : Builder, 1 < b.queue.length → b.next < 511 → b.queue.Pairwise (fun e f => e.serial ≠ f.serial) →
    ∃ x y : PqEntry, ∃ rest : List PqEntry, b.queue.Perm (x :: y :: rest)
      ∧ (∀ f ∈ y :: rest, x.above f = true) ∧ (∀ f ∈ rest, y.above f = true)
      ∧ b.merge.queue.Perm (⟨x.weight + y.weight, b.serial, BitVec.ofNat 16 b.next⟩ :: rest)
      ∧ b.merge.tree[b.next]? = some (.internal (x.payload.setWidth 9) (y.payload.setWidth 9))
      ∧ b.merge.next = b.next + 1 ∧ ∀ i, i ≠ b.next → b.merge.tree[i]? = b.tree[i]?

/-- R144: the tree, its root and its number of nodes are a function of FLIST[0..N−1] alone: two states that agree on
them get the same tree, whatever else they hold. -/
def Obligations.TreeDependsOnListAlone : Prop :=
  ∀ s s' t t' : State, 1 ≤ s.flistLen.toNat → s.flistLen.toNat ≤ 256 → s.countSum s.flistLen.toNat ≤ 65536 →
    s'.flistLen = s.flistLen → s'.entries s.flistLen.toNat = s.entries s.flistLen.toNat →
    exec .tbRun s = .next t → exec .tbRun s' = .next t' →
      t'.treeRoot = t.treeRoot ∧ t'.treeNodes = t.treeNodes
        ∧ ∀ (i : Nat) (h : i < 511), i < t.treeNodes.toNat → t'.tree[i] = t.tree[i]

/-! ### The dictionary (43_dictionary) -/

/-- R151, R152, R153, R100, R156, R157: with TREE_VALID 1, DB_RUN completes with DICT_OVERFLOW exactly when an
internal node stands at width 56, DICT then being all zero; else with OK, and then a symbol with no leaf is absent,
and a symbol with a leaf is present with a code of at most 56 bits that is a path to a leaf of it; where several
leaves carry the symbol, it is the path that the depth-first traversal visits last. Nothing else changes but STATUS.
-/
def Obligations.DbRunRecordsPaths : Prop :=
  ∀ s : State, s.treeValid = true →
    ∃ t, exec .dbRun s = .next t
      ∧ t = { s with dict := t.dict, dictValid := t.dictValid, eng := .idle, done := true, err := false, code := t.code }
      ∧ ((t.code = .dictOverflow ∧ t.dictValid = false ∧ (∀ sym, dictAt t.dict sym = ⟨0, 0, false⟩)
            ∧ ∃ bits n zero one, bits.length = 56 ∧ descend s.tree s.treeRoot bits = some n
              ∧ nodeAt s.tree n = .internal zero one)
          ∨ (t.code = .ok ∧ t.dictValid = true
            ∧ (∀ bits n zero one, descend s.tree s.treeRoot bits = some n → nodeAt s.tree n = .internal zero one →
                bits.length < 56)
            ∧ ∀ sym, ((∀ bits, ¬ isCodeOf s.tree s.treeRoot bits sym) ∧ dictAt t.dict sym = ⟨0, 0, false⟩)
              ∨ ((dictAt t.dict sym).present = true ∧ (dictAt t.dict sym).Wf
                ∧ isCodeOf s.tree s.treeRoot (dictAt t.dict sym).codeBits sym
                ∧ ∀ bits, isCodeOf s.tree s.treeRoot bits sym →
                    bits = (dictAt t.dict sym).codeBits ∨ VisitedBefore bits (dictAt t.dict sym).codeBits)))

/-- R101: no code of a dictionary is the beginning of another's. -/
def Obligations.CodesDoNotBeginEachOther : Prop :=
  ∀ s t : State, exec .dbRun s = .next t → t.code = .ok →
    ∀ x y : Byte, x ≠ y → (dictAt t.dict x).present = true → (dictAt t.dict y).present = true →
      ¬ (dictAt t.dict x).codeBits <+: (dictAt t.dict y).codeBits

/-- R154: DICT_LOOKUP (OPCODE 0x41) answers the entry of OPA[7:0] in RES0 (pattern[31:0]), RES1 (pattern[55:32]) and
RES2 (width in bits 5:0, present in bit 8, the other bits 0); nothing else changes but STATUS. -/
def Obligations.DictLookupReturnsEntry : Prop :=
  decode 0x00000041 = .ok .dictLookup ∧ ∀ s : State, ∃ t, exec .dictLookup s = .next t
    ∧ t = { s with
        res0 := t.res0, res1 := t.res1, res2 := t.res2, eng := .idle, done := true, err := false, code := .ok }
    ∧ t.res0 = (dictAt s.dict (s.opa.setWidth 8)).pattern.extractLsb' 0 32
    ∧ t.res1 = ((dictAt s.dict (s.opa.setWidth 8)).pattern.extractLsb' 32 24).setWidth 32
    ∧ t.res2.extractLsb' 0 6 = (dictAt s.dict (s.opa.setWidth 8)).width ∧ t.res2.extractLsb' 6 2 = 0
    ∧ t.res2.getLsbD 8 = (dictAt s.dict (s.opa.setWidth 8)).present ∧ t.res2.extractLsb' 9 23 = 0

/-! ### The bit packer (44_bit_packer) -/

/-- R166, R169, R105, R107, R172: PK_RUN on a well-formed dictionary, when the payload stays below 65536 bytes,
writes the block's code bits in stream order, zero-padded to whole bytes, sets PAY_LEN to their number and completes
OK; every other byte, and everything else but STATUS, is unchanged. -/
def Obligations.PkRunPacksTheStream : Prop :=
  ∀ s : State, s.rawLen.toNat ≤ 65536 → s.dictValid = true → s.DictWf →
    ((streamBits s.dict s.block).length + 7) / 8 < 65536 →
      ∃ t, exec .pkRun s = .next t
        ∧ t = { s with mem := t.mem, payLen := t.payLen, eng := .idle, done := true, err := false, code := .ok }
        ∧ t.payLen.toNat = ((streamBits s.dict s.block).length + 7) / 8
        ∧ (∀ k, k < 8 * t.payLen.toNat →
            (t.bufByte .pay (k / 8)).getLsbD (k % 8) = (streamBits s.dict s.block)[k]?.getD false)
        ∧ UnchangedOutside s t .pay t.payLen.toNat

/-- R168, R169: when the payload would be 65536 bytes or more, PK_RUN completes with the outcome PACK_OVERFLOW, PAY
holds the first 65536 bytes of the stream and PAY_LEN is 65536; everything else but STATUS is unchanged. -/
def Obligations.PkRunOverflowsAtCapacity : Prop :=
  ∀ s : State, s.rawLen.toNat ≤ 65536 → s.dictValid = true → s.DictWf →
    65536 ≤ ((streamBits s.dict s.block).length + 7) / 8 →
      ∃ t, exec .pkRun s = .next t
        ∧ t = { s with mem := t.mem, payLen := 65536, eng := .idle, done := true, err := false, code := .packOverflow }
        ∧ (∀ k, k < 8 * 65536 →
            (t.bufByte .pay (k / 8)).getLsbD (k % 8) = (streamBits s.dict s.block)[k]?.getD false)
        ∧ UnchangedOutside s t .pay 65536

/-- R153, R169: DB_RUN without a tree completes with ERR_NO_TREE, PK_RUN without a dictionary, after its length
check, with ERR_NO_DICT; each changes STATUS alone. -/
def Obligations.MissingTreeOrDictionary : Prop :=
  ∀ s : State,
    (s.treeValid = false → exec .dbRun s = .next { s with
      eng := .idle, done := true, err := true, anyErr := true, code := .errNoTree })
    ∧ (s.rawLen.toNat ≤ 65536 → s.dictValid = false → exec .pkRun s = .next { s with
      eng := .idle, done := true, err := true, anyErr := true, code := .errNoDict })

/-! ### The bit unpacker (45_bit_unpacker) -/

/-- R185: UP_RUN's first four errors in their order; each changes STATUS alone. -/
def Obligations.UpRunErrors : Prop :=
  ∀ s : State,
    (s.flistLen.toNat = 0 → exec .upRun s = .next { s with
      eng := .idle, done := true, err := true, anyErr := true, code := .errEmpty })
    ∧ (256 < s.flistLen.toNat → exec .upRun s = .next { s with
      eng := .idle, done := true, err := true, anyErr := true, code := .errFlist })
    ∧ (1 ≤ s.flistLen.toNat → s.flistLen.toNat ≤ 256 → 65536 < s.rawLen.toNat ∨ 65536 < s.payLen.toNat →
      exec .upRun s = .next { s with
        eng := .idle, done := true, err := true, anyErr := true, code := .errLength })
    ∧ (1 ≤ s.flistLen.toNat → s.flistLen.toNat ≤ 256 → s.rawLen.toNat ≤ 65536 → s.payLen.toNat ≤ 65536 →
      s.countSum s.flistLen.toNat ≠ s.rawLen.toNat → exec .upRun s = .next { s with
        eng := .idle, done := true, err := true, anyErr := true, code := .fmtCount })

/-- R182, R184, R185, R189, R181: UP_RUN whose checks pass leaves the tree TB_RUN would build and an empty queue.
Reading RAW_LEN symbols from the payload bits with that tree yields k symbols: the ones whose codes follow each
other at the front of the bits, fewer than RAW_LEN only when the bits left end at an internal node. RAW[0..k−1] are
these symbols and RAW from k on is unchanged; it completes with FMT_EXHAUSTED exactly when k < RAW_LEN, else with
OK. If the payload bits are the codes of some block of RAW_LEN symbols, whatever follows them, it completes with OK
and RAW holds that block. Nothing else changes but STATUS. -/
def Obligations.UpRunDecodesCodes : Prop :=
  ∀ s : State, 1 ≤ s.flistLen.toNat → s.flistLen.toNat ≤ 256 → s.rawLen.toNat ≤ 65536 → s.payLen.toNat ≤ 65536 →
    s.countSum s.flistLen.toNat = s.rawLen.toNat →
      ∃ (u t : State) (syms : List Byte), exec .tbRun s = .next u ∧ exec .upRun s = .next t
        ∧ t = { u with
            mem := t.mem, err := t.code.isError, anyErr := s.anyErr || t.code.isError, code := t.code }
        ∧ syms = unpackSyms u.tree u.treeRoot s.rawLen.toNat (payloadBits (s.bufBytes .pay 0 s.payLen.toNat))
        ∧ Yields u.tree u.treeRoot s.rawLen.toNat (payloadBits (s.bufBytes .pay 0 s.payLen.toNat)) syms
        ∧ t.code = (if syms.length < s.rawLen.toNat then .fmtExhausted else .ok)
        ∧ t.bufBytes .raw 0 syms.length = syms ∧ UnchangedOutside s t .raw syms.length
        ∧ ∀ (block : List Byte) (code : Byte → List Bool) (rest : List Bool),
            block.length = s.rawLen.toNat → (∀ b ∈ block, isCodeOf t.tree t.treeRoot (code b) b) →
            payloadBits (s.bufBytes .pay 0 s.payLen.toNat) = block.flatMap code ++ rest →
              t.code = .ok ∧ t.bufBytes .raw 0 s.rawLen.toNat = block

/-- R186: UP_RUN on a list of one entry whose count is RAW_LEN builds a single-leaf tree and completes with OK
whatever the payload, and RAW holds RAW_LEN times that entry's symbol. -/
def Obligations.UpRunSingleEntry : Prop :=
  ∀ s : State, s.flistLen = 1 → s.rawLen.toNat ≤ 65536 → s.payLen.toNat ≤ 65536 →
    (s.flist[0]).count.toNat = s.rawLen.toNat →
      ∃ t, exec .upRun s = .next t ∧ t.code = .ok ∧ t.err = false
        ∧ t.treeRoot = 0 ∧ t.treeNodes = 1 ∧ t.tree[0] = .leaf (s.flist[0]).sym
        ∧ ∀ k < s.rawLen.toNat, t.bufByte .raw k = (s.flist[0]).sym

/-- R188: FA_RUN, TB_RUN, DB_RUN and PK_RUN on a block that is not empty, all ending in OK, leave a list and a
payload from which UP_RUN, whatever RAW then holds, restores the block. -/
def Obligations.UnitsRoundTrip : Prop :=
  ∀ s a b c d e : State, s.rawLen ≠ 0 → s.rawLen.toNat ≤ 65536 →
    exec .faRun s = .next a → exec .tbRun a = .next b → exec .dbRun b = .next c → exec .pkRun c = .next d →
    c.code = .ok → d.code = .ok →
    e = { d with mem := e.mem } → (∀ k < d.payLen.toNat, e.bufByte .pay k = d.bufByte .pay k) →
      ∃ u, exec .upRun e = .next u ∧ u.code = .ok ∧ u.bufBytes .raw 0 s.rawLen.toNat = s.block

/-! ### ENCODE (46_block_codec) -/

/-- R196, R198, R233: ENCODE of a block of at most 65536 bytes completes with one of the five ENC outcomes and never
an error; FCNT, FLIST and FLIST_LEN are those FA_RUN leaves on the same state; RAW, RAW_LEN, FRM_USED, OPA, OPB and
RES0 to RES2 are unchanged, and the only bytes it writes are the frame's in FRM and, after a pack,
PAY[0..PAY_LEN−1]. -/
def Obligations.EncodeCompletes : Prop :=
  ∀ s : State, s.rawLen.toNat ≤ 65536 →
    ∃ t f, exec .encodeBlock s = .next t ∧ exec .faRun s = .next f
      ∧ (t.code = .encCoded ∨ t.code = .encRawEmpty ∨ t.code = .encRawSingle ∨ t.code = .encRawDict
          ∨ t.code = .encRawPack)
      ∧ t = { s with
          mem := t.mem, frmLen := t.frmLen, payLen := t.payLen, fcnt := f.fcnt, flist := f.flist, flistLen := f.flistLen
          pq := t.pq, pqSerial := t.pqSerial, tree := t.tree, treeRoot := t.treeRoot, treeNodes := t.treeNodes
          dict := t.dict, treeValid := t.treeValid, dictValid := t.dictValid
          eng := .idle, done := true, err := false, code := t.code }
      ∧ ∀ a, ¬ (Buffer.frm.base ≤ a ∧ a < Buffer.frm.base + t.frmLen.toNat) →
          ¬ ((t.code = .encCoded ∨ t.code = .encRawPack) ∧ Buffer.pay.base ≤ a
              ∧ a < Buffer.pay.base + t.payLen.toNat) →
          t.memByte a = s.memByte a

/-- R195, R196, R197, R198, R92: ENCODE's raw frames hold a zero marker, the block length and the block. An empty
block ends in ENC_RAW_EMPTY and a block of one distinct symbol in ENC_RAW_SINGLE, both leaving tree, dictionary,
queue, payload and flags as they were. A block of more symbols gets the tree that FA_RUN and TB_RUN build,
TREE_VALID 1 and an empty queue, and then: ENC_RAW_DICT exactly when DB_RUN on that tree overflows (an internal node
at width 56), DICT being all zero, DICT_VALID 0 and PAY and PAY_LEN unchanged; else ENC_RAW_PACK exactly when the
block's code bits fill 65536 bytes or more, PAY and PAY_LEN being those PK_RUN leaves with PACK_OVERFLOW; else
ENC_CODED, PAY and PAY_LEN being those PK_RUN leaves with OK; in these two DICT is DB_RUN's and DICT_VALID 1. -/
def Obligations.EncodeRawFrames : Prop :=
  ∀ s t : State, s.rawLen.toNat ≤ 65536 → exec .encodeBlock s = .next t →
    (t.code ≠ .encCoded →
      t.frmLen.toNat = 6 + s.rawLen.toNat ∧ t.bufLe16 .frm 0 = 0 ∧ t.bufLe32 .frm 2 = BitVec.ofNat 32 s.rawLen.toNat
        ∧ ∀ k < s.rawLen.toNat, t.bufByte .frm (6 + k) = s.bufByte .raw k)
    ∧ (t.code = .encRawEmpty ↔ s.rawLen = 0)
    ∧ (t.code = .encRawSingle ↔ s.rawLen ≠ 0 ∧ ∀ k < s.rawLen.toNat, s.bufByte .raw k = s.bufByte .raw 0)
    ∧ (t.code = .encRawEmpty ∨ t.code = .encRawSingle →
        t.tree = s.tree ∧ t.treeRoot = s.treeRoot ∧ t.treeNodes = s.treeNodes ∧ t.dict = s.dict ∧ t.pq = s.pq
          ∧ t.pqSerial = s.pqSerial ∧ t.payLen = s.payLen ∧ t.treeValid = s.treeValid ∧ t.dictValid = s.dictValid)
    ∧ (¬ (∀ k < s.rawLen.toNat, s.bufByte .raw k = s.bufByte .raw 0) →
        ∃ a b c d : State, exec .faRun s = .next a ∧ exec .tbRun a = .next b ∧ exec .dbRun b = .next c
          ∧ exec .pkRun c = .next d
          ∧ t.tree = b.tree ∧ t.treeRoot = b.treeRoot ∧ t.treeNodes = b.treeNodes ∧ t.treeValid = true ∧ t.pq = []
          ∧ t.pqSerial = b.pqSerial ∧ t.dict = c.dict
          ∧ ((c.code = .dictOverflow ∧ t.code = .encRawDict
                ∧ (∃ bits n zero one, bits.length = 56 ∧ descend t.tree t.treeRoot bits = some n
                  ∧ nodeAt t.tree n = .internal zero one)
                ∧ (∀ sym, dictAt t.dict sym = ⟨0, 0, false⟩) ∧ t.dictValid = false ∧ t.payLen = s.payLen
                ∧ ∀ k < 65536, t.bufByte .pay k = s.bufByte .pay k)
            ∨ (c.code = .ok ∧ d.code = .packOverflow ∧ t.code = .encRawPack
                ∧ 65536 ≤ ((streamBits t.dict s.block).length + 7) / 8 ∧ t.dictValid = true ∧ t.payLen = d.payLen
                ∧ ∀ k < 65536, t.bufByte .pay k = d.bufByte .pay k)
            ∨ (c.code = .ok ∧ d.code = .ok ∧ t.code = .encCoded
                ∧ ((streamBits t.dict s.block).length + 7) / 8 < 65536 ∧ t.dictValid = true ∧ t.payLen = d.payLen
                ∧ ∀ k < 65536, t.bufByte .pay k = d.bufByte .pay k)))

/-- R195, R196, R198, R91, R93: ENCODE's coded frame holds the number N of distinct symbols of the block (2 to 256),
the N entries of its frequency list, the block length, the payload length P (1 to 65535) and the payload, whose bits
are the block's codes in the dictionary left in DICT, zero-padded. FCNT, FLIST and FLIST_LEN are those FA_RUN leaves
on the same state. -/
def Obligations.EncodeCodedFrame : Prop :=
  ∀ s t : State, s.rawLen.toNat ≤ 65536 → exec .encodeBlock s = .next t → t.code = .encCoded →
    (∃ a, exec .faRun s = .next a ∧ t.fcnt = a.fcnt ∧ t.flist = a.flist ∧ t.flistLen = a.flistLen)
      ∧ t.flistLen.toNat = ((List.range 256).filter fun i => s.block.count (BitVec.ofNat 8 i) ≠ 0).length
      ∧ 2 ≤ t.flistLen.toNat ∧ t.flistLen.toNat ≤ 256 ∧ 1 ≤ t.payLen.toNat ∧ t.payLen.toNat ≤ 65535
      ∧ t.frmLen.toNat = 10 + 5 * t.flistLen.toNat + t.payLen.toNat
      ∧ (t.bufLe16 .frm 0).toNat = t.flistLen.toNat
      ∧ (∀ (i : Nat) (h : i < 256), i < t.flistLen.toNat →
          t.bufByte .frm (2 + 5 * i) = (t.flist[i]).sym ∧ t.bufLe32 .frm (3 + 5 * i) = (t.flist[i]).count)
      ∧ (t.bufLe32 .frm (2 + 5 * t.flistLen.toNat)).toNat = s.rawLen.toNat
      ∧ (t.bufLe32 .frm (6 + 5 * t.flistLen.toNat)).toNat = t.payLen.toNat
      ∧ t.payLen.toNat = ((streamBits t.dict s.block).length + 7) / 8
      ∧ ∀ k, k < 8 * t.payLen.toNat →
          (t.bufByte .frm (10 + 5 * t.flistLen.toNat + k / 8)).getLsbD (k % 8)
            = (streamBits t.dict s.block)[k]?.getD false

/-- R200: ENCODE's outcome and frame are a function of the block alone: two states with the same block get the same
code and the same frame, whatever else they hold. -/
def Obligations.EncodeDependsOnBlockAlone : Prop :=
  ∀ s s' t t' : State, s.rawLen.toNat ≤ 65536 → s'.rawLen = s.rawLen → s'.block = s.block →
    exec .encodeBlock s = .next t → exec .encodeBlock s' = .next t' →
      t'.code = t.code ∧ t'.frmLen = t.frmLen ∧ ∀ k < t.frmLen.toNat, t'.bufByte .frm k = t.bufByte .frm k

/-! ### DECODE (46_block_codec) -/

/-- R201, R202: DECODE's errors up to an incomplete coded header, in their order; each changes STATUS alone. A is
FRM_LEN, N the discriminator, L the length field of a raw frame. -/
def Obligations.DecodeHeaderErrors : Prop :=
  ∀ (s : State) (code : Code),
    (66826 < s.frmLen.toNat ∧ code = .errLength)
      ∨ (s.frmLen.toNat < 2 ∧ code = .fmtTruncated)
      ∨ (2 ≤ s.frmLen.toNat ∧ s.frmLen.toNat ≤ 66826 ∧ s.bufLe16 .frm 0 = 0 ∧ s.frmLen.toNat < 6 ∧ code = .fmtTruncated)
      ∨ (6 ≤ s.frmLen.toNat ∧ s.frmLen.toNat ≤ 66826 ∧ s.bufLe16 .frm 0 = 0
          ∧ 65536 < (s.bufLe32 .frm 2).toNat ∧ code = .fmtLength)
      ∨ (6 ≤ s.frmLen.toNat ∧ s.frmLen.toNat ≤ 66826 ∧ s.bufLe16 .frm 0 = 0 ∧ (s.bufLe32 .frm 2).toNat ≤ 65536
          ∧ s.frmLen.toNat < 6 + (s.bufLe32 .frm 2).toNat ∧ code = .fmtTruncated)
      ∨ (2 ≤ s.frmLen.toNat ∧ s.frmLen.toNat ≤ 66826 ∧ 256 < (s.bufLe16 .frm 0).toNat ∧ code = .fmtDiscriminator)
      ∨ (2 ≤ s.frmLen.toNat ∧ s.frmLen.toNat ≤ 66826 ∧ 1 ≤ (s.bufLe16 .frm 0).toNat ∧ (s.bufLe16 .frm 0).toNat ≤ 256
          ∧ s.frmLen.toNat < 10 + 5 * (s.bufLe16 .frm 0).toNat ∧ code = .fmtTruncated) →
      exec .decodeFrame s = .next { s with eng := .idle, done := true, err := true, anyErr := true, code := code }

/-- R201, R202, R203: DECODE's errors after a complete coded header, in their order: FLIST[0..N−1] and FLIST_LEN
hold the header's list, nothing else changes but STATUS. -/
def Obligations.DecodeCodedErrors : Prop :=
  ∀ (s : State) (n len payLen sum : Nat) (code : Code),
    s.frmLen.toNat ≤ 66826 → n = (s.bufLe16 .frm 0).toNat → 1 ≤ n → n ≤ 256 → 10 + 5 * n ≤ s.frmLen.toNat →
    len = (s.bufLe32 .frm (2 + 5 * n)).toNat → payLen = (s.bufLe32 .frm (6 + 5 * n)).toNat →
    sum = ((List.range n).map fun i => (s.bufLe32 .frm (3 + 5 * i)).toNat).sum →
    ((65536 < len ∨ 65536 < payLen) ∧ code = .fmtLength)
      ∨ (len ≤ 65536 ∧ payLen ≤ 65536 ∧ s.frmLen.toNat < 10 + 5 * n + payLen ∧ code = .fmtTruncated)
      ∨ (len ≤ 65536 ∧ payLen ≤ 65536 ∧ 10 + 5 * n + payLen ≤ s.frmLen.toNat ∧ sum ≠ len ∧ code = .fmtCount) →
      ∃ t, exec .decodeFrame s = .next t
        ∧ t = { s with
            flist := t.flist, flistLen := BitVec.ofNat 9 n
            eng := .idle, done := true, err := true, anyErr := true, code := code }
        ∧ ∀ (i : Nat) (h : i < 256),
            t.flist[i] = if i < n then ⟨s.bufByte .frm (2 + 5 * i), s.bufLe32 .frm (3 + 5 * i)⟩ else s.flist[i]

/-- R201, R206, R204: DECODE of a complete raw frame copies its L bytes to RAW, sets RAW_LEN to L and FRM_USED to 6
+ L and completes with DEC_RAW; nothing else changes but STATUS. -/
def Obligations.DecodeRawFrameCopies : Prop :=
  ∀ (s : State) (len : Nat),
    s.frmLen.toNat ≤ 66826 → s.bufLe16 .frm 0 = 0 → len = (s.bufLe32 .frm 2).toNat → len ≤ 65536 →
    6 + len ≤ s.frmLen.toNat →
      ∃ t, exec .decodeFrame s = .next t
        ∧ t = { s with
            mem := t.mem, rawLen := BitVec.ofNat 17 len, frmUsed := BitVec.ofNat 17 (6 + len)
            eng := .idle, done := true, err := false, code := .decRaw }
        ∧ (∀ k < len, t.bufByte .raw k = s.bufByte .frm (6 + k)) ∧ UnchangedOutside s t .raw len

/-- R201, R203, R204, R205, R137, R182: DECODE of a coded frame whose header checks pass loads its list, copies its
payload to PAY, leaves the tree that TB_RUN builds on the state with that list, the nodes past it kept, and an empty
queue. Reading L symbols from the frame's payload bits with that tree yields k symbols: RAW[0..k−1] are these and
RAW from k on is unchanged; it completes with FMT_EXHAUSTED exactly when k < L, RAW_LEN and FRM_USED then being
unchanged, else with DEC_CODED, RAW_LEN being L and FRM_USED the frame's length. If the payload bits are the codes
of some block of the declared length, it completes with DEC_CODED and RAW holds that block. Nothing else changes but
STATUS. -/
def Obligations.DecodeCodedFrameDecodes : Prop :=
  ∀ (s : State) (n len payLen : Nat),
    s.frmLen.toNat ≤ 66826 → n = (s.bufLe16 .frm 0).toNat → 1 ≤ n → n ≤ 256 →
    len = (s.bufLe32 .frm (2 + 5 * n)).toNat → payLen = (s.bufLe32 .frm (6 + 5 * n)).toNat →
    len ≤ 65536 → payLen ≤ 65536 → 10 + 5 * n + payLen ≤ s.frmLen.toNat →
    ((List.range n).map fun i => (s.bufLe32 .frm (3 + 5 * i)).toNat).sum = len →
      ∃ (t u : State) (syms : List Byte), exec .decodeFrame s = .next t
        ∧ t = { s with
            mem := t.mem, flist := t.flist, flistLen := BitVec.ofNat 9 n, payLen := BitVec.ofNat 17 payLen
            pq := [], pqSerial := BitVec.ofNat 32 (2 * n - 1), tree := t.tree, treeRoot := BitVec.ofNat 9 (2 * n - 2)
            treeNodes := BitVec.ofNat 10 (2 * n - 1), treeValid := true, dictValid := false
            rawLen := t.rawLen, frmUsed := t.frmUsed
            eng := .idle, done := true, err := t.code.isError, anyErr := s.anyErr || t.code.isError, code := t.code }
        ∧ (∀ (i : Nat) (h : i < 256),
            t.flist[i] = if i < n then ⟨s.bufByte .frm (2 + 5 * i), s.bufLe32 .frm (3 + 5 * i)⟩ else s.flist[i])
        ∧ exec .tbRun { s with flist := t.flist, flistLen := t.flistLen } = .next u
        ∧ t.tree = u.tree ∧ t.treeRoot = u.treeRoot ∧ t.treeNodes = u.treeNodes ∧ t.pqSerial = u.pqSerial
        ∧ TreeWf t.tree t.treeRoot t.treeNodes.toNat
        ∧ (∀ (i : Nat) (h : i < 256), i < n → t.tree[i] = .leaf (t.flist[i]).sym)
        ∧ (∀ k < payLen, t.bufByte .pay k = s.bufByte .frm (10 + 5 * n + k))
        ∧ syms = unpackSyms t.tree t.treeRoot len (payloadBits (s.bufBytes .frm (10 + 5 * n) payLen))
        ∧ Yields t.tree t.treeRoot len (payloadBits (s.bufBytes .frm (10 + 5 * n) payLen)) syms
        ∧ t.code = (if syms.length < len then .fmtExhausted else .decCoded)
        ∧ t.bufBytes .raw 0 syms.length = syms
        ∧ (∀ a, ¬ (Buffer.raw.base ≤ a ∧ a < Buffer.raw.base + syms.length) →
            ¬ (Buffer.pay.base ≤ a ∧ a < Buffer.pay.base + payLen) → t.memByte a = s.memByte a)
        ∧ ((t.code = .decCoded ∧ t.rawLen = BitVec.ofNat 17 len ∧ t.frmUsed = BitVec.ofNat 17 (10 + 5 * n + payLen))
            ∨ (t.code = .fmtExhausted ∧ t.rawLen = s.rawLen ∧ t.frmUsed = s.frmUsed))
        ∧ ∀ (block : List Byte) (code : Byte → List Bool) (rest : List Bool),
            block.length = len → (∀ b ∈ block, isCodeOf t.tree t.treeRoot (code b) b) →
            payloadBits (s.bufBytes .frm (10 + 5 * n) payLen) = block.flatMap code ++ rest →
              t.code = .decCoded ∧ t.bufBytes .raw 0 len = block

/-- R207, the round trip: for every block of at most 65536 bytes, ENCODE and then DECODE ends with no error, the
block back in RAW, RAW_LEN as it was and FRM_USED the frame's length. -/
def Obligations.EncodeThenDecodeRestoresBlock : Prop :=
  ∀ s t : State, s.rawLen.toNat ≤ 65536 → exec .encodeBlock s = .next t →
    ∃ u, exec .decodeFrame t = .next u ∧ u.err = false ∧ u.rawLen = s.rawLen ∧ u.frmUsed = t.frmLen
      ∧ u.bufBytes .raw 0 s.rawLen.toNat = s.block

/-! ### Who may write what (10_state R23, R30, R37, R40, R41) -/

/-- R23, R37, R40, R41, R36, R138, R198, R206: what each command may change of the operand and result registers, the
tables, the queue, the lengths and the buffers; RESET apart (ResetCommandClears). -/
def Obligations.OnlyTheseCommandsWrite : Prop :=
  ∀ (i : Instr) (s t : State), i ≠ .reset → exec i s = .next t →
    t.opa = s.opa ∧ t.opb = s.opb
      ∧ (i ≠ .pqExtract → i ≠ .dictLookup → t.res0 = s.res0 ∧ t.res1 = s.res1 ∧ t.res2 = s.res2)
      ∧ (i ≠ .faRun → i ≠ .encodeBlock → t.fcnt = s.fcnt)
      ∧ (i ≠ .faRun → i ≠ .encodeBlock → i ≠ .decodeFrame → t.flist = s.flist ∧ t.flistLen = s.flistLen)
      ∧ (i ≠ .tbRun → i ≠ .upRun → i ≠ .encodeBlock → i ≠ .decodeFrame →
          t.tree = s.tree ∧ t.treeRoot = s.treeRoot ∧ t.treeNodes = s.treeNodes ∧ t.treeValid = s.treeValid
            ∧ (i ≠ .pqClear → i ≠ .pqInsert → t.pqSerial = s.pqSerial ∧ (i ≠ .pqExtract → t.pq = s.pq))
            ∧ (i ≠ .dbRun → t.dictValid = s.dictValid))
      ∧ (i ≠ .dbRun → i ≠ .encodeBlock → t.dict = s.dict)
      ∧ (i ≠ .decodeFrame → t.rawLen = s.rawLen ∧ t.frmUsed = s.frmUsed)
      ∧ (i ≠ .pkRun → i ≠ .encodeBlock → i ≠ .decodeFrame → t.payLen = s.payLen)
      ∧ (i ≠ .encodeBlock → t.frmLen = s.frmLen)
      ∧ ∀ a, (i ≠ .upRun → i ≠ .decodeFrame → Buffer.raw.holds a → t.memByte a = s.memByte a)
          ∧ (i ≠ .pkRun → i ≠ .encodeBlock → i ≠ .decodeFrame → Buffer.pay.holds a → t.memByte a = s.memByte a)
          ∧ (i ≠ .encodeBlock → Buffer.frm.holds a → t.memByte a = s.memByte a)

/-- R30: over every step, the host's and the reset input's included, TREE_VALID becomes 1 only by a command that
builds a tree and DICT_VALID only by one that builds a dictionary; TREE_VALID becomes 0 only by RESET and the reset
input, DICT_VALID by these and by the commands that build a tree or a dictionary. -/
def Obligations.ValidityFlagsChangeOnlyByBuilds : Prop :=
  ∀ s t : State, step s = .next t →
    (s.treeValid = false → t.treeValid = true → ∃ w turns i, s.eng = .busy w turns ∧ decode w = .ok i
        ∧ i ∈ [Instr.tbRun, .upRun, .encodeBlock, .decodeFrame])
      ∧ (s.dictValid = false → t.dictValid = true → ∃ w turns i, s.eng = .busy w turns ∧ decode w = .ok i
        ∧ i ∈ [Instr.dbRun, .encodeBlock])
      ∧ (s.treeValid = true → t.treeValid = false →
        (∃ rest, s.host = .resetInput :: rest) ∨ ∃ w turns, s.eng = .busy w turns ∧ decode w = .ok .reset)
      ∧ (s.dictValid = true → t.dictValid = false →
        (∃ rest, s.host = .resetInput :: rest) ∨ ∃ w turns i, s.eng = .busy w turns ∧ decode w = .ok i
          ∧ i ∈ [Instr.reset, .tbRun, .dbRun, .upRun, .encodeBlock, .decodeFrame])

/-! ### Invariants every step keeps (10_state R44, R26, R27) -/

/-- Every step, the engine's, the host's or the reset input's, keeps the memory in its canonical form: addresses
strictly rising, all of them buffer bytes (10_state R34 to R36; log 1). -/
def Obligations.StepKeepsMemoryForm : Prop :=
  ∀ s t : State, Memory.wf s.mem → step s = .next t → Memory.wf t.mem

/-- R44 (c), R112: every step keeps the queue at 256 entries or fewer with distinct serials below PQ_SERIAL. -/
def Obligations.StepKeepsQueue : Prop := ∀ s t : State, s.QueueWf → step s = .next t → t.QueueWf

/-- R44 (a), (b): every step keeps every dictionary entry well formed: absent entries are zero, a pattern lies below
2^width, a width is at most 56. -/
def Obligations.StepKeepsDictionaryEntries : Prop := ∀ s t : State, s.DictWf → step s = .next t → t.DictWf

/-- R44 (d): every step keeps TREE one binary tree while TREE_VALID is 1. -/
def Obligations.StepKeepsOneTree : Prop := ∀ s t : State, s.TreeOk → step s = .next t → t.TreeOk

/-- R26, R30: every step keeps DICT the dictionary of the tree in TREE while DICT_VALID is 1. -/
def Obligations.StepKeepsDictionaryOfTree : Prop :=
  ∀ s t : State, s.DictCurrent → step s = .next t → t.DictCurrent

/-- R26, R27: every step keeps ERR the kind of CODE, an error recorded in ANY_ERR, and DONE and CODE at 0 while
BUSY. -/
def Obligations.StatusFieldsKept : Prop :=
  ∀ s t : State, s.StatusCoherent → step s = .next t → t.StatusCoherent

/-- Every invariant holds right after reset (R45). -/
def Obligations.ResetMeetsEveryInvariant : Prop := State.reset.Inv
end

