-- ==== Sys2Proof/Laws/State.lean ====
section
/-! SUPPORT. One lemma per field per update of State, so that no later proof unfolds a record update. -/

namespace Sys2Proof.Machine.State

variable (s : State)


/-! ### `fillBuf` -/

@[simp] theorem fillBuf_eng (b : Buffer) (bs : List Byte) : (s.fillBuf b bs).eng = s.eng := rfl
@[simp] theorem fillBuf_done (b : Buffer) (bs : List Byte) : (s.fillBuf b bs).done = s.done := rfl
@[simp] theorem fillBuf_err (b : Buffer) (bs : List Byte) : (s.fillBuf b bs).err = s.err := rfl
@[simp] theorem fillBuf_anyErr (b : Buffer) (bs : List Byte) : (s.fillBuf b bs).anyErr = s.anyErr := rfl
@[simp] theorem fillBuf_treeValid (b : Buffer) (bs : List Byte) : (s.fillBuf b bs).treeValid = s.treeValid := rfl
@[simp] theorem fillBuf_dictValid (b : Buffer) (bs : List Byte) : (s.fillBuf b bs).dictValid = s.dictValid := rfl
@[simp] theorem fillBuf_code (b : Buffer) (bs : List Byte) : (s.fillBuf b bs).code = s.code := rfl
@[simp] theorem fillBuf_lastOp (b : Buffer) (bs : List Byte) : (s.fillBuf b bs).lastOp = s.lastOp := rfl
@[simp] theorem fillBuf_opa (b : Buffer) (bs : List Byte) : (s.fillBuf b bs).opa = s.opa := rfl
@[simp] theorem fillBuf_opb (b : Buffer) (bs : List Byte) : (s.fillBuf b bs).opb = s.opb := rfl
@[simp] theorem fillBuf_res0 (b : Buffer) (bs : List Byte) : (s.fillBuf b bs).res0 = s.res0 := rfl
@[simp] theorem fillBuf_res1 (b : Buffer) (bs : List Byte) : (s.fillBuf b bs).res1 = s.res1 := rfl
@[simp] theorem fillBuf_res2 (b : Buffer) (bs : List Byte) : (s.fillBuf b bs).res2 = s.res2 := rfl
@[simp] theorem fillBuf_rawLen (b : Buffer) (bs : List Byte) : (s.fillBuf b bs).rawLen = s.rawLen := rfl
@[simp] theorem fillBuf_payLen (b : Buffer) (bs : List Byte) : (s.fillBuf b bs).payLen = s.payLen := rfl
@[simp] theorem fillBuf_frmLen (b : Buffer) (bs : List Byte) : (s.fillBuf b bs).frmLen = s.frmLen := rfl
@[simp] theorem fillBuf_frmUsed (b : Buffer) (bs : List Byte) : (s.fillBuf b bs).frmUsed = s.frmUsed := rfl
@[simp] theorem fillBuf_flistLen (b : Buffer) (bs : List Byte) : (s.fillBuf b bs).flistLen = s.flistLen := rfl
@[simp] theorem fillBuf_mem (b : Buffer) (bs : List Byte) : (s.fillBuf b bs).mem = Memory.writeRange s.mem b.base (bs.take b.size) := rfl
@[simp] theorem fillBuf_fcnt (b : Buffer) (bs : List Byte) : (s.fillBuf b bs).fcnt = s.fcnt := rfl
@[simp] theorem fillBuf_flist (b : Buffer) (bs : List Byte) : (s.fillBuf b bs).flist = s.flist := rfl
@[simp] theorem fillBuf_pq (b : Buffer) (bs : List Byte) : (s.fillBuf b bs).pq = s.pq := rfl
@[simp] theorem fillBuf_pqSerial (b : Buffer) (bs : List Byte) : (s.fillBuf b bs).pqSerial = s.pqSerial := rfl
@[simp] theorem fillBuf_tree (b : Buffer) (bs : List Byte) : (s.fillBuf b bs).tree = s.tree := rfl
@[simp] theorem fillBuf_treeRoot (b : Buffer) (bs : List Byte) : (s.fillBuf b bs).treeRoot = s.treeRoot := rfl
@[simp] theorem fillBuf_treeNodes (b : Buffer) (bs : List Byte) : (s.fillBuf b bs).treeNodes = s.treeNodes := rfl
@[simp] theorem fillBuf_dict (b : Buffer) (bs : List Byte) : (s.fillBuf b bs).dict = s.dict := rfl
@[simp] theorem fillBuf_host (b : Buffer) (bs : List Byte) : (s.fillBuf b bs).host = s.host := rfl
@[simp] theorem fillBuf_reads (b : Buffer) (bs : List Byte) : (s.fillBuf b bs).reads = s.reads := rfl
@[simp] theorem fillBuf_drawn (b : Buffer) (bs : List Byte) : (s.fillBuf b bs).drawn = s.drawn := rfl

/-! ### `setQueue` -/

@[simp] theorem setQueue_eng (q : List PqEntry) (n : BitVec 32) : (s.setQueue q n).eng = s.eng := rfl
@[simp] theorem setQueue_done (q : List PqEntry) (n : BitVec 32) : (s.setQueue q n).done = s.done := rfl
@[simp] theorem setQueue_err (q : List PqEntry) (n : BitVec 32) : (s.setQueue q n).err = s.err := rfl
@[simp] theorem setQueue_anyErr (q : List PqEntry) (n : BitVec 32) : (s.setQueue q n).anyErr = s.anyErr := rfl
@[simp] theorem setQueue_treeValid (q : List PqEntry) (n : BitVec 32) : (s.setQueue q n).treeValid = s.treeValid := rfl
@[simp] theorem setQueue_dictValid (q : List PqEntry) (n : BitVec 32) : (s.setQueue q n).dictValid = s.dictValid := rfl
@[simp] theorem setQueue_code (q : List PqEntry) (n : BitVec 32) : (s.setQueue q n).code = s.code := rfl
@[simp] theorem setQueue_lastOp (q : List PqEntry) (n : BitVec 32) : (s.setQueue q n).lastOp = s.lastOp := rfl
@[simp] theorem setQueue_opa (q : List PqEntry) (n : BitVec 32) : (s.setQueue q n).opa = s.opa := rfl
@[simp] theorem setQueue_opb (q : List PqEntry) (n : BitVec 32) : (s.setQueue q n).opb = s.opb := rfl
@[simp] theorem setQueue_res0 (q : List PqEntry) (n : BitVec 32) : (s.setQueue q n).res0 = s.res0 := rfl
@[simp] theorem setQueue_res1 (q : List PqEntry) (n : BitVec 32) : (s.setQueue q n).res1 = s.res1 := rfl
@[simp] theorem setQueue_res2 (q : List PqEntry) (n : BitVec 32) : (s.setQueue q n).res2 = s.res2 := rfl
@[simp] theorem setQueue_rawLen (q : List PqEntry) (n : BitVec 32) : (s.setQueue q n).rawLen = s.rawLen := rfl
@[simp] theorem setQueue_payLen (q : List PqEntry) (n : BitVec 32) : (s.setQueue q n).payLen = s.payLen := rfl
@[simp] theorem setQueue_frmLen (q : List PqEntry) (n : BitVec 32) : (s.setQueue q n).frmLen = s.frmLen := rfl
@[simp] theorem setQueue_frmUsed (q : List PqEntry) (n : BitVec 32) : (s.setQueue q n).frmUsed = s.frmUsed := rfl
@[simp] theorem setQueue_flistLen (q : List PqEntry) (n : BitVec 32) : (s.setQueue q n).flistLen = s.flistLen := rfl
@[simp] theorem setQueue_mem (q : List PqEntry) (n : BitVec 32) : (s.setQueue q n).mem = s.mem := rfl
@[simp] theorem setQueue_fcnt (q : List PqEntry) (n : BitVec 32) : (s.setQueue q n).fcnt = s.fcnt := rfl
@[simp] theorem setQueue_flist (q : List PqEntry) (n : BitVec 32) : (s.setQueue q n).flist = s.flist := rfl
@[simp] theorem setQueue_pq (q : List PqEntry) (n : BitVec 32) : (s.setQueue q n).pq = q := rfl
@[simp] theorem setQueue_pqSerial (q : List PqEntry) (n : BitVec 32) : (s.setQueue q n).pqSerial = n := rfl
@[simp] theorem setQueue_tree (q : List PqEntry) (n : BitVec 32) : (s.setQueue q n).tree = s.tree := rfl
@[simp] theorem setQueue_treeRoot (q : List PqEntry) (n : BitVec 32) : (s.setQueue q n).treeRoot = s.treeRoot := rfl
@[simp] theorem setQueue_treeNodes (q : List PqEntry) (n : BitVec 32) : (s.setQueue q n).treeNodes = s.treeNodes := rfl
@[simp] theorem setQueue_dict (q : List PqEntry) (n : BitVec 32) : (s.setQueue q n).dict = s.dict := rfl
@[simp] theorem setQueue_host (q : List PqEntry) (n : BitVec 32) : (s.setQueue q n).host = s.host := rfl
@[simp] theorem setQueue_reads (q : List PqEntry) (n : BitVec 32) : (s.setQueue q n).reads = s.reads := rfl
@[simp] theorem setQueue_drawn (q : List PqEntry) (n : BitVec 32) : (s.setQueue q n).drawn = s.drawn := rfl

/-! ### `setResults` -/

@[simp] theorem setResults_eng (x y z : Word) : (s.setResults x y z).eng = s.eng := rfl
@[simp] theorem setResults_done (x y z : Word) : (s.setResults x y z).done = s.done := rfl
@[simp] theorem setResults_err (x y z : Word) : (s.setResults x y z).err = s.err := rfl
@[simp] theorem setResults_anyErr (x y z : Word) : (s.setResults x y z).anyErr = s.anyErr := rfl
@[simp] theorem setResults_treeValid (x y z : Word) : (s.setResults x y z).treeValid = s.treeValid := rfl
@[simp] theorem setResults_dictValid (x y z : Word) : (s.setResults x y z).dictValid = s.dictValid := rfl
@[simp] theorem setResults_code (x y z : Word) : (s.setResults x y z).code = s.code := rfl
@[simp] theorem setResults_lastOp (x y z : Word) : (s.setResults x y z).lastOp = s.lastOp := rfl
@[simp] theorem setResults_opa (x y z : Word) : (s.setResults x y z).opa = s.opa := rfl
@[simp] theorem setResults_opb (x y z : Word) : (s.setResults x y z).opb = s.opb := rfl
@[simp] theorem setResults_res0 (x y z : Word) : (s.setResults x y z).res0 = x := rfl
@[simp] theorem setResults_res1 (x y z : Word) : (s.setResults x y z).res1 = y := rfl
@[simp] theorem setResults_res2 (x y z : Word) : (s.setResults x y z).res2 = z := rfl
@[simp] theorem setResults_rawLen (x y z : Word) : (s.setResults x y z).rawLen = s.rawLen := rfl
@[simp] theorem setResults_payLen (x y z : Word) : (s.setResults x y z).payLen = s.payLen := rfl
@[simp] theorem setResults_frmLen (x y z : Word) : (s.setResults x y z).frmLen = s.frmLen := rfl
@[simp] theorem setResults_frmUsed (x y z : Word) : (s.setResults x y z).frmUsed = s.frmUsed := rfl
@[simp] theorem setResults_flistLen (x y z : Word) : (s.setResults x y z).flistLen = s.flistLen := rfl
@[simp] theorem setResults_mem (x y z : Word) : (s.setResults x y z).mem = s.mem := rfl
@[simp] theorem setResults_fcnt (x y z : Word) : (s.setResults x y z).fcnt = s.fcnt := rfl
@[simp] theorem setResults_flist (x y z : Word) : (s.setResults x y z).flist = s.flist := rfl
@[simp] theorem setResults_pq (x y z : Word) : (s.setResults x y z).pq = s.pq := rfl
@[simp] theorem setResults_pqSerial (x y z : Word) : (s.setResults x y z).pqSerial = s.pqSerial := rfl
@[simp] theorem setResults_tree (x y z : Word) : (s.setResults x y z).tree = s.tree := rfl
@[simp] theorem setResults_treeRoot (x y z : Word) : (s.setResults x y z).treeRoot = s.treeRoot := rfl
@[simp] theorem setResults_treeNodes (x y z : Word) : (s.setResults x y z).treeNodes = s.treeNodes := rfl
@[simp] theorem setResults_dict (x y z : Word) : (s.setResults x y z).dict = s.dict := rfl
@[simp] theorem setResults_host (x y z : Word) : (s.setResults x y z).host = s.host := rfl
@[simp] theorem setResults_reads (x y z : Word) : (s.setResults x y z).reads = s.reads := rfl
@[simp] theorem setResults_drawn (x y z : Word) : (s.setResults x y z).drawn = s.drawn := rfl

/-! ### `setFcnt` -/

@[simp] theorem setFcnt_eng (c : Vector (BitVec 17) 256) : (s.setFcnt c).eng = s.eng := rfl
@[simp] theorem setFcnt_done (c : Vector (BitVec 17) 256) : (s.setFcnt c).done = s.done := rfl
@[simp] theorem setFcnt_err (c : Vector (BitVec 17) 256) : (s.setFcnt c).err = s.err := rfl
@[simp] theorem setFcnt_anyErr (c : Vector (BitVec 17) 256) : (s.setFcnt c).anyErr = s.anyErr := rfl
@[simp] theorem setFcnt_treeValid (c : Vector (BitVec 17) 256) : (s.setFcnt c).treeValid = s.treeValid := rfl
@[simp] theorem setFcnt_dictValid (c : Vector (BitVec 17) 256) : (s.setFcnt c).dictValid = s.dictValid := rfl
@[simp] theorem setFcnt_code (c : Vector (BitVec 17) 256) : (s.setFcnt c).code = s.code := rfl
@[simp] theorem setFcnt_lastOp (c : Vector (BitVec 17) 256) : (s.setFcnt c).lastOp = s.lastOp := rfl
@[simp] theorem setFcnt_opa (c : Vector (BitVec 17) 256) : (s.setFcnt c).opa = s.opa := rfl
@[simp] theorem setFcnt_opb (c : Vector (BitVec 17) 256) : (s.setFcnt c).opb = s.opb := rfl
@[simp] theorem setFcnt_res0 (c : Vector (BitVec 17) 256) : (s.setFcnt c).res0 = s.res0 := rfl
@[simp] theorem setFcnt_res1 (c : Vector (BitVec 17) 256) : (s.setFcnt c).res1 = s.res1 := rfl
@[simp] theorem setFcnt_res2 (c : Vector (BitVec 17) 256) : (s.setFcnt c).res2 = s.res2 := rfl
@[simp] theorem setFcnt_rawLen (c : Vector (BitVec 17) 256) : (s.setFcnt c).rawLen = s.rawLen := rfl
@[simp] theorem setFcnt_payLen (c : Vector (BitVec 17) 256) : (s.setFcnt c).payLen = s.payLen := rfl
@[simp] theorem setFcnt_frmLen (c : Vector (BitVec 17) 256) : (s.setFcnt c).frmLen = s.frmLen := rfl
@[simp] theorem setFcnt_frmUsed (c : Vector (BitVec 17) 256) : (s.setFcnt c).frmUsed = s.frmUsed := rfl
@[simp] theorem setFcnt_flistLen (c : Vector (BitVec 17) 256) : (s.setFcnt c).flistLen = s.flistLen := rfl
@[simp] theorem setFcnt_mem (c : Vector (BitVec 17) 256) : (s.setFcnt c).mem = s.mem := rfl
@[simp] theorem setFcnt_fcnt (c : Vector (BitVec 17) 256) : (s.setFcnt c).fcnt = c := rfl
@[simp] theorem setFcnt_flist (c : Vector (BitVec 17) 256) : (s.setFcnt c).flist = s.flist := rfl
@[simp] theorem setFcnt_pq (c : Vector (BitVec 17) 256) : (s.setFcnt c).pq = s.pq := rfl
@[simp] theorem setFcnt_pqSerial (c : Vector (BitVec 17) 256) : (s.setFcnt c).pqSerial = s.pqSerial := rfl
@[simp] theorem setFcnt_tree (c : Vector (BitVec 17) 256) : (s.setFcnt c).tree = s.tree := rfl
@[simp] theorem setFcnt_treeRoot (c : Vector (BitVec 17) 256) : (s.setFcnt c).treeRoot = s.treeRoot := rfl
@[simp] theorem setFcnt_treeNodes (c : Vector (BitVec 17) 256) : (s.setFcnt c).treeNodes = s.treeNodes := rfl
@[simp] theorem setFcnt_dict (c : Vector (BitVec 17) 256) : (s.setFcnt c).dict = s.dict := rfl
@[simp] theorem setFcnt_host (c : Vector (BitVec 17) 256) : (s.setFcnt c).host = s.host := rfl
@[simp] theorem setFcnt_reads (c : Vector (BitVec 17) 256) : (s.setFcnt c).reads = s.reads := rfl
@[simp] theorem setFcnt_drawn (c : Vector (BitVec 17) 256) : (s.setFcnt c).drawn = s.drawn := rfl

/-! ### `setFlist` -/

@[simp] theorem setFlist_eng (l : Vector FreqEntry 256) (n : Nat) : (s.setFlist l n).eng = s.eng := rfl
@[simp] theorem setFlist_done (l : Vector FreqEntry 256) (n : Nat) : (s.setFlist l n).done = s.done := rfl
@[simp] theorem setFlist_err (l : Vector FreqEntry 256) (n : Nat) : (s.setFlist l n).err = s.err := rfl
@[simp] theorem setFlist_anyErr (l : Vector FreqEntry 256) (n : Nat) : (s.setFlist l n).anyErr = s.anyErr := rfl
@[simp] theorem setFlist_treeValid (l : Vector FreqEntry 256) (n : Nat) : (s.setFlist l n).treeValid = s.treeValid := rfl
@[simp] theorem setFlist_dictValid (l : Vector FreqEntry 256) (n : Nat) : (s.setFlist l n).dictValid = s.dictValid := rfl
@[simp] theorem setFlist_code (l : Vector FreqEntry 256) (n : Nat) : (s.setFlist l n).code = s.code := rfl
@[simp] theorem setFlist_lastOp (l : Vector FreqEntry 256) (n : Nat) : (s.setFlist l n).lastOp = s.lastOp := rfl
@[simp] theorem setFlist_opa (l : Vector FreqEntry 256) (n : Nat) : (s.setFlist l n).opa = s.opa := rfl
@[simp] theorem setFlist_opb (l : Vector FreqEntry 256) (n : Nat) : (s.setFlist l n).opb = s.opb := rfl
@[simp] theorem setFlist_res0 (l : Vector FreqEntry 256) (n : Nat) : (s.setFlist l n).res0 = s.res0 := rfl
@[simp] theorem setFlist_res1 (l : Vector FreqEntry 256) (n : Nat) : (s.setFlist l n).res1 = s.res1 := rfl
@[simp] theorem setFlist_res2 (l : Vector FreqEntry 256) (n : Nat) : (s.setFlist l n).res2 = s.res2 := rfl
@[simp] theorem setFlist_rawLen (l : Vector FreqEntry 256) (n : Nat) : (s.setFlist l n).rawLen = s.rawLen := rfl
@[simp] theorem setFlist_payLen (l : Vector FreqEntry 256) (n : Nat) : (s.setFlist l n).payLen = s.payLen := rfl
@[simp] theorem setFlist_frmLen (l : Vector FreqEntry 256) (n : Nat) : (s.setFlist l n).frmLen = s.frmLen := rfl
@[simp] theorem setFlist_frmUsed (l : Vector FreqEntry 256) (n : Nat) : (s.setFlist l n).frmUsed = s.frmUsed := rfl
@[simp] theorem setFlist_flistLen (l : Vector FreqEntry 256) (n : Nat) : (s.setFlist l n).flistLen = BitVec.ofNat 9 n := rfl
@[simp] theorem setFlist_mem (l : Vector FreqEntry 256) (n : Nat) : (s.setFlist l n).mem = s.mem := rfl
@[simp] theorem setFlist_fcnt (l : Vector FreqEntry 256) (n : Nat) : (s.setFlist l n).fcnt = s.fcnt := rfl
@[simp] theorem setFlist_flist (l : Vector FreqEntry 256) (n : Nat) : (s.setFlist l n).flist = l := rfl
@[simp] theorem setFlist_pq (l : Vector FreqEntry 256) (n : Nat) : (s.setFlist l n).pq = s.pq := rfl
@[simp] theorem setFlist_pqSerial (l : Vector FreqEntry 256) (n : Nat) : (s.setFlist l n).pqSerial = s.pqSerial := rfl
@[simp] theorem setFlist_tree (l : Vector FreqEntry 256) (n : Nat) : (s.setFlist l n).tree = s.tree := rfl
@[simp] theorem setFlist_treeRoot (l : Vector FreqEntry 256) (n : Nat) : (s.setFlist l n).treeRoot = s.treeRoot := rfl
@[simp] theorem setFlist_treeNodes (l : Vector FreqEntry 256) (n : Nat) : (s.setFlist l n).treeNodes = s.treeNodes := rfl
@[simp] theorem setFlist_dict (l : Vector FreqEntry 256) (n : Nat) : (s.setFlist l n).dict = s.dict := rfl
@[simp] theorem setFlist_host (l : Vector FreqEntry 256) (n : Nat) : (s.setFlist l n).host = s.host := rfl
@[simp] theorem setFlist_reads (l : Vector FreqEntry 256) (n : Nat) : (s.setFlist l n).reads = s.reads := rfl
@[simp] theorem setFlist_drawn (l : Vector FreqEntry 256) (n : Nat) : (s.setFlist l n).drawn = s.drawn := rfl

/-! ### `setTree` -/

@[simp] theorem setTree_eng (t : Vector Node 511) (r : BitVec 9) (n : Nat) : (s.setTree t r n).eng = s.eng := rfl
@[simp] theorem setTree_done (t : Vector Node 511) (r : BitVec 9) (n : Nat) : (s.setTree t r n).done = s.done := rfl
@[simp] theorem setTree_err (t : Vector Node 511) (r : BitVec 9) (n : Nat) : (s.setTree t r n).err = s.err := rfl
@[simp] theorem setTree_anyErr (t : Vector Node 511) (r : BitVec 9) (n : Nat) : (s.setTree t r n).anyErr = s.anyErr := rfl
@[simp] theorem setTree_treeValid (t : Vector Node 511) (r : BitVec 9) (n : Nat) : (s.setTree t r n).treeValid = true := rfl
@[simp] theorem setTree_dictValid (t : Vector Node 511) (r : BitVec 9) (n : Nat) : (s.setTree t r n).dictValid = false := rfl
@[simp] theorem setTree_code (t : Vector Node 511) (r : BitVec 9) (n : Nat) : (s.setTree t r n).code = s.code := rfl
@[simp] theorem setTree_lastOp (t : Vector Node 511) (r : BitVec 9) (n : Nat) : (s.setTree t r n).lastOp = s.lastOp := rfl
@[simp] theorem setTree_opa (t : Vector Node 511) (r : BitVec 9) (n : Nat) : (s.setTree t r n).opa = s.opa := rfl
@[simp] theorem setTree_opb (t : Vector Node 511) (r : BitVec 9) (n : Nat) : (s.setTree t r n).opb = s.opb := rfl
@[simp] theorem setTree_res0 (t : Vector Node 511) (r : BitVec 9) (n : Nat) : (s.setTree t r n).res0 = s.res0 := rfl
@[simp] theorem setTree_res1 (t : Vector Node 511) (r : BitVec 9) (n : Nat) : (s.setTree t r n).res1 = s.res1 := rfl
@[simp] theorem setTree_res2 (t : Vector Node 511) (r : BitVec 9) (n : Nat) : (s.setTree t r n).res2 = s.res2 := rfl
@[simp] theorem setTree_rawLen (t : Vector Node 511) (r : BitVec 9) (n : Nat) : (s.setTree t r n).rawLen = s.rawLen := rfl
@[simp] theorem setTree_payLen (t : Vector Node 511) (r : BitVec 9) (n : Nat) : (s.setTree t r n).payLen = s.payLen := rfl
@[simp] theorem setTree_frmLen (t : Vector Node 511) (r : BitVec 9) (n : Nat) : (s.setTree t r n).frmLen = s.frmLen := rfl
@[simp] theorem setTree_frmUsed (t : Vector Node 511) (r : BitVec 9) (n : Nat) : (s.setTree t r n).frmUsed = s.frmUsed := rfl
@[simp] theorem setTree_flistLen (t : Vector Node 511) (r : BitVec 9) (n : Nat) : (s.setTree t r n).flistLen = s.flistLen := rfl
@[simp] theorem setTree_mem (t : Vector Node 511) (r : BitVec 9) (n : Nat) : (s.setTree t r n).mem = s.mem := rfl
@[simp] theorem setTree_fcnt (t : Vector Node 511) (r : BitVec 9) (n : Nat) : (s.setTree t r n).fcnt = s.fcnt := rfl
@[simp] theorem setTree_flist (t : Vector Node 511) (r : BitVec 9) (n : Nat) : (s.setTree t r n).flist = s.flist := rfl
@[simp] theorem setTree_pq (t : Vector Node 511) (r : BitVec 9) (n : Nat) : (s.setTree t r n).pq = s.pq := rfl
@[simp] theorem setTree_pqSerial (t : Vector Node 511) (r : BitVec 9) (n : Nat) : (s.setTree t r n).pqSerial = s.pqSerial := rfl
@[simp] theorem setTree_tree (t : Vector Node 511) (r : BitVec 9) (n : Nat) : (s.setTree t r n).tree = t := rfl
@[simp] theorem setTree_treeRoot (t : Vector Node 511) (r : BitVec 9) (n : Nat) : (s.setTree t r n).treeRoot = r := rfl
@[simp] theorem setTree_treeNodes (t : Vector Node 511) (r : BitVec 9) (n : Nat) : (s.setTree t r n).treeNodes = BitVec.ofNat 10 n := rfl
@[simp] theorem setTree_dict (t : Vector Node 511) (r : BitVec 9) (n : Nat) : (s.setTree t r n).dict = s.dict := rfl
@[simp] theorem setTree_host (t : Vector Node 511) (r : BitVec 9) (n : Nat) : (s.setTree t r n).host = s.host := rfl
@[simp] theorem setTree_reads (t : Vector Node 511) (r : BitVec 9) (n : Nat) : (s.setTree t r n).reads = s.reads := rfl
@[simp] theorem setTree_drawn (t : Vector Node 511) (r : BitVec 9) (n : Nat) : (s.setTree t r n).drawn = s.drawn := rfl

/-! ### `setDict` -/

@[simp] theorem setDict_eng (d : Vector DictEntry 256) (v : Bool) : (s.setDict d v).eng = s.eng := rfl
@[simp] theorem setDict_done (d : Vector DictEntry 256) (v : Bool) : (s.setDict d v).done = s.done := rfl
@[simp] theorem setDict_err (d : Vector DictEntry 256) (v : Bool) : (s.setDict d v).err = s.err := rfl
@[simp] theorem setDict_anyErr (d : Vector DictEntry 256) (v : Bool) : (s.setDict d v).anyErr = s.anyErr := rfl
@[simp] theorem setDict_treeValid (d : Vector DictEntry 256) (v : Bool) : (s.setDict d v).treeValid = s.treeValid := rfl
@[simp] theorem setDict_dictValid (d : Vector DictEntry 256) (v : Bool) : (s.setDict d v).dictValid = v := rfl
@[simp] theorem setDict_code (d : Vector DictEntry 256) (v : Bool) : (s.setDict d v).code = s.code := rfl
@[simp] theorem setDict_lastOp (d : Vector DictEntry 256) (v : Bool) : (s.setDict d v).lastOp = s.lastOp := rfl
@[simp] theorem setDict_opa (d : Vector DictEntry 256) (v : Bool) : (s.setDict d v).opa = s.opa := rfl
@[simp] theorem setDict_opb (d : Vector DictEntry 256) (v : Bool) : (s.setDict d v).opb = s.opb := rfl
@[simp] theorem setDict_res0 (d : Vector DictEntry 256) (v : Bool) : (s.setDict d v).res0 = s.res0 := rfl
@[simp] theorem setDict_res1 (d : Vector DictEntry 256) (v : Bool) : (s.setDict d v).res1 = s.res1 := rfl
@[simp] theorem setDict_res2 (d : Vector DictEntry 256) (v : Bool) : (s.setDict d v).res2 = s.res2 := rfl
@[simp] theorem setDict_rawLen (d : Vector DictEntry 256) (v : Bool) : (s.setDict d v).rawLen = s.rawLen := rfl
@[simp] theorem setDict_payLen (d : Vector DictEntry 256) (v : Bool) : (s.setDict d v).payLen = s.payLen := rfl
@[simp] theorem setDict_frmLen (d : Vector DictEntry 256) (v : Bool) : (s.setDict d v).frmLen = s.frmLen := rfl
@[simp] theorem setDict_frmUsed (d : Vector DictEntry 256) (v : Bool) : (s.setDict d v).frmUsed = s.frmUsed := rfl
@[simp] theorem setDict_flistLen (d : Vector DictEntry 256) (v : Bool) : (s.setDict d v).flistLen = s.flistLen := rfl
@[simp] theorem setDict_mem (d : Vector DictEntry 256) (v : Bool) : (s.setDict d v).mem = s.mem := rfl
@[simp] theorem setDict_fcnt (d : Vector DictEntry 256) (v : Bool) : (s.setDict d v).fcnt = s.fcnt := rfl
@[simp] theorem setDict_flist (d : Vector DictEntry 256) (v : Bool) : (s.setDict d v).flist = s.flist := rfl
@[simp] theorem setDict_pq (d : Vector DictEntry 256) (v : Bool) : (s.setDict d v).pq = s.pq := rfl
@[simp] theorem setDict_pqSerial (d : Vector DictEntry 256) (v : Bool) : (s.setDict d v).pqSerial = s.pqSerial := rfl
@[simp] theorem setDict_tree (d : Vector DictEntry 256) (v : Bool) : (s.setDict d v).tree = s.tree := rfl
@[simp] theorem setDict_treeRoot (d : Vector DictEntry 256) (v : Bool) : (s.setDict d v).treeRoot = s.treeRoot := rfl
@[simp] theorem setDict_treeNodes (d : Vector DictEntry 256) (v : Bool) : (s.setDict d v).treeNodes = s.treeNodes := rfl
@[simp] theorem setDict_dict (d : Vector DictEntry 256) (v : Bool) : (s.setDict d v).dict = d := rfl
@[simp] theorem setDict_host (d : Vector DictEntry 256) (v : Bool) : (s.setDict d v).host = s.host := rfl
@[simp] theorem setDict_reads (d : Vector DictEntry 256) (v : Bool) : (s.setDict d v).reads = s.reads := rfl
@[simp] theorem setDict_drawn (d : Vector DictEntry 256) (v : Bool) : (s.setDict d v).drawn = s.drawn := rfl

/-! ### `setRawLen` -/

@[simp] theorem setRawLen_eng (n : Nat) : (s.setRawLen n).eng = s.eng := rfl
@[simp] theorem setRawLen_done (n : Nat) : (s.setRawLen n).done = s.done := rfl
@[simp] theorem setRawLen_err (n : Nat) : (s.setRawLen n).err = s.err := rfl
@[simp] theorem setRawLen_anyErr (n : Nat) : (s.setRawLen n).anyErr = s.anyErr := rfl
@[simp] theorem setRawLen_treeValid (n : Nat) : (s.setRawLen n).treeValid = s.treeValid := rfl
@[simp] theorem setRawLen_dictValid (n : Nat) : (s.setRawLen n).dictValid = s.dictValid := rfl
@[simp] theorem setRawLen_code (n : Nat) : (s.setRawLen n).code = s.code := rfl
@[simp] theorem setRawLen_lastOp (n : Nat) : (s.setRawLen n).lastOp = s.lastOp := rfl
@[simp] theorem setRawLen_opa (n : Nat) : (s.setRawLen n).opa = s.opa := rfl
@[simp] theorem setRawLen_opb (n : Nat) : (s.setRawLen n).opb = s.opb := rfl
@[simp] theorem setRawLen_res0 (n : Nat) : (s.setRawLen n).res0 = s.res0 := rfl
@[simp] theorem setRawLen_res1 (n : Nat) : (s.setRawLen n).res1 = s.res1 := rfl
@[simp] theorem setRawLen_res2 (n : Nat) : (s.setRawLen n).res2 = s.res2 := rfl
@[simp] theorem setRawLen_rawLen (n : Nat) : (s.setRawLen n).rawLen = BitVec.ofNat 17 n := rfl
@[simp] theorem setRawLen_payLen (n : Nat) : (s.setRawLen n).payLen = s.payLen := rfl
@[simp] theorem setRawLen_frmLen (n : Nat) : (s.setRawLen n).frmLen = s.frmLen := rfl
@[simp] theorem setRawLen_frmUsed (n : Nat) : (s.setRawLen n).frmUsed = s.frmUsed := rfl
@[simp] theorem setRawLen_flistLen (n : Nat) : (s.setRawLen n).flistLen = s.flistLen := rfl
@[simp] theorem setRawLen_mem (n : Nat) : (s.setRawLen n).mem = s.mem := rfl
@[simp] theorem setRawLen_fcnt (n : Nat) : (s.setRawLen n).fcnt = s.fcnt := rfl
@[simp] theorem setRawLen_flist (n : Nat) : (s.setRawLen n).flist = s.flist := rfl
@[simp] theorem setRawLen_pq (n : Nat) : (s.setRawLen n).pq = s.pq := rfl
@[simp] theorem setRawLen_pqSerial (n : Nat) : (s.setRawLen n).pqSerial = s.pqSerial := rfl
@[simp] theorem setRawLen_tree (n : Nat) : (s.setRawLen n).tree = s.tree := rfl
@[simp] theorem setRawLen_treeRoot (n : Nat) : (s.setRawLen n).treeRoot = s.treeRoot := rfl
@[simp] theorem setRawLen_treeNodes (n : Nat) : (s.setRawLen n).treeNodes = s.treeNodes := rfl
@[simp] theorem setRawLen_dict (n : Nat) : (s.setRawLen n).dict = s.dict := rfl
@[simp] theorem setRawLen_host (n : Nat) : (s.setRawLen n).host = s.host := rfl
@[simp] theorem setRawLen_reads (n : Nat) : (s.setRawLen n).reads = s.reads := rfl
@[simp] theorem setRawLen_drawn (n : Nat) : (s.setRawLen n).drawn = s.drawn := rfl

/-! ### `setPayLen` -/

@[simp] theorem setPayLen_eng (n : Nat) : (s.setPayLen n).eng = s.eng := rfl
@[simp] theorem setPayLen_done (n : Nat) : (s.setPayLen n).done = s.done := rfl
@[simp] theorem setPayLen_err (n : Nat) : (s.setPayLen n).err = s.err := rfl
@[simp] theorem setPayLen_anyErr (n : Nat) : (s.setPayLen n).anyErr = s.anyErr := rfl
@[simp] theorem setPayLen_treeValid (n : Nat) : (s.setPayLen n).treeValid = s.treeValid := rfl
@[simp] theorem setPayLen_dictValid (n : Nat) : (s.setPayLen n).dictValid = s.dictValid := rfl
@[simp] theorem setPayLen_code (n : Nat) : (s.setPayLen n).code = s.code := rfl
@[simp] theorem setPayLen_lastOp (n : Nat) : (s.setPayLen n).lastOp = s.lastOp := rfl
@[simp] theorem setPayLen_opa (n : Nat) : (s.setPayLen n).opa = s.opa := rfl
@[simp] theorem setPayLen_opb (n : Nat) : (s.setPayLen n).opb = s.opb := rfl
@[simp] theorem setPayLen_res0 (n : Nat) : (s.setPayLen n).res0 = s.res0 := rfl
@[simp] theorem setPayLen_res1 (n : Nat) : (s.setPayLen n).res1 = s.res1 := rfl
@[simp] theorem setPayLen_res2 (n : Nat) : (s.setPayLen n).res2 = s.res2 := rfl
@[simp] theorem setPayLen_rawLen (n : Nat) : (s.setPayLen n).rawLen = s.rawLen := rfl
@[simp] theorem setPayLen_payLen (n : Nat) : (s.setPayLen n).payLen = BitVec.ofNat 17 n := rfl
@[simp] theorem setPayLen_frmLen (n : Nat) : (s.setPayLen n).frmLen = s.frmLen := rfl
@[simp] theorem setPayLen_frmUsed (n : Nat) : (s.setPayLen n).frmUsed = s.frmUsed := rfl
@[simp] theorem setPayLen_flistLen (n : Nat) : (s.setPayLen n).flistLen = s.flistLen := rfl
@[simp] theorem setPayLen_mem (n : Nat) : (s.setPayLen n).mem = s.mem := rfl
@[simp] theorem setPayLen_fcnt (n : Nat) : (s.setPayLen n).fcnt = s.fcnt := rfl
@[simp] theorem setPayLen_flist (n : Nat) : (s.setPayLen n).flist = s.flist := rfl
@[simp] theorem setPayLen_pq (n : Nat) : (s.setPayLen n).pq = s.pq := rfl
@[simp] theorem setPayLen_pqSerial (n : Nat) : (s.setPayLen n).pqSerial = s.pqSerial := rfl
@[simp] theorem setPayLen_tree (n : Nat) : (s.setPayLen n).tree = s.tree := rfl
@[simp] theorem setPayLen_treeRoot (n : Nat) : (s.setPayLen n).treeRoot = s.treeRoot := rfl
@[simp] theorem setPayLen_treeNodes (n : Nat) : (s.setPayLen n).treeNodes = s.treeNodes := rfl
@[simp] theorem setPayLen_dict (n : Nat) : (s.setPayLen n).dict = s.dict := rfl
@[simp] theorem setPayLen_host (n : Nat) : (s.setPayLen n).host = s.host := rfl
@[simp] theorem setPayLen_reads (n : Nat) : (s.setPayLen n).reads = s.reads := rfl
@[simp] theorem setPayLen_drawn (n : Nat) : (s.setPayLen n).drawn = s.drawn := rfl

/-! ### `setFrmLen` -/

@[simp] theorem setFrmLen_eng (n : Nat) : (s.setFrmLen n).eng = s.eng := rfl
@[simp] theorem setFrmLen_done (n : Nat) : (s.setFrmLen n).done = s.done := rfl
@[simp] theorem setFrmLen_err (n : Nat) : (s.setFrmLen n).err = s.err := rfl
@[simp] theorem setFrmLen_anyErr (n : Nat) : (s.setFrmLen n).anyErr = s.anyErr := rfl
@[simp] theorem setFrmLen_treeValid (n : Nat) : (s.setFrmLen n).treeValid = s.treeValid := rfl
@[simp] theorem setFrmLen_dictValid (n : Nat) : (s.setFrmLen n).dictValid = s.dictValid := rfl
@[simp] theorem setFrmLen_code (n : Nat) : (s.setFrmLen n).code = s.code := rfl
@[simp] theorem setFrmLen_lastOp (n : Nat) : (s.setFrmLen n).lastOp = s.lastOp := rfl
@[simp] theorem setFrmLen_opa (n : Nat) : (s.setFrmLen n).opa = s.opa := rfl
@[simp] theorem setFrmLen_opb (n : Nat) : (s.setFrmLen n).opb = s.opb := rfl
@[simp] theorem setFrmLen_res0 (n : Nat) : (s.setFrmLen n).res0 = s.res0 := rfl
@[simp] theorem setFrmLen_res1 (n : Nat) : (s.setFrmLen n).res1 = s.res1 := rfl
@[simp] theorem setFrmLen_res2 (n : Nat) : (s.setFrmLen n).res2 = s.res2 := rfl
@[simp] theorem setFrmLen_rawLen (n : Nat) : (s.setFrmLen n).rawLen = s.rawLen := rfl
@[simp] theorem setFrmLen_payLen (n : Nat) : (s.setFrmLen n).payLen = s.payLen := rfl
@[simp] theorem setFrmLen_frmLen (n : Nat) : (s.setFrmLen n).frmLen = BitVec.ofNat 17 n := rfl
@[simp] theorem setFrmLen_frmUsed (n : Nat) : (s.setFrmLen n).frmUsed = s.frmUsed := rfl
@[simp] theorem setFrmLen_flistLen (n : Nat) : (s.setFrmLen n).flistLen = s.flistLen := rfl
@[simp] theorem setFrmLen_mem (n : Nat) : (s.setFrmLen n).mem = s.mem := rfl
@[simp] theorem setFrmLen_fcnt (n : Nat) : (s.setFrmLen n).fcnt = s.fcnt := rfl
@[simp] theorem setFrmLen_flist (n : Nat) : (s.setFrmLen n).flist = s.flist := rfl
@[simp] theorem setFrmLen_pq (n : Nat) : (s.setFrmLen n).pq = s.pq := rfl
@[simp] theorem setFrmLen_pqSerial (n : Nat) : (s.setFrmLen n).pqSerial = s.pqSerial := rfl
@[simp] theorem setFrmLen_tree (n : Nat) : (s.setFrmLen n).tree = s.tree := rfl
@[simp] theorem setFrmLen_treeRoot (n : Nat) : (s.setFrmLen n).treeRoot = s.treeRoot := rfl
@[simp] theorem setFrmLen_treeNodes (n : Nat) : (s.setFrmLen n).treeNodes = s.treeNodes := rfl
@[simp] theorem setFrmLen_dict (n : Nat) : (s.setFrmLen n).dict = s.dict := rfl
@[simp] theorem setFrmLen_host (n : Nat) : (s.setFrmLen n).host = s.host := rfl
@[simp] theorem setFrmLen_reads (n : Nat) : (s.setFrmLen n).reads = s.reads := rfl
@[simp] theorem setFrmLen_drawn (n : Nat) : (s.setFrmLen n).drawn = s.drawn := rfl

/-! ### `setFrmUsed` -/

@[simp] theorem setFrmUsed_eng (n : Nat) : (s.setFrmUsed n).eng = s.eng := rfl
@[simp] theorem setFrmUsed_done (n : Nat) : (s.setFrmUsed n).done = s.done := rfl
@[simp] theorem setFrmUsed_err (n : Nat) : (s.setFrmUsed n).err = s.err := rfl
@[simp] theorem setFrmUsed_anyErr (n : Nat) : (s.setFrmUsed n).anyErr = s.anyErr := rfl
@[simp] theorem setFrmUsed_treeValid (n : Nat) : (s.setFrmUsed n).treeValid = s.treeValid := rfl
@[simp] theorem setFrmUsed_dictValid (n : Nat) : (s.setFrmUsed n).dictValid = s.dictValid := rfl
@[simp] theorem setFrmUsed_code (n : Nat) : (s.setFrmUsed n).code = s.code := rfl
@[simp] theorem setFrmUsed_lastOp (n : Nat) : (s.setFrmUsed n).lastOp = s.lastOp := rfl
@[simp] theorem setFrmUsed_opa (n : Nat) : (s.setFrmUsed n).opa = s.opa := rfl
@[simp] theorem setFrmUsed_opb (n : Nat) : (s.setFrmUsed n).opb = s.opb := rfl
@[simp] theorem setFrmUsed_res0 (n : Nat) : (s.setFrmUsed n).res0 = s.res0 := rfl
@[simp] theorem setFrmUsed_res1 (n : Nat) : (s.setFrmUsed n).res1 = s.res1 := rfl
@[simp] theorem setFrmUsed_res2 (n : Nat) : (s.setFrmUsed n).res2 = s.res2 := rfl
@[simp] theorem setFrmUsed_rawLen (n : Nat) : (s.setFrmUsed n).rawLen = s.rawLen := rfl
@[simp] theorem setFrmUsed_payLen (n : Nat) : (s.setFrmUsed n).payLen = s.payLen := rfl
@[simp] theorem setFrmUsed_frmLen (n : Nat) : (s.setFrmUsed n).frmLen = s.frmLen := rfl
@[simp] theorem setFrmUsed_frmUsed (n : Nat) : (s.setFrmUsed n).frmUsed = BitVec.ofNat 17 n := rfl
@[simp] theorem setFrmUsed_flistLen (n : Nat) : (s.setFrmUsed n).flistLen = s.flistLen := rfl
@[simp] theorem setFrmUsed_mem (n : Nat) : (s.setFrmUsed n).mem = s.mem := rfl
@[simp] theorem setFrmUsed_fcnt (n : Nat) : (s.setFrmUsed n).fcnt = s.fcnt := rfl
@[simp] theorem setFrmUsed_flist (n : Nat) : (s.setFrmUsed n).flist = s.flist := rfl
@[simp] theorem setFrmUsed_pq (n : Nat) : (s.setFrmUsed n).pq = s.pq := rfl
@[simp] theorem setFrmUsed_pqSerial (n : Nat) : (s.setFrmUsed n).pqSerial = s.pqSerial := rfl
@[simp] theorem setFrmUsed_tree (n : Nat) : (s.setFrmUsed n).tree = s.tree := rfl
@[simp] theorem setFrmUsed_treeRoot (n : Nat) : (s.setFrmUsed n).treeRoot = s.treeRoot := rfl
@[simp] theorem setFrmUsed_treeNodes (n : Nat) : (s.setFrmUsed n).treeNodes = s.treeNodes := rfl
@[simp] theorem setFrmUsed_dict (n : Nat) : (s.setFrmUsed n).dict = s.dict := rfl
@[simp] theorem setFrmUsed_host (n : Nat) : (s.setFrmUsed n).host = s.host := rfl
@[simp] theorem setFrmUsed_reads (n : Nat) : (s.setFrmUsed n).reads = s.reads := rfl
@[simp] theorem setFrmUsed_drawn (n : Nat) : (s.setFrmUsed n).drawn = s.drawn := rfl

/-! ### `startCommand` -/

@[simp] theorem startCommand_eng (w : Word) (k : Nat) : (s.startCommand w k).eng = .busy w k := rfl
@[simp] theorem startCommand_done (w : Word) (k : Nat) : (s.startCommand w k).done = false := rfl
@[simp] theorem startCommand_err (w : Word) (k : Nat) : (s.startCommand w k).err = false := rfl
@[simp] theorem startCommand_anyErr (w : Word) (k : Nat) : (s.startCommand w k).anyErr = s.anyErr := rfl
@[simp] theorem startCommand_treeValid (w : Word) (k : Nat) : (s.startCommand w k).treeValid = s.treeValid := rfl
@[simp] theorem startCommand_dictValid (w : Word) (k : Nat) : (s.startCommand w k).dictValid = s.dictValid := rfl
@[simp] theorem startCommand_code (w : Word) (k : Nat) : (s.startCommand w k).code = .ok := rfl
@[simp] theorem startCommand_lastOp (w : Word) (k : Nat) : (s.startCommand w k).lastOp = w.setWidth 8 := rfl
@[simp] theorem startCommand_opa (w : Word) (k : Nat) : (s.startCommand w k).opa = s.opa := rfl
@[simp] theorem startCommand_opb (w : Word) (k : Nat) : (s.startCommand w k).opb = s.opb := rfl
@[simp] theorem startCommand_res0 (w : Word) (k : Nat) : (s.startCommand w k).res0 = s.res0 := rfl
@[simp] theorem startCommand_res1 (w : Word) (k : Nat) : (s.startCommand w k).res1 = s.res1 := rfl
@[simp] theorem startCommand_res2 (w : Word) (k : Nat) : (s.startCommand w k).res2 = s.res2 := rfl
@[simp] theorem startCommand_rawLen (w : Word) (k : Nat) : (s.startCommand w k).rawLen = s.rawLen := rfl
@[simp] theorem startCommand_payLen (w : Word) (k : Nat) : (s.startCommand w k).payLen = s.payLen := rfl
@[simp] theorem startCommand_frmLen (w : Word) (k : Nat) : (s.startCommand w k).frmLen = s.frmLen := rfl
@[simp] theorem startCommand_frmUsed (w : Word) (k : Nat) : (s.startCommand w k).frmUsed = s.frmUsed := rfl
@[simp] theorem startCommand_flistLen (w : Word) (k : Nat) : (s.startCommand w k).flistLen = s.flistLen := rfl
@[simp] theorem startCommand_mem (w : Word) (k : Nat) : (s.startCommand w k).mem = s.mem := rfl
@[simp] theorem startCommand_fcnt (w : Word) (k : Nat) : (s.startCommand w k).fcnt = s.fcnt := rfl
@[simp] theorem startCommand_flist (w : Word) (k : Nat) : (s.startCommand w k).flist = s.flist := rfl
@[simp] theorem startCommand_pq (w : Word) (k : Nat) : (s.startCommand w k).pq = s.pq := rfl
@[simp] theorem startCommand_pqSerial (w : Word) (k : Nat) : (s.startCommand w k).pqSerial = s.pqSerial := rfl
@[simp] theorem startCommand_tree (w : Word) (k : Nat) : (s.startCommand w k).tree = s.tree := rfl
@[simp] theorem startCommand_treeRoot (w : Word) (k : Nat) : (s.startCommand w k).treeRoot = s.treeRoot := rfl
@[simp] theorem startCommand_treeNodes (w : Word) (k : Nat) : (s.startCommand w k).treeNodes = s.treeNodes := rfl
@[simp] theorem startCommand_dict (w : Word) (k : Nat) : (s.startCommand w k).dict = s.dict := rfl
@[simp] theorem startCommand_host (w : Word) (k : Nat) : (s.startCommand w k).host = s.host := rfl
@[simp] theorem startCommand_reads (w : Word) (k : Nat) : (s.startCommand w k).reads = s.reads := rfl
@[simp] theorem startCommand_drawn (w : Word) (k : Nat) : (s.startCommand w k).drawn = s.drawn := rfl

/-! ### `finish` -/

@[simp] theorem finish_eng (c : Code) : (s.finish c).eng = .idle := rfl
@[simp] theorem finish_done (c : Code) : (s.finish c).done = true := rfl
@[simp] theorem finish_err (c : Code) : (s.finish c).err = false := rfl
@[simp] theorem finish_anyErr (c : Code) : (s.finish c).anyErr = s.anyErr := rfl
@[simp] theorem finish_treeValid (c : Code) : (s.finish c).treeValid = s.treeValid := rfl
@[simp] theorem finish_dictValid (c : Code) : (s.finish c).dictValid = s.dictValid := rfl
@[simp] theorem finish_code (c : Code) : (s.finish c).code = c := rfl
@[simp] theorem finish_lastOp (c : Code) : (s.finish c).lastOp = s.lastOp := rfl
@[simp] theorem finish_opa (c : Code) : (s.finish c).opa = s.opa := rfl
@[simp] theorem finish_opb (c : Code) : (s.finish c).opb = s.opb := rfl
@[simp] theorem finish_res0 (c : Code) : (s.finish c).res0 = s.res0 := rfl
@[simp] theorem finish_res1 (c : Code) : (s.finish c).res1 = s.res1 := rfl
@[simp] theorem finish_res2 (c : Code) : (s.finish c).res2 = s.res2 := rfl
@[simp] theorem finish_rawLen (c : Code) : (s.finish c).rawLen = s.rawLen := rfl
@[simp] theorem finish_payLen (c : Code) : (s.finish c).payLen = s.payLen := rfl
@[simp] theorem finish_frmLen (c : Code) : (s.finish c).frmLen = s.frmLen := rfl
@[simp] theorem finish_frmUsed (c : Code) : (s.finish c).frmUsed = s.frmUsed := rfl
@[simp] theorem finish_flistLen (c : Code) : (s.finish c).flistLen = s.flistLen := rfl
@[simp] theorem finish_mem (c : Code) : (s.finish c).mem = s.mem := rfl
@[simp] theorem finish_fcnt (c : Code) : (s.finish c).fcnt = s.fcnt := rfl
@[simp] theorem finish_flist (c : Code) : (s.finish c).flist = s.flist := rfl
@[simp] theorem finish_pq (c : Code) : (s.finish c).pq = s.pq := rfl
@[simp] theorem finish_pqSerial (c : Code) : (s.finish c).pqSerial = s.pqSerial := rfl
@[simp] theorem finish_tree (c : Code) : (s.finish c).tree = s.tree := rfl
@[simp] theorem finish_treeRoot (c : Code) : (s.finish c).treeRoot = s.treeRoot := rfl
@[simp] theorem finish_treeNodes (c : Code) : (s.finish c).treeNodes = s.treeNodes := rfl
@[simp] theorem finish_dict (c : Code) : (s.finish c).dict = s.dict := rfl
@[simp] theorem finish_host (c : Code) : (s.finish c).host = s.host := rfl
@[simp] theorem finish_reads (c : Code) : (s.finish c).reads = s.reads := rfl
@[simp] theorem finish_drawn (c : Code) : (s.finish c).drawn = s.drawn := rfl

/-! ### `raise` -/

@[simp] theorem raise_eng (c : Code) : (s.raise c).eng = .idle := rfl
@[simp] theorem raise_done (c : Code) : (s.raise c).done = true := rfl
@[simp] theorem raise_err (c : Code) : (s.raise c).err = true := rfl
@[simp] theorem raise_anyErr (c : Code) : (s.raise c).anyErr = true := rfl
@[simp] theorem raise_treeValid (c : Code) : (s.raise c).treeValid = s.treeValid := rfl
@[simp] theorem raise_dictValid (c : Code) : (s.raise c).dictValid = s.dictValid := rfl
@[simp] theorem raise_code (c : Code) : (s.raise c).code = c := rfl
@[simp] theorem raise_lastOp (c : Code) : (s.raise c).lastOp = s.lastOp := rfl
@[simp] theorem raise_opa (c : Code) : (s.raise c).opa = s.opa := rfl
@[simp] theorem raise_opb (c : Code) : (s.raise c).opb = s.opb := rfl
@[simp] theorem raise_res0 (c : Code) : (s.raise c).res0 = s.res0 := rfl
@[simp] theorem raise_res1 (c : Code) : (s.raise c).res1 = s.res1 := rfl
@[simp] theorem raise_res2 (c : Code) : (s.raise c).res2 = s.res2 := rfl
@[simp] theorem raise_rawLen (c : Code) : (s.raise c).rawLen = s.rawLen := rfl
@[simp] theorem raise_payLen (c : Code) : (s.raise c).payLen = s.payLen := rfl
@[simp] theorem raise_frmLen (c : Code) : (s.raise c).frmLen = s.frmLen := rfl
@[simp] theorem raise_frmUsed (c : Code) : (s.raise c).frmUsed = s.frmUsed := rfl
@[simp] theorem raise_flistLen (c : Code) : (s.raise c).flistLen = s.flistLen := rfl
@[simp] theorem raise_mem (c : Code) : (s.raise c).mem = s.mem := rfl
@[simp] theorem raise_fcnt (c : Code) : (s.raise c).fcnt = s.fcnt := rfl
@[simp] theorem raise_flist (c : Code) : (s.raise c).flist = s.flist := rfl
@[simp] theorem raise_pq (c : Code) : (s.raise c).pq = s.pq := rfl
@[simp] theorem raise_pqSerial (c : Code) : (s.raise c).pqSerial = s.pqSerial := rfl
@[simp] theorem raise_tree (c : Code) : (s.raise c).tree = s.tree := rfl
@[simp] theorem raise_treeRoot (c : Code) : (s.raise c).treeRoot = s.treeRoot := rfl
@[simp] theorem raise_treeNodes (c : Code) : (s.raise c).treeNodes = s.treeNodes := rfl
@[simp] theorem raise_dict (c : Code) : (s.raise c).dict = s.dict := rfl
@[simp] theorem raise_host (c : Code) : (s.raise c).host = s.host := rfl
@[simp] theorem raise_reads (c : Code) : (s.raise c).reads = s.reads := rfl
@[simp] theorem raise_drawn (c : Code) : (s.raise c).drawn = s.drawn := rfl

/-! ### `logRead` -/

@[simp] theorem logRead_eng (v : HostValue) : (s.logRead v).eng = s.eng := rfl
@[simp] theorem logRead_done (v : HostValue) : (s.logRead v).done = s.done := rfl
@[simp] theorem logRead_err (v : HostValue) : (s.logRead v).err = s.err := rfl
@[simp] theorem logRead_anyErr (v : HostValue) : (s.logRead v).anyErr = s.anyErr := rfl
@[simp] theorem logRead_treeValid (v : HostValue) : (s.logRead v).treeValid = s.treeValid := rfl
@[simp] theorem logRead_dictValid (v : HostValue) : (s.logRead v).dictValid = s.dictValid := rfl
@[simp] theorem logRead_code (v : HostValue) : (s.logRead v).code = s.code := rfl
@[simp] theorem logRead_lastOp (v : HostValue) : (s.logRead v).lastOp = s.lastOp := rfl
@[simp] theorem logRead_opa (v : HostValue) : (s.logRead v).opa = s.opa := rfl
@[simp] theorem logRead_opb (v : HostValue) : (s.logRead v).opb = s.opb := rfl
@[simp] theorem logRead_res0 (v : HostValue) : (s.logRead v).res0 = s.res0 := rfl
@[simp] theorem logRead_res1 (v : HostValue) : (s.logRead v).res1 = s.res1 := rfl
@[simp] theorem logRead_res2 (v : HostValue) : (s.logRead v).res2 = s.res2 := rfl
@[simp] theorem logRead_rawLen (v : HostValue) : (s.logRead v).rawLen = s.rawLen := rfl
@[simp] theorem logRead_payLen (v : HostValue) : (s.logRead v).payLen = s.payLen := rfl
@[simp] theorem logRead_frmLen (v : HostValue) : (s.logRead v).frmLen = s.frmLen := rfl
@[simp] theorem logRead_frmUsed (v : HostValue) : (s.logRead v).frmUsed = s.frmUsed := rfl
@[simp] theorem logRead_flistLen (v : HostValue) : (s.logRead v).flistLen = s.flistLen := rfl
@[simp] theorem logRead_mem (v : HostValue) : (s.logRead v).mem = s.mem := rfl
@[simp] theorem logRead_fcnt (v : HostValue) : (s.logRead v).fcnt = s.fcnt := rfl
@[simp] theorem logRead_flist (v : HostValue) : (s.logRead v).flist = s.flist := rfl
@[simp] theorem logRead_pq (v : HostValue) : (s.logRead v).pq = s.pq := rfl
@[simp] theorem logRead_pqSerial (v : HostValue) : (s.logRead v).pqSerial = s.pqSerial := rfl
@[simp] theorem logRead_tree (v : HostValue) : (s.logRead v).tree = s.tree := rfl
@[simp] theorem logRead_treeRoot (v : HostValue) : (s.logRead v).treeRoot = s.treeRoot := rfl
@[simp] theorem logRead_treeNodes (v : HostValue) : (s.logRead v).treeNodes = s.treeNodes := rfl
@[simp] theorem logRead_dict (v : HostValue) : (s.logRead v).dict = s.dict := rfl
@[simp] theorem logRead_host (v : HostValue) : (s.logRead v).host = s.host := rfl
@[simp] theorem logRead_reads (v : HostValue) : (s.logRead v).reads = s.reads ++ [v] := rfl
@[simp] theorem logRead_drawn (v : HostValue) : (s.logRead v).drawn = s.drawn := rfl

end Sys2Proof.Machine.State
end

