-- ==== Sys2Proof/Laws/Memory.lean ====
section
/-! SUPPORT. The laws of buffer memory: a read after a write, and the canonical form kept. -/

namespace Sys2Proof.Machine

/-! ### One byte -/

theorem Memory.find_nil (a : Nat) : Memory.find [] a = none := rfl

theorem Memory.find_cons (k : Nat) (x : Byte) (m : Memory) (a : Nat) :
    Memory.find ((k, x) :: m) a = if a = k then some x else Memory.find m a := by
  simp only [Memory.find, List.lookup_cons]
  by_cases h : a = k
  · simp [h]
  · simp [h, beq_false_of_ne h]

/-- A read after a write: the byte written at its address, the old byte elsewhere. -/
theorem Memory.find_write (m : Memory) (a : Nat) (v : Byte) (b : Nat) :
    Memory.find (Memory.write m a v) b = if b = a then some v else Memory.find m b := by
  induction m with
  | nil => simp [Memory.write, Memory.find_cons, Memory.find_nil]
  | cons c m ih =>
    obtain ⟨k, x⟩ := c
    rw [Memory.write]
    split
    · simp [Memory.find_cons]
    · split
      · subst k
        simp only [Memory.find_cons]
        split <;> simp_all
      · simp only [Memory.find_cons, ih]
        by_cases hb : b = a <;> simp_all

theorem Memory.mem_write {m : Memory} {a : Nat} {v : Byte} {c : Host.Cell} (h : c ∈ Memory.write m a v) :
    c = (a, v) ∨ c ∈ m := by
  induction m with
  | nil => simpa [Memory.write] using h
  | cons d m ih =>
    obtain ⟨k, x⟩ := d
    rw [Memory.write] at h
    split at h
    · simpa using h
    · split at h
      · rcases List.mem_cons.1 h with h | h
        · exact .inl h
        · exact .inr (List.mem_cons_of_mem _ h)
      · rcases List.mem_cons.1 h with h | h
        · exact .inr (h ▸ List.mem_cons_self)
        · exact (ih h).imp id (List.mem_cons_of_mem _)

/-- Writing a buffer byte keeps the canonical form. -/
theorem Memory.wf_write {m : Memory} (h : Memory.wf m) {a : Nat} (ha : bufferAddress a) (v : Byte) :
    Memory.wf (Memory.write m a v) := by
  refine ⟨?_, fun c hc => ?_⟩
  · have hp := h.1
    clear h
    induction m with
    | nil => simp [Memory.write]
    | cons d m ih =>
      obtain ⟨k, x⟩ := d
      rw [List.pairwise_cons] at hp
      rw [Memory.write]
      split
      · next hak =>
        refine List.pairwise_cons.2 ⟨fun c hc => ?_, List.pairwise_cons.2 hp⟩
        rcases List.mem_cons.1 hc with rfl | hc
        · exact hak
        · exact Nat.lt_trans hak (hp.1 c hc)
      · split
        · next hak => subst hak; exact List.pairwise_cons.2 ⟨fun c hc => hp.1 c hc, hp.2⟩
        · next h1 h2 =>
          refine List.pairwise_cons.2 ⟨fun c hc => ?_, ih hp.2⟩
          rcases Memory.mem_write hc with rfl | hc
          · show k < a
            omega
          · exact hp.1 c hc
  · rcases Memory.mem_write hc with rfl | hc
    · exact ha
    · exact h.2 c hc

/-! ### A run of bytes -/

theorem Memory.find_append (m n : Memory) (a : Nat) :
    Memory.find (m ++ n) a = (Memory.find m a).or (Memory.find n a) := by
  induction m with
  | nil => simp [Memory.find_nil]
  | cons c m ih =>
    obtain ⟨k, x⟩ := c
    simp only [List.cons_append, Memory.find_cons, ih]
    split <;> simp

theorem Memory.find_filter (m : Memory) (p : Nat → Bool) (a : Nat) :
    Memory.find (m.filter fun c => p c.1) a = if p a then Memory.find m a else none := by
  induction m with
  | nil => simp [Memory.find_nil]
  | cons c m ih =>
    obtain ⟨k, x⟩ := c
    by_cases hk : p k
    · simp only [List.filter_cons, hk, if_true, Memory.find_cons, ih]
      by_cases ha : a = k <;> simp_all
    · simp only [List.filter_cons, hk, Memory.find_cons]
      by_cases ha : a = k <;> simp_all

theorem Memory.find_run (bs : List Byte) (a b : Nat) :
    Memory.find ((bs.zipIdx a).map fun p => (p.2, p.1)) b = if a ≤ b then bs[b - a]? else none := by
  induction bs generalizing a with
  | nil => simp [Memory.find_nil]
  | cons x bs ih =>
    simp only [List.zipIdx_cons, List.map_cons, Memory.find_cons, ih]
    by_cases h : b = a
    · subst h; simp
    · by_cases h' : a ≤ b
      · have h1 : a + 1 ≤ b := by omega
        have h2 : b - a = (b - (a + 1)) + 1 := by omega
        simp [h, h', h1, h2]
      · have h1 : ¬ a + 1 ≤ b := by omega
        simp [h, h', h1]

/-- A read after a run of bytes was written: the run's byte inside it, the old byte outside. -/
theorem Memory.find_writeRange (m : Memory) (a : Nat) (bs : List Byte) (b : Nat) :
    Memory.find (Memory.writeRange m a bs) b
      = if a ≤ b ∧ b < a + bs.length then bs[b - a]? else Memory.find m b := by
  have h1 := Memory.find_filter m (fun k => decide (k < a)) b
  have h2 := Memory.find_filter m (fun k => decide (a + bs.length ≤ k)) b
  simp only [Memory.writeRange, Memory.find_append, h1, h2, Memory.find_run]
  by_cases hl : b < a
  · have : ¬ a ≤ b := by omega
    have h3 : ¬ a + bs.length ≤ b := by omega
    simp [hl, this, h3]
  · by_cases hr : b < a + bs.length
    · have h3 : ¬ a + bs.length ≤ b := by omega
      have h4 : a ≤ b := by omega
      simp [hl, hr, h3, h4]
    · have h3 : a + bs.length ≤ b := by omega
      have h4 : a ≤ b := by omega
      have h5 : bs[b - a]? = none := by simp; omega
      simp [hl, hr, h3, h4, h5]

/-- Writing a run of buffer bytes keeps the canonical form. -/
theorem Memory.wf_writeRange {m : Memory} (h : Memory.wf m) {a : Nat} {bs : List Byte}
    (ha : ∀ b, a ≤ b → b < a + bs.length → bufferAddress b) : Memory.wf (Memory.writeRange m a bs) := by
  have run : ∀ c ∈ (bs.zipIdx a).map fun p => ((p.2, p.1) : Host.Cell), a ≤ c.1 ∧ c.1 < a + bs.length := by
    intro c hc
    obtain ⟨⟨x, i⟩, hx, rfl⟩ := List.mem_map.1 hc
    have := List.mem_zipIdx hx
    simp only at this ⊢
    omega
  refine ⟨?_, fun c hc => ?_⟩
  · rw [Memory.writeRange, List.pairwise_append, List.pairwise_append]
    refine ⟨⟨h.1.filter _, ?_, ?_⟩, h.1.filter _, ?_⟩
    · rw [List.pairwise_map]
      clear ha run
      induction bs generalizing a with
      | nil => simp
      | cons x bs ih =>
        rw [List.zipIdx_cons, List.pairwise_cons]
        refine ⟨fun p hp => ?_, ih⟩
        have := List.mem_zipIdx hp
        simp only
        omega
    · intro c hc d hd
      have h1 := (List.mem_filter.1 hc).2
      have h2 := run d hd
      simp only [decide_eq_true_eq] at h1
      omega
    · intro c hc d hd
      have h1 := (List.mem_filter.1 hd).2
      simp only [decide_eq_true_eq] at h1
      rcases List.mem_append.1 hc with hc | hc
      · have h2 := (List.mem_filter.1 hc).2
        simp only [decide_eq_true_eq] at h2
        omega
      · have h2 := run c hc
        omega
  · rw [Memory.writeRange, List.mem_append, List.mem_append] at hc
    rcases hc with (hc | hc) | hc
    · exact h.2 c (List.mem_filter.1 hc).1
    · exact ha _ (run c hc).1 (run c hc).2
    · exact h.2 c (List.mem_filter.1 hc).1

/-! ### Buffers -/

/-- Every byte after a buffer was filled from its byte 0 up. -/
theorem State.memByte_fillBuf (s : State) (b : Buffer) (bs : List Byte) (a : Nat) :
    (s.fillBuf b bs).memByte a
      = if b.base ≤ a ∧ a < b.base + min b.size bs.length then bs[a - b.base]?.getD 0 else s.memByte a := by
  simp only [State.memByte, State.fillBuf_mem, Memory.find_writeRange, List.length_take]
  split
  · next h =>
    have h1 : a - b.base < b.size := by omega
    have h2 : a - b.base < bs.length := by omega
    simp [h1, h2]
  · rfl

/-- The buffers do not overlap. -/
theorem Buffer.disjoint {b c : Buffer} (h : b ≠ c) {i j : Nat} (hi : i < b.size) (hj : j < c.size) :
    b.base + i ≠ c.base + j := by
  cases b <;> cases c <;> simp_all [Buffer.base, Buffer.size, Config.frmCap] <;> omega

/-- A byte of the buffer that was filled. -/
theorem State.bufByte_fillBuf_same (s : State) (b : Buffer) (bs : List Byte) (i : Nat) :
    (s.fillBuf b bs).bufByte b i = if i < min b.size bs.length then bs[i]?.getD 0 else s.bufByte b i := by
  simp only [State.bufByte, State.memByte_fillBuf]
  by_cases h : i < min b.size bs.length
  · have h1 : b.base + i - b.base = i := by omega
    simp [h, h1]
  · rw [if_neg (by omega), if_neg h]

/-- A byte of another buffer. -/
theorem State.bufByte_fillBuf_other (s : State) {b c : Buffer} (h : c ≠ b) (bs : List Byte) {i : Nat}
    (hi : i < c.size) : (s.fillBuf b bs).bufByte c i = s.bufByte c i := by
  simp only [State.bufByte, State.memByte_fillBuf]
  rw [if_neg]
  rintro ⟨h1, h2⟩
  have := Buffer.disjoint h hi (show c.base + i - b.base < b.size by omega)
  omega

theorem State.length_bufBytes (s : State) (b : Buffer) (i n : Nat) : (s.bufBytes b i n).length = n := by
  simp [State.bufBytes]

theorem State.getElem_bufBytes (s : State) (b : Buffer) (i n k : Nat) (h : k < (s.bufBytes b i n).length) :
    (s.bufBytes b i n)[k] = s.bufByte b (i + k) := by
  simp [State.bufBytes]

/-- Reading bytes depends only on those bytes. -/
theorem State.bufBytes_congr {s t : State} {b : Buffer} {i n : Nat}
    (h : ∀ k < n, s.bufByte b (i + k) = t.bufByte b (i + k)) : s.bufBytes b i n = t.bufBytes b i n := by
  simp only [State.bufBytes]
  exact List.map_congr_left fun k hk => h k (List.mem_range.1 hk)

/-- Reading back what a buffer was filled with. -/
theorem State.bufBytes_fillBuf_same (s : State) (b : Buffer) (bs : List Byte) (h : bs.length ≤ b.size) :
    (s.fillBuf b bs).bufBytes b 0 bs.length = bs := by
  apply List.ext_getElem (State.length_bufBytes ..)
  intro k h1 h2
  rw [State.getElem_bufBytes, State.bufByte_fillBuf_same, if_pos (by omega)]
  simp [h2]

/-- The bytes of another buffer are unchanged. -/
theorem State.bufBytes_fillBuf_other (s : State) {b c : Buffer} (h : c ≠ b) (bs : List Byte) {i n : Nat}
    (hi : i + n ≤ c.size) : (s.fillBuf b bs).bufBytes c i n = s.bufBytes c i n :=
  State.bufBytes_congr fun _ hk => State.bufByte_fillBuf_other s h bs (by omega)

theorem State.memByte_of_mem {s t : State} (h : s.mem = t.mem) (a : Nat) : s.memByte a = t.memByte a := by
  simp only [State.memByte, h]

/-- States with equal memories read equal bytes. -/
theorem State.bufByte_of_mem {s t : State} (h : s.mem = t.mem) (b : Buffer) (i : Nat) :
    s.bufByte b i = t.bufByte b i := by
  simp only [State.bufByte, State.memByte, h]

theorem State.bufBytes_of_mem {s t : State} (h : s.mem = t.mem) (b : Buffer) (i n : Nat) :
    s.bufBytes b i n = t.bufBytes b i n :=
  State.bufBytes_congr fun _ _ => State.bufByte_of_mem h b _

theorem Buffer.holds_bufferAddress {b : Buffer} {a : Nat} (h : b.holds a) : bufferAddress a := by
  cases b
  · exact .inl h
  · exact .inr (.inl h)
  · exact .inr (.inr h)

/-- Filling a buffer keeps the canonical form. -/
theorem State.wf_fillBuf {s : State} (h : Memory.wf s.mem) (b : Buffer) (bs : List Byte) :
    Memory.wf (s.fillBuf b bs).mem := by
  refine Memory.wf_writeRange h fun a h1 h2 => Buffer.holds_bufferAddress (b := b) ⟨h1, ?_⟩
  rw [List.length_take] at h2
  omega

end Sys2Proof.Machine
end

