-- ==== Sys2Proof/Laws/Analyzer.lean ====
section
/-! SUPPORT. The laws of the frequency analyzer: what the counters hold, and that the frequency list is the sorted list
of all symbols with their counters (41_frequency_analyzer R125 to R128). -/

namespace Sys2Proof.Machine

/-! ### Counters -/

theorem counterAt_replicate (sym : Byte) :
    counterAt (Vector.replicate 256 0) sym = 0 := by
  simp [counterAt]

theorem counterAt_countByte (c : Vector (BitVec 17) 256) (b sym : Byte) :
    counterAt (countByte c b) sym = if sym = b then counterAt c b + 1 else counterAt c sym := by
  simp only [counterAt, countByte, Vector.getElem_set]
  by_cases h : sym = b
  · simp [h]
  · have : ¬ b.toNat = sym.toNat := fun k => h (BitVec.eq_of_toNat_eq k.symm)
    simp [h, this]

theorem counterAt_foldl (block : List Byte) (c : Vector (BitVec 17) 256) (sym : Byte) :
    counterAt (block.foldl countByte c) sym = counterAt c sym + BitVec.ofNat 17 (block.count sym) := by
  induction block generalizing c with
  | nil => simp
  | cons b block ih =>
    rw [List.foldl_cons, ih, counterAt_countByte, List.count_cons]
    by_cases h : sym = b
    · subst h
      simp only [if_true, beq_self_eq_true, BitVec.ofNat_add]
      rw [BitVec.add_assoc]
      congr 1
      exact BitVec.add_comm _ _
    · have : (b == sym) = false := by simpa using fun k => h k.symm
      simp [h, this]

/-- Each counter holds how often its symbol occurs in the block (R125, R127). -/
theorem toNat_counterAt_countBytes {block : List Byte} (h : block.length ≤ Config.blockMax) (sym : Byte) :
    (counterAt (countBytes block) sym).toNat = block.count sym := by
  rw [countBytes, counterAt_foldl, counterAt_replicate]
  have := List.count_le_length (a := sym) (l := block)
  rw [zero_add, BitVec.toNat_ofNat]
  apply Nat.mod_eq_of_lt
  rw [Config.blockMax] at h
  omega

/-! ### The sorted list -/

theorem FreqEntry.precedes_total (e f : FreqEntry) : e.precedes f ∨ f.precedes e := by
  simp only [FreqEntry.precedes]
  omega

theorem FreqEntry.precedes_trans {e f g : FreqEntry} (h : e.precedes f) (k : f.precedes g) : e.precedes g := by
  simp only [FreqEntry.precedes] at *
  omega

theorem sortedEntries_perm (c : Vector (BitVec 17) 256) : (sortedEntries c).Perm (counterEntries c) :=
  List.perm_insertionSort _ _

theorem sortedEntries_pairwise (c : Vector (BitVec 17) 256) : (sortedEntries c).Pairwise FreqEntry.precedes := by
  have : Std.Total FreqEntry.precedes := ⟨FreqEntry.precedes_total⟩
  have : IsTrans FreqEntry FreqEntry.precedes := ⟨fun _ _ _ => FreqEntry.precedes_trans⟩
  exact List.pairwise_insertionSort _ _

theorem length_counterEntries (c : Vector (BitVec 17) 256) : (counterEntries c).length = 256 := by
  simp [counterEntries]

theorem length_sortedEntries (c : Vector (BitVec 17) 256) : (sortedEntries c).length = 256 := by
  rw [(sortedEntries_perm c).length_eq, length_counterEntries]

theorem map_sym_counterEntries (c : Vector (BitVec 17) 256) :
    (counterEntries c).map FreqEntry.sym = (List.range 256).map (BitVec.ofNat 8) := by
  simp [counterEntries, Function.comp_def]

theorem nodup_symbols : ((List.range 256).map (BitVec.ofNat 8)).Nodup := by
  refine (List.nodup_range).map_on fun i hi j hj h => ?_
  have := congrArg BitVec.toNat h
  simp only [List.mem_range, BitVec.toNat_ofNat] at *
  omega

/-- The list holds each symbol once (R128 (f)). -/
theorem nodup_sym_sortedEntries (c : Vector (BitVec 17) 256) : ((sortedEntries c).map FreqEntry.sym).Nodup := by
  rw [((sortedEntries_perm c).map _).nodup_iff, map_sym_counterEntries]
  exact nodup_symbols

theorem mem_counterEntries {c : Vector (BitVec 17) 256} {e : FreqEntry} :
    e ∈ counterEntries c ↔ e.count = (counterAt c e.sym).setWidth 32 := by
  simp only [counterEntries, List.mem_map, List.mem_range]
  constructor
  · rintro ⟨i, -, rfl⟩; rfl
  · intro h
    refine ⟨e.sym.toNat, e.sym.isLt, ?_⟩
    have : BitVec.ofNat 8 e.sym.toNat = e.sym := by simp
    rw [this, ← h]

/-- The list pairs each symbol with its counter (R125). -/
theorem mem_sortedEntries {c : Vector (BitVec 17) 256} {e : FreqEntry} :
    e ∈ sortedEntries c ↔ e.count = (counterAt c e.sym).setWidth 32 := by
  rw [(sortedEntries_perm c).mem_iff, mem_counterEntries]

/-- Entries with different symbols never tie (R125): the list is strictly sorted. -/
theorem sortedEntries_strict (c : Vector (BitVec 17) 256) :
    (sortedEntries c).Pairwise fun e f =>
      f.count.toNat < e.count.toNat ∨ (f.count.toNat = e.count.toNat ∧ e.sym.toNat < f.sym.toNat) := by
  have h := nodup_sym_sortedEntries c
  rw [List.Nodup, List.pairwise_map] at h
  refine ((sortedEntries_pairwise c).and h).imp fun {e f} ⟨h1, h2⟩ => ?_
  have : e.sym.toNat ≠ f.sym.toNat := fun k => h2 (BitVec.eq_of_toNat_eq k)
  simp only [FreqEntry.precedes] at h1
  omega

/-! ### FLIST_LEN -/

theorem toList_counters (c : Vector (BitVec 17) 256) :
    c.toList = (List.range 256).map fun i => counterAt c (BitVec.ofNat 8 i) := by
  apply List.ext_getElem
  · simp
  · intro i h1 h2
    have h3 : i < 256 := by simpa using h1
    simp [counterAt, Nat.mod_eq_of_lt h3]

theorem occurring_eq (c : Vector (BitVec 17) 256) :
    occurring c = (sortedEntries c).countP fun e => e.count.toNat != 0 := by
  rw [(sortedEntries_perm c).countP_eq, occurring, toList_counters, counterEntries, List.countP_map, List.countP_map]
  apply List.countP_congr
  intro i _
  simp only [Function.comp, bne_iff_ne, ne_eq, BitVec.toNat_setWidth]
  rw [Nat.mod_eq_of_lt (by have := (counterAt c (BitVec.ofNat 8 i)).isLt; omega)]
  rw [← BitVec.toNat_inj]
  simp

theorem occurring_le (c : Vector (BitVec 17) 256) : occurring c ≤ 256 := by
  rw [occurring_eq]
  exact le_trans List.countP_le_length (le_of_eq (length_sortedEntries c))

/-- A list of falling counts: the entries with a count come first. -/
theorem falling_split {es : List FreqEntry} (h : es.Pairwise fun e f => f.count.toNat ≤ e.count.toNat) :
    (∀ e ∈ es.take (es.countP fun e => e.count.toNat != 0), e.count.toNat ≠ 0)
      ∧ ∀ e ∈ es.drop (es.countP fun e => e.count.toNat != 0), e.count.toNat = 0 := by
  induction es with
  | nil => simp
  | cons e es ih =>
    rw [List.pairwise_cons] at h
    by_cases he : e.count.toNat = 0
    · have hz : ∀ f ∈ es, f.count.toNat = 0 := fun f hf => by have := h.1 f hf; omega
      have hn : (es.countP fun e => e.count.toNat != 0) = 0 :=
        List.countP_eq_zero.2 fun f hf => by simp [hz f hf]
      rw [List.countP_cons, hn]
      simp only [he, bne_self_eq_false, Bool.false_eq_true, if_false, Nat.add_zero, List.take_zero, List.drop_zero]
      refine ⟨by simp, fun f hf => ?_⟩
      rcases List.mem_cons.1 hf with rfl | hf
      · exact he
      · exact hz f hf
    · have h1 : (e.count.toNat != 0) = true := by simpa using he
      rw [List.countP_cons, h1]
      simp only [if_true, List.take_succ_cons, List.drop_succ_cons]
      refine ⟨fun f hf => ?_, (ih h.2).2⟩
      rcases List.mem_cons.1 hf with rfl | hf
      · exact he
      · exact (ih h.2).1 f hf

/-- The first FLIST_LEN entries have a count, the others none (R128 (b)). -/
theorem sortedEntries_split (c : Vector (BitVec 17) 256) :
    (∀ e ∈ (sortedEntries c).take (occurring c), e.count.toNat ≠ 0)
      ∧ ∀ e ∈ (sortedEntries c).drop (occurring c), e.count.toNat = 0 := by
  rw [occurring_eq]
  refine falling_split ((sortedEntries_pairwise c).imp fun {e f} h => ?_)
  simp only [FreqEntry.precedes] at h
  omega

/-! ### The sum of the counts -/

theorem sum_indicator (b : Byte) (l : List Nat) :
    (l.map fun i => if b == BitVec.ofNat 8 i then 1 else 0).sum = (l.map (BitVec.ofNat 8)).count b := by
  induction l with
  | nil => rfl
  | cons i l ih =>
    rw [List.map_cons, List.sum_cons, ih, List.map_cons, List.count_cons, Nat.add_comm]
    congr 1
    by_cases h : b = BitVec.ofNat 8 i
    · simp [h]
    · have h' : ¬ BitVec.ofNat 8 i = b := fun k => h k.symm
      simp [h, h']

theorem sum_count_symbols (block : List Byte) :
    ((List.range 256).map fun i => block.count (BitVec.ofNat 8 i)).sum = block.length := by
  induction block with
  | nil =>
    simp only [List.count_nil, List.map_const', List.sum_replicate, smul_zero, List.length_nil]
  | cons b block ih =>
    have h1 : ((List.range 256).map fun i => if b == BitVec.ofNat 8 i then 1 else 0).sum = 1 := by
      rw [sum_indicator]
      exact List.count_eq_one_of_mem nodup_symbols
        (List.mem_map.2 ⟨b.toNat, List.mem_range.2 b.isLt, by simp⟩)
    simp only [List.count_cons]
    rw [List.sum_map_add, ih, h1, List.length_cons]

/-- The counts of the whole list add up to the block's length (R128 (a)). -/
theorem sum_sortedEntries {block : List Byte} (h : block.length ≤ Config.blockMax) :
    ((sortedEntries (countBytes block)).map fun e => e.count.toNat).sum = block.length := by
  rw [((sortedEntries_perm _).map _).sum_eq, counterEntries, List.map_map, ← sum_count_symbols block]
  congr 1
  apply List.map_congr_left
  intro i _
  simp only [Function.comp, BitVec.toNat_setWidth, toNat_counterAt_countBytes h]
  apply Nat.mod_eq_of_lt
  have := List.count_le_length (a := BitVec.ofNat 8 i) (l := block)
  rw [Config.blockMax] at h
  omega

/-- The counts of the first FLIST_LEN entries add up to the block's length (R128 (a)). -/
theorem sum_take_sortedEntries {block : List Byte} (h : block.length ≤ Config.blockMax) :
    (((sortedEntries (countBytes block)).take (occurring (countBytes block))).map fun e => e.count.toNat).sum
      = block.length := by
  have h1 := sum_sortedEntries h
  rw [← List.take_append_drop (occurring (countBytes block)) (sortedEntries (countBytes block)), List.map_append,
    List.sum_append] at h1
  have h2 : (((sortedEntries (countBytes block)).drop (occurring (countBytes block))).map fun e => e.count.toNat).sum
      = 0 := by
    rw [List.sum_eq_zero_iff]
    intro n hn
    obtain ⟨e, he, rfl⟩ := List.mem_map.1 hn
    exact (sortedEntries_split _).2 e he
  omega

/-- FLIST_LEN is 0 exactly for an empty block (R128 (d)). -/
theorem occurring_eq_zero {block : List Byte} (h : block.length ≤ Config.blockMax) :
    occurring (countBytes block) = 0 ↔ block = [] := by
  constructor
  · intro k
    have := sum_take_sortedEntries h
    rw [k] at this
    exact List.eq_nil_of_length_eq_zero (by simpa using this.symm)
  · rintro rfl
    have h1 := sum_take_sortedEntries (block := []) (by simp)
    have h2 := (sortedEntries_split (countBytes [])).1
    by_contra h3
    cases hl : (sortedEntries (countBytes [])).take (occurring (countBytes [])) with
    | nil =>
      have := congrArg List.length hl
      rw [List.length_take, length_sortedEntries] at this
      simp only [List.length_nil] at this
      omega
    | cons e es =>
      rw [hl] at h1 h2
      have := h2 e List.mem_cons_self
      simp at h1
      omega

/-! ### `analyze` -/

@[simp] theorem toList_overwriteFirst {α : Type} {n : Nat} (v : Vector α n) (xs : List α) :
    (overwriteFirst v xs).toList = xs.take n ++ v.toList.drop xs.length := rfl

/-- The analyzed frequency list (R125). -/
theorem State.analyze_flist (s : State) (len : Nat) :
    (s.analyze len).flist.toList = sortedEntries (countBytes (s.bufBytes .raw 0 len)) := by
  simp only [State.analyze, State.setFlist_flist, toList_overwriteFirst]
  rw [List.take_of_length_le (by rw [length_sortedEntries]), List.drop_of_length_le
    (by rw [length_sortedEntries]; simp), List.append_nil]

/-- FLIST_LEN after an analysis (R125). -/
theorem State.analyze_listLength (s : State) (len : Nat) :
    (s.analyze len).listLength = occurring (countBytes (s.bufBytes .raw 0 len)) := by
  simp only [State.listLength, State.analyze, State.setFlist_flistLen, BitVec.toNat_ofNat]
  have := occurring_le (countBytes (s.bufBytes .raw 0 len))
  omega

/-- The entries proper after an analysis (R125). -/
theorem State.analyze_entries (s : State) (len n : Nat) :
    (s.analyze len).entries n = (sortedEntries (countBytes (s.bufBytes .raw 0 len))).take n := by
  rw [State.entries, State.analyze_flist]

@[simp] theorem State.analyze_mem (s : State) (len : Nat) : (s.analyze len).mem = s.mem := rfl

end Sys2Proof.Machine
end

