-- ==== Sys2Proof/Laws/Bits.lean ====
section
/-! SUPPORT. The laws of little-endian bytes. -/

namespace Sys2Proof.Machine

theorem getLsbD_byteOf (v : Word) (k i : Nat) : (byteOf v k).getLsbD i = (decide (i < 8) && v.getLsbD (8 * k + i)) := by
  simp [byteOf]

theorem getLsbD_wordOf (b0 b1 b2 b3 : Byte) (i : Nat) :
    (wordOf b0 b1 b2 b3).getLsbD i
      = if i < 8 then b0.getLsbD i
        else if i < 16 then b1.getLsbD (i - 8)
        else if i < 24 then b2.getLsbD (i - 16)
        else b3.getLsbD (i - 24) := by
  simp only [wordOf, BitVec.getLsbD_append]
  by_cases h0 : i < 8
  · simp [h0]
  · by_cases h1 : i < 16
    · have : i - 8 < 8 := by omega
      simp [h0, h1, this]
    · by_cases h2 : i < 24
      · have h3 : ¬ i - 8 < 8 := by omega
        have h4 : i - 16 < 8 := by omega
        have h5 : i - 8 - 8 = i - 16 := by omega
        simp [h0, h1, h2, h3, h4, h5]
      · have h3 : ¬ i - 8 < 8 := by omega
        have h4 : ¬ i - 16 < 8 := by omega
        have h5 : i - 8 - 8 = i - 16 ∧ i - 16 - 8 = i - 24 := by omega
        simp [h0, h1, h2, h3, h4, h5]

/-- A word is the word of its four bytes (20_memory R64). -/
@[simp] theorem wordOf_byteOf (v : Word) : wordOf (byteOf v 0) (byteOf v 1) (byteOf v 2) (byteOf v 3) = v := by
  apply BitVec.eq_of_getLsbD_eq
  intro i hi
  rw [getLsbD_wordOf]
  simp only [getLsbD_byteOf]
  split
  · simp [*]
  · split
    · have h1 : i - 8 < 8 := by omega
      have h2 : 8 * 1 + (i - 8) = i := by omega
      simp [h1, h2]
    · split
      · have h1 : i - 16 < 8 := by omega
        have h2 : 8 * 2 + (i - 16) = i := by omega
        simp [h1, h2]
      · have h1 : i - 24 < 8 := by omega
        have h2 : 8 * 3 + (i - 24) = i := by omega
        simp [h1, h2]

theorem byteOf_wordOf (b0 b1 b2 b3 : Byte) :
    byteOf (wordOf b0 b1 b2 b3) 0 = b0 ∧ byteOf (wordOf b0 b1 b2 b3) 1 = b1
      ∧ byteOf (wordOf b0 b1 b2 b3) 2 = b2 ∧ byteOf (wordOf b0 b1 b2 b3) 3 = b3 := by
  refine ⟨?_, ?_, ?_, ?_⟩ <;>
  · apply BitVec.eq_of_getLsbD_eq
    intro i hi
    rw [getLsbD_byteOf, getLsbD_wordOf]
    simp only [hi, decide_true, Bool.true_and]
    split
    · first | omega | (congr 1; omega)
    · split
      · first | omega | (congr 1; omega)
      · split
        · first | omega | (congr 1; omega)
        · first | omega | (congr 1; omega)

/-- Reading back what `put_le32` wrote (00_scope R9). -/
theorem State.bufLe32_of_bytes {s : State} {b : Buffer} {i : Nat} {v : Word}
    (h : s.bufBytes b i 4 = le32Bytes v) : s.bufLe32 b i = v := by
  have hb : ∀ k (hk : k < 4), s.bufByte b (i + k) = (le32Bytes v)[k]'(by simpa [le32Bytes] using hk) := by
    intro k hk
    rw [← State.getElem_bufBytes s b i 4 k (by simpa [State.length_bufBytes] using hk)]
    simp only [h]
  have h0 := hb 0 (by omega)
  have h1 := hb 1 (by omega)
  have h2 := hb 2 (by omega)
  have h3 := hb 3 (by omega)
  simp only [le32Bytes, List.getElem_cons_zero, List.getElem_cons_succ, Nat.add_zero] at h0 h1 h2 h3
  rw [State.bufLe32, h0, h1, h2, h3, wordOf_byteOf]

/-- Reading back what `put_le16` wrote (00_scope R9). -/
theorem State.bufLe16_of_bytes {s : State} {b : Buffer} {i : Nat} {v : BitVec 16}
    (h : s.bufBytes b i 2 = le16Bytes v) : s.bufLe16 b i = v := by
  have hb : ∀ k (hk : k < 2), s.bufByte b (i + k) = (le16Bytes v)[k]'(by simpa [le16Bytes] using hk) := by
    intro k hk
    rw [← State.getElem_bufBytes s b i 2 k (by simpa [State.length_bufBytes] using hk)]
    simp only [h]
  have h0 := hb 0 (by omega)
  have h1 := hb 1 (by omega)
  simp only [le16Bytes, List.getElem_cons_zero, List.getElem_cons_succ, Nat.add_zero] at h0 h1
  rw [State.bufLe16, h0, h1]
  apply BitVec.eq_of_getLsbD_eq
  intro j hj
  simp only [BitVec.getLsbD_append, BitVec.getLsbD_setWidth, BitVec.getLsbD_ushiftRight]
  split
  · simp [*]
  · have h2 : j - 8 < 8 := by omega
    have h3 : 8 + (j - 8) = j := by omega
    simp [h2, h3]

end Sys2Proof.Machine
end

