-- ==== Sys2Proof/Laws/Dictionary.lean ====
section
/-! SUPPORT. The laws of the dictionary builder: which entries a build records, and when it overflows
(43_dictionary R151 to R157). -/

namespace Sys2Proof.Machine

/-! ### Patterns -/

/-- The pattern's bits are those of the path, bit 0 first, and 0 above it (30_encoding R100). -/
def Spells (pat : BitVec 56) (path : List Bool) : Prop :=
  path.length ≤ 56 ∧ ∀ i, pat.getLsbD i = path[i]?.getD false

theorem Spells.nil : Spells 0 [] := by
  constructor
  · simp
  · intro i
    show BitVec.getLsbD 0#56 i = _
    simp

theorem Spells.snoc_false {pat : BitVec 56} {path : List Bool} (h : Spells pat path) (hl : path.length < 56) :
    Spells pat (path ++ [false]) := by
  refine ⟨by simp; omega, fun i => ?_⟩
  rw [h.2 i, List.getElem?_append]
  split
  · rfl
  · next hi =>
    rw [List.getElem?_eq_none (by omega)]
    cases hd : ([false] : List Bool)[i - path.length]? with
    | none => rfl
    | some x =>
      have := List.mem_of_getElem? hd
      simp at this
      simp [this]

theorem Spells.snoc_true {pat : BitVec 56} {path : List Bool} (h : Spells pat path) (hl : path.length < 56) :
    Spells (pat ||| 1#56 <<< path.length) (path ++ [true]) := by
  refine ⟨by simp; omega, fun i => ?_⟩
  have one : BitVec.getLsbD (1#56 <<< path.length) i = decide (i = path.length) := by
    rw [BitVec.getLsbD_shiftLeft, BitVec.getLsbD_one]
    by_cases hi : i = path.length
    · subst hi; simp [hl]
    · have : ¬ (path.length ≤ i ∧ i - path.length = 0) := by omega
      simp [hi]
      omega
  rw [BitVec.getLsbD_or, one, h.2 i, List.getElem?_append]
  by_cases hi : i < path.length
  · have : i ≠ path.length := by omega
    simp [hi, this]
  · by_cases he : i = path.length
    · subst he; simp
    · have h2 : ([true] : List Bool)[i - path.length]? = none := List.getElem?_eq_none (by simp; omega)
      simp [hi, he, h2]

/-- A dictionary entry that records a path. -/
def DictEntry.Records (e : DictEntry) (path : List Bool) : Prop :=
  e.present = true ∧ e.width.toNat = path.length ∧ Spells e.pattern path

theorem DictEntry.Records.codeBits {e : DictEntry} {path : List Bool} (h : e.Records path) : e.codeBits = path := by
  obtain ⟨-, h2, h3⟩ := h
  apply List.ext_getElem
  · simp [DictEntry.codeBits, h2]
  · intro i h4 h5
    simp [DictEntry.codeBits, h3.2 i, h5]

theorem DictEntry.Records.wf {e : DictEntry} {path : List Bool} (h : e.Records path) : e.Wf := by
  obtain ⟨h1, h2, h3⟩ := h
  refine ⟨by simp [h1], ?_, by rw [h2]; exact h3.1⟩
  rw [h2]
  apply Nat.lt_pow_two_of_testBit
  intro i hi
  rw [← BitVec.getLsbD, h3.2 i, List.getElem?_eq_none hi]
  rfl

/-! ### Tables -/

theorem dictAt_recordLeaf (d : Vector DictEntry 256) (sym : Byte) (pat : BitVec 56) (w : Nat) (sym' : Byte) :
    dictAt (recordLeaf d sym pat w) sym' = if sym' = sym then ⟨pat, BitVec.ofNat 6 w, true⟩ else dictAt d sym' := by
  simp only [dictAt, recordLeaf, Vector.getElem_set]
  by_cases h : sym' = sym
  · simp [h]
  · have : ¬ sym.toNat = sym'.toNat := fun k => h (BitVec.eq_of_toNat_eq k.symm)
    simp [h, this]

theorem dictAt_emptyDict (sym : Byte) : dictAt emptyDict sym = ⟨0, 0, false⟩ := by
  simp [dictAt, emptyDict]

/-! ### Paths -/

theorem descend_nil (t : Vector Node 511) (n : BitVec 9) : descend t n [] = some n := rfl

theorem descend_leaf {t : Vector Node 511} {n : BitVec 9} {sym : Byte} (h : nodeAt t n = .leaf sym) {bits : List Bool}
    {m : BitVec 9} (k : descend t n bits = some m) : bits = [] ∧ m = n := by
  cases bits with
  | nil => simpa [descend, eq_comm] using k
  | cons b bits => simp [descend, h] at k

theorem descend_internal {t : Vector Node 511} {n z o : BitVec 9} (h : nodeAt t n = .internal z o) (b : Bool)
    (bits : List Bool) : descend t n (b :: bits) = descend t (if b then o else z) bits := by
  simp [descend, h]

theorem isCodeOf_leaf {t : Vector Node 511} {n : BitVec 9} {sym : Byte} (h : nodeAt t n = .leaf sym)
    {bits : List Bool} {sym' : Byte} : isCodeOf t n bits sym' ↔ bits = [] ∧ sym' = sym := by
  constructor
  · rintro ⟨m, h1, h2⟩
    obtain ⟨rfl, rfl⟩ := descend_leaf h h1
    rw [h] at h2
    exact ⟨rfl, by injection h2 with h2; exact h2.symm⟩
  · rintro ⟨rfl, rfl⟩
    exact ⟨n, rfl, h⟩

theorem isCodeOf_internal {t : Vector Node 511} {n z o : BitVec 9} (h : nodeAt t n = .internal z o)
    {bits : List Bool} {sym : Byte} :
    isCodeOf t n bits sym ↔ ∃ b rest, bits = b :: rest ∧ isCodeOf t (if b then o else z) rest sym := by
  constructor
  · rintro ⟨m, h1, h2⟩
    cases bits with
    | nil =>
      simp only [descend_nil, Option.some.injEq] at h1
      subst h1
      rw [h] at h2
      cases h2
    | cons b rest =>
      rw [descend_internal h] at h1
      exact ⟨b, rest, rfl, m, h1, h2⟩
  · rintro ⟨b, rest, rfl, m, h1, h2⟩
    exact ⟨m, by rw [descend_internal h]; exact h1, h2⟩

/-! ### `visit` -/

/-- No node is reached from `n` past `left` edges, no internal node at `left` edges. -/
def Shallow (t : Vector Node 511) (n : BitVec 9) (left : Nat) : Prop :=
  ∀ bits m, descend t n bits = some m →
    bits.length ≤ left ∧ (∀ z o, nodeAt t m = .internal z o → bits.length < left)

theorem Shallow.internal {t : Vector Node 511} {n z o : BitVec 9} {left : Nat} (h : nodeAt t n = .internal z o)
    (hz : Shallow t z left) (ho : Shallow t o left) : Shallow t n (left + 1) := by
  intro bits m hm
  cases bits with
  | nil => simp
  | cons b rest =>
    rw [descend_internal h] at hm
    have : rest.length ≤ left ∧ ∀ z o, nodeAt t m = .internal z o → rest.length < left := by
      cases b
      · exact hz rest m (by simpa using hm)
      · exact ho rest m (by simpa using hm)
    simp only [List.length_cons]
    exact ⟨by omega, fun z o k => by have := this.2 z o k; omega⟩

/-- Of the paths to leaves of the symbol, this one is visited last (R157). -/
def isLastCodeOf (t : Vector Node 511) (n : BitVec 9) (bits : List Bool) (sym : Byte) : Prop :=
  isCodeOf t n bits sym ∧ ∀ p, isCodeOf t n p sym → p = bits ∨ VisitedBefore p bits

theorem VisitedBefore.cons {p q : List Bool} (h : VisitedBefore p q) (b : Bool) :
    VisitedBefore (b :: p) (b :: q) := by
  obtain ⟨c, x, y, rfl, rfl⟩ := h
  exact ⟨b :: c, x, y, rfl, rfl⟩

theorem isLastCodeOf_leaf {t : Vector Node 511} {n : BitVec 9} {sym : Byte} (h : nodeAt t n = .leaf sym) :
    isLastCodeOf t n [] sym :=
  ⟨(isCodeOf_leaf h).2 ⟨rfl, rfl⟩, fun _ hp => .inl ((isCodeOf_leaf h).1 hp).1⟩

/-- The last path of the one-child is the last of the node, since the zero-child is visited first. -/
theorem isLastCodeOf_one {t : Vector Node 511} {n z o : BitVec 9} (h : nodeAt t n = .internal z o) {bits : List Bool}
    {sym : Byte} (k : isLastCodeOf t o bits sym) : isLastCodeOf t n (true :: bits) sym := by
  refine ⟨(isCodeOf_internal h).2 ⟨true, bits, rfl, by simpa using k.1⟩, fun p hp => ?_⟩
  obtain ⟨b, rest, rfl, hr⟩ := (isCodeOf_internal h).1 hp
  cases b
  · exact .inr ⟨[], rest, bits, rfl, rfl⟩
  · exact (k.2 rest (by simpa using hr)).imp (by rintro rfl; rfl) (·.cons true)

/-- The last path of the zero-child is the last of the node when the one-child has none. -/
theorem isLastCodeOf_zero {t : Vector Node 511} {n z o : BitVec 9} (h : nodeAt t n = .internal z o) {bits : List Bool}
    {sym : Byte} (k : isLastCodeOf t z bits sym) (ho : ∀ p, ¬ isCodeOf t o p sym) :
    isLastCodeOf t n (false :: bits) sym := by
  refine ⟨(isCodeOf_internal h).2 ⟨false, bits, rfl, by simpa using k.1⟩, fun p hp => ?_⟩
  obtain ⟨b, rest, rfl, hr⟩ := (isCodeOf_internal h).1 hp
  cases b
  · exact (k.2 rest (by simpa using hr)).imp (by rintro rfl; rfl) (·.cons false)
  · exact absurd (by simpa using hr) (ho rest)

/-- What `visit` may answer from node `n` with `left` edges left, `path` being the path to `n` and `d` the dictionary so
far: either every path ends within the edges left and each symbol reached is recorded with the last path to it, the others
untouched; or an internal node stands where no edge is left (R151, R152, R156). -/
def VisitAnswer (t : Vector Node 511) (n : BitVec 9) (left : Nat) (d : Vector DictEntry 256) (path : List Bool) :
    Option (Vector DictEntry 256) → Prop
  | some d' => Shallow t n left ∧ ∀ sym,
      ((∀ bits, ¬ isCodeOf t n bits sym) ∧ dictAt d' sym = dictAt d sym)
        ∨ ∃ bits, isLastCodeOf t n bits sym ∧ (dictAt d' sym).Records (path ++ bits)
  | none => ∃ bits m z o, bits.length = left ∧ descend t n bits = some m ∧ nodeAt t m = .internal z o

theorem VisitAnswer.leaf {t : Vector Node 511} {n : BitVec 9} {sym : Byte} (hn : nodeAt t n = .leaf sym) (left : Nat)
    (d : Vector DictEntry 256) {pat : BitVec 56} {path : List Bool} (hp : Spells pat path) {w : Nat}
    (hw : w = path.length) : VisitAnswer t n left d path (some (recordLeaf d sym pat w)) := by
  refine ⟨fun bits m hm => ?_, fun sym' => ?_⟩
  · obtain ⟨rfl, rfl⟩ := descend_leaf hn hm
    simp [hn]
  · by_cases hs : sym' = sym
    · refine .inr ⟨[], by rw [hs]; exact isLastCodeOf_leaf hn, ?_⟩
      rw [dictAt_recordLeaf, if_pos hs, List.append_nil]
      refine ⟨rfl, ?_, hp⟩
      have := hp.1
      rw [BitVec.toNat_ofNat, hw]
      omega
    · refine .inl ⟨fun bits hb => hs ((isCodeOf_leaf hn).1 hb).2, ?_⟩
      rw [dictAt_recordLeaf, if_neg hs]

theorem VisitAnswer.internal {t : Vector Node 511} {n z o : BitVec 9} (hn : nodeAt t n = .internal z o) {left : Nat}
    {d dz do' : Vector DictEntry 256} {path : List Bool} (hz : VisitAnswer t z left d (path ++ [false]) (some dz))
    (ho : VisitAnswer t o left dz (path ++ [true]) (some do')) : VisitAnswer t n (left + 1) d path (some do') := by
  refine ⟨hz.1.internal hn ho.1, fun sym => ?_⟩
  rcases ho.2 sym with ⟨h1, h2⟩ | ⟨bits, h1, h2⟩
  · rcases hz.2 sym with ⟨h3, h4⟩ | ⟨bits, h3, h4⟩
    · refine .inl ⟨fun bits hb => ?_, h2.trans h4⟩
      obtain ⟨b, rest, rfl, hr⟩ := (isCodeOf_internal hn).1 hb
      cases b
      · exact h3 rest (by simpa using hr)
      · exact h1 rest (by simpa using hr)
    · refine .inr ⟨false :: bits, isLastCodeOf_zero hn h3 h1, ?_⟩
      rw [h2]
      simpa using h4
  · refine .inr ⟨true :: bits, isLastCodeOf_one hn h1, ?_⟩
    simpa using h2

/-- What `visit` answers (R151, R152). -/
theorem visit_spec (t : Vector Node 511) (left : Nat) (n : BitVec 9) (pat : BitVec 56) (d : Vector DictEntry 256)
    (path : List Bool) (hl : path.length + left = 56) (hp : Spells pat path) :
    VisitAnswer t n left d path (visit t left n pat d) := by
  induction left generalizing n pat d path with
  | zero =>
    rw [visit]
    split
    · next sym hn => exact .leaf hn 0 d hp (by rw [Config.maxWidth]; omega)
    · next z o hn => exact ⟨[], n, z, o, rfl, rfl, hn⟩
  | succ left ih =>
    have hw : Config.maxWidth - (left + 1) = path.length := by rw [Config.maxWidth]; omega
    rw [visit, hw]
    split
    · next sym hn => exact .leaf hn (left + 1) d hp rfl
    · next z o hn =>
      have hz := ih z pat d (path ++ [false]) (by simp; omega) (hp.snoc_false (by omega))
      split
      · next hvz =>
        rw [hvz] at hz
        obtain ⟨bits, m, z', o', h1, h2, h3⟩ := hz
        exact ⟨false :: bits, m, z', o', by simp [h1], by rw [descend_internal hn]; exact h2, h3⟩
      · next dz hvz =>
        rw [hvz] at hz
        have ho := ih o (pat ||| 1#56 <<< path.length) dz (path ++ [true]) (by simp; omega) (hp.snoc_true (by omega))
        cases hvo : visit t left o (pat ||| 1#56 <<< path.length) dz with
        | none =>
          rw [hvo] at ho
          obtain ⟨bits, m, z', o', h1, h2, h3⟩ := ho
          exact ⟨true :: bits, m, z', o', by simp [h1], by rw [descend_internal hn]; exact h2, h3⟩
        | some do' =>
          rw [hvo] at ho
          exact hz.internal hn ho

/-- A dictionary that was built: every path is short enough, a symbol of a leaf is recorded with the last path to it, any other
symbol is absent (R151, R156). -/
theorem dictOfTree_some {t : Vector Node 511} {root : BitVec 9} {d : Vector DictEntry 256}
    (h : dictOfTree t root = some d) :
    Shallow t root 56 ∧ ∀ sym,
      ((∀ bits, ¬ isCodeOf t root bits sym) ∧ dictAt d sym = ⟨0, 0, false⟩)
        ∨ ∃ bits, isLastCodeOf t root bits sym ∧ (dictAt d sym).Records bits := by
  have := visit_spec t 56 root 0 emptyDict [] rfl Spells.nil
  rw [dictOfTree, Config.maxWidth] at h
  rw [h] at this
  refine ⟨this.1, fun sym => ?_⟩
  have := this.2 sym
  rwa [dictAt_emptyDict] at this

/-- An overflow: an internal node is reached at width 56 (R152). -/
theorem dictOfTree_none {t : Vector Node 511} {root : BitVec 9} (h : dictOfTree t root = none) :
    ∃ bits m z o, bits.length = 56 ∧ descend t root bits = some m ∧ nodeAt t m = .internal z o := by
  have := visit_spec t 56 root 0 emptyDict [] rfl Spells.nil
  rw [dictOfTree, Config.maxWidth] at h
  rwa [h] at this

/-- The entries of a built dictionary are well formed (10_state R44 (a), (b)). -/
theorem dictOfTree_wf {t : Vector Node 511} {root : BitVec 9} {d : Vector DictEntry 256}
    (h : dictOfTree t root = some d) (sym : Byte) : (dictAt d sym).Wf := by
  rcases (dictOfTree_some h).2 sym with ⟨-, h2⟩ | ⟨bits, -, h2⟩
  · rw [h2]
    simp [DictEntry.Wf]
  · exact h2.wf

theorem emptyDict_wf (sym : Byte) : (dictAt emptyDict sym).Wf := by
  rw [dictAt_emptyDict]
  simp [DictEntry.Wf]

/-- What `build_dict` does, said once (R151). -/
theorem State.buildDict_cases (s : State) :
    (∃ d, dictOfTree s.tree s.treeRoot = some d ∧ s.buildDict = s.setDict d true)
      ∨ (dictOfTree s.tree s.treeRoot = none ∧ s.buildDict = s.setDict emptyDict false) := by
  cases h : dictOfTree s.tree s.treeRoot with
  | some d => exact .inl ⟨d, rfl, by simp [State.buildDict, h]⟩
  | none => exact .inr ⟨rfl, by simp [State.buildDict, h]⟩

end Sys2Proof.Machine
end

