-- ==== Sys2Proof/Laws/Pack.lean ====
section
/-! SUPPORT. The laws of the bit packer: its bytes hold the block's code bits in stream order, then zero padding
(44_bit_packer R165 to R172, 30_encoding R105 to R107). -/

namespace Sys2Proof.Machine

/-! ### Bits of a byte list -/

theorem length_byteBits (b : Byte) : (byteBits b).length = 8 := by simp [byteBits]

theorem payloadBits_nil : payloadBits [] = [] := rfl

theorem payloadBits_cons (b : Byte) (bs : List Byte) : payloadBits (b :: bs) = byteBits b ++ payloadBits bs := by
  simp [payloadBits]

theorem payloadBits_append (bs cs : List Byte) : payloadBits (bs ++ cs) = payloadBits bs ++ payloadBits cs := by
  simp [payloadBits]

theorem length_payloadBits (bs : List Byte) : (payloadBits bs).length = 8 * bs.length := by
  induction bs with
  | nil => rfl
  | cons b bs ih =>
    rw [payloadBits_cons, List.length_append, length_byteBits, ih, List.length_cons]
    omega

/-- Stream bit `k` is bit `k mod 8` of byte `⌊k/8⌋` (30_encoding R105). -/
theorem getElem_payloadBits (bs : List Byte) (k : Nat) (h : k < (payloadBits bs).length) :
    (payloadBits bs)[k] = (bs[k / 8]'(by rw [length_payloadBits] at h; omega)).getLsbD (k % 8) := by
  induction bs generalizing k with
  | nil => simp [payloadBits] at h
  | cons b bs ih =>
    simp only [payloadBits_cons]
    by_cases hk : k < 8
    · have h1 : k / 8 = 0 := by omega
      have h2 : k % 8 = k := by omega
      rw [List.getElem_append_left (by rw [length_byteBits]; exact hk)]
      simp [byteBits, h1, h2]
    · have hl : 8 ≤ k := by omega
      rw [List.getElem_append_right (by rw [length_byteBits]; exact hl)]
      have hb : k - (byteBits b).length < (payloadBits bs).length := by
        rw [length_payloadBits] at *
        rw [length_byteBits]
        simp only [List.length_cons] at h
        omega
      rw [ih _ hb]
      have h1 : k / 8 = (k - 8) / 8 + 1 := by omega
      have h2 : (k - 8) % 8 = k % 8 := by omega
      simp [length_byteBits, h1, h2]

/-! ### The window -/

/-- The lowest `n` bits of a window, bit 0 first. -/
def windowBits (win : BitVec 64) (n : Nat) : List Bool := (List.range n).map win.getLsbD

theorem windowBits_add (win : BitVec 64) (a b : Nat) :
    windowBits win (a + b) = windowBits win a ++ windowBits (win >>> a) b := by
  simp only [windowBits, List.range_add, List.map_append, List.map_map]
  congr 1
  apply List.map_congr_left
  intro i _
  simp

theorem byteBits_setWidth (win : BitVec 64) : byteBits (win.setWidth 8) = windowBits win 8 := by
  simp only [byteBits, windowBits]
  apply List.map_congr_left
  intro i hi
  have := List.mem_range.1 hi
  simp [this]

/-- Draining emits the low bits of the window in order (R166). -/
theorem payloadBits_drainBytes (k : Nat) (win : BitVec 64) :
    payloadBits (drainBytes k win) = windowBits win (8 * k) := by
  induction k generalizing win with
  | zero => rfl
  | succ k ih =>
    rw [drainBytes, payloadBits_cons, ih, byteBits_setWidth, Nat.mul_succ, Nat.add_comm, windowBits_add]

/-- The window holds nothing at or above the pending bits (R167). -/
def WindowClear (win : BitVec 64) (wb : Nat) : Prop := ∀ i, wb ≤ i → win.getLsbD i = false

theorem windowBits_or (win : BitVec 64) (wb : Nat) (h : WindowClear win wb) (e : DictEntry) (he : e.Wf)
    (hw : wb ≤ 7) :
    WindowClear (win ||| (e.pattern.setWidth 64 <<< wb)) (wb + e.width.toNat)
      ∧ windowBits (win ||| (e.pattern.setWidth 64 <<< wb)) (wb + e.width.toNat) = windowBits win wb ++ e.codeBits := by
  obtain ⟨-, he2, he3⟩ := he
  rw [Config.maxWidth] at he3
  have high : ∀ i, e.width.toNat ≤ i → e.pattern.getLsbD i = false := by
    intro i hi
    rw [BitVec.getLsbD]
    apply Nat.testBit_lt_two_pow
    exact lt_of_lt_of_le he2 (Nat.pow_le_pow_right (by omega) hi)
  constructor
  · intro i hi
    rw [BitVec.getLsbD_or, h i (by omega), BitVec.getLsbD_shiftLeft, BitVec.getLsbD_setWidth, high _ (by omega)]
    simp
  · rw [windowBits_add]
    congr 1
    · apply List.map_congr_left
      intro i hi
      have hi := List.mem_range.1 hi
      rw [BitVec.getLsbD_or, BitVec.getLsbD_shiftLeft]
      simp [hi]
    · apply List.map_congr_left
      intro i hi
      have hi := List.mem_range.1 hi
      rw [BitVec.getLsbD_ushiftRight, BitVec.getLsbD_or, h _ (by omega), BitVec.getLsbD_shiftLeft,
        BitVec.getLsbD_setWidth]
      have h1 : wb + i < 64 := by omega
      have h2 : i < 64 := by omega
      simp [h1, h2]

/-- The packer's bytes from a window on: the pending bits, the code bits of the rest of the block, zero padding to a
whole byte (R166, R172). -/
theorem packFrom_spec (d : Vector DictEntry 256) (hd : ∀ sym, (dictAt d sym).Wf) (block : List Byte) (win : BitVec 64)
    (wb : Nat) (hw : wb ≤ 7) (h : WindowClear win wb) :
    ∃ pad < 8, payloadBits (packFrom d block win wb)
      = windowBits win wb ++ streamBits d block ++ List.replicate pad false := by
  induction block generalizing win wb with
  | nil =>
    rw [packFrom]
    split
    · refine ⟨8 - wb, by omega, ?_⟩
      have : 8 = wb + (8 - wb) := by omega
      rw [payloadBits_cons, payloadBits_nil, byteBits_setWidth, List.append_nil, this, windowBits_add]
      simp only [streamBits, List.flatMap_nil, List.append_nil]
      congr 1
      apply List.ext_getElem
      · simp [windowBits]
      · intro i h1 h2
        simp only [windowBits, List.getElem_map, List.getElem_range, BitVec.getLsbD_ushiftRight,
          List.getElem_replicate]
        exact h _ (by omega)
    · have : wb = 0 := by omega
      subst this
      exact ⟨0, by omega, rfl⟩
  | cons b block ih =>
    rw [packFrom]
    obtain ⟨h1, h2⟩ := windowBits_or win wb h (dictAt d b) (hd b) hw
    generalize win ||| ((dictAt d b).pattern.setWidth 64 <<< wb) = win' at h1 h2 ⊢
    generalize hwb : wb + (dictAt d b).width.toNat = wb' at h1 h2 ⊢
    have hdm := Nat.div_add_mod wb' 8
    obtain ⟨pad, hp, hs⟩ := ih (win' >>> (8 * (wb' / 8))) (wb' % 8) (by omega) (fun i hi => by
      rw [BitVec.getLsbD_ushiftRight]
      exact h1 _ (by omega))
    refine ⟨pad, hp, ?_⟩
    rw [payloadBits_append, payloadBits_drainBytes, hs, ← List.append_assoc, ← List.append_assoc, ← windowBits_add,
      hdm, h2]
    simp [streamBits]

/-- The packed stream of a block: its code bits in stream order, then fewer than 8 zero bits (R105, R106, R172). -/
theorem packStream_bits (d : Vector DictEntry 256) (hd : ∀ sym, (dictAt d sym).Wf) (block : List Byte) :
    ∃ pad < 8, payloadBits (packStream d block) = streamBits d block ++ List.replicate pad false := by
  obtain ⟨pad, h1, h2⟩ := packFrom_spec d hd block 0 0 (by omega) (fun i _ => by
    show BitVec.getLsbD 0#64 i = false
    simp)
  exact ⟨pad, h1, h2⟩

/-- The number of bytes of the packed stream is the number of code bits over 8, rounded up (R107). -/
theorem length_packStream (d : Vector DictEntry 256) (hd : ∀ sym, (dictAt d sym).Wf) (block : List Byte) :
    (packStream d block).length = ((streamBits d block).length + 7) / 8 := by
  obtain ⟨pad, h1, h2⟩ := packStream_bits d hd block
  have := congrArg List.length h2
  rw [length_payloadBits, List.length_append, List.length_replicate] at this
  omega

/-- The number of code bits of a block is the sum of its codes' widths (R107). -/
theorem length_streamBits (d : Vector DictEntry 256) (block : List Byte) :
    (streamBits d block).length = (block.map fun b => (dictAt d b).width.toNat).sum := by
  simp [streamBits, List.length_flatMap, DictEntry.codeBits]

/-! ### `pack` -/

theorem State.pack_mem (s : State) (len : Nat) :
    (s.pack len).mem
      = (s.fillBuf .pay ((packStream s.dict (s.bufBytes .raw 0 len)).take Config.packCap)).mem := rfl

/-- PAY_LEN after `pack`, below the capacity the length of the packed stream, else the capacity (R166, R168). -/
theorem State.pack_payLen (s : State) (len : Nat) :
    (s.pack len).payLen.toNat = min Config.packCap (packStream s.dict (s.bufBytes .raw 0 len)).length := by
  simp only [State.pack, State.setPayLen_payLen, List.length_take, BitVec.toNat_ofNat, Config.packCap]
  omega

/-- PAY[0..PAY_LEN−1] after `pack` (R166, R168). -/
theorem State.pack_payload (s : State) (len : Nat) :
    (s.pack len).bufBytes .pay 0 (s.pack len).payLen.toNat
      = (packStream s.dict (s.bufBytes .raw 0 len)).take Config.packCap := by
  have h := State.bufBytes_fillBuf_same s .pay ((packStream s.dict (s.bufBytes .raw 0 len)).take Config.packCap)
    (by rw [List.length_take]; exact Nat.min_le_left _ _)
  rw [List.length_take] at h
  rw [State.pack_payLen]
  exact h

/-- Does `pack` overflow, in terms of the number of code bits (R168). -/
theorem State.packOverflows_iff {s : State} (h : s.DictWf) (len : Nat) :
    s.packOverflows len = true ↔ 65536 ≤ ((streamBits s.dict (s.bufBytes .raw 0 len)).length + 7) / 8 := by
  unfold State.packOverflows
  rw [length_packStream _ h, decide_eq_true_iff]
  rfl

/-- `pack` writes PAY[0..PAY_LEN−1] alone. -/
theorem State.memByte_pack (s : State) (len a : Nat)
    (h : ¬ (Buffer.pay.base ≤ a ∧ a < Buffer.pay.base + (s.pack len).payLen.toNat)) :
    (s.pack len).memByte a = s.memByte a := by
  have e : (s.pack len).memByte a
      = (s.fillBuf .pay ((packStream s.dict (s.bufBytes .raw 0 len)).take Config.packCap)).memByte a := rfl
  rw [e, State.memByte_fillBuf, if_neg]
  rw [State.pack_payLen] at h
  simp only [List.length_take, Buffer.size, Config.packCap] at *
  omega

/-- Bytes of a packed stream hold the code bits in stream order, zero-padded (R105, R106). -/
theorem getLsbD_packStream {d : Vector DictEntry 256} (hd : ∀ sym, (dictAt d sym).Wf) (block : List Byte) (k : Nat)
    (h : k / 8 < (packStream d block).length) :
    ((packStream d block)[k / 8]).getLsbD (k % 8) = (streamBits d block)[k]?.getD false := by
  obtain ⟨pad, -, e⟩ := packStream_bits d hd block
  have hk : k < (payloadBits (packStream d block)).length := by rw [length_payloadBits]; omega
  rw [← getElem_payloadBits _ k hk]
  simp only [e]
  rw [List.getElem_append]
  split
  · next hh => simp [hh]
  · next hh =>
    rw [List.getElem_replicate, List.getElem?_eq_none (by omega)]
    rfl

/-- The bits of PAY after `pack`, PAY_LEN bytes of them (R105, R106, R166). -/
theorem State.pack_bits (s : State) (h : s.DictWf) (len k : Nat) (hk : k < 8 * (s.pack len).payLen.toNat) :
    ((s.pack len).bufByte .pay (k / 8)).getLsbD (k % 8)
      = (streamBits s.dict (s.bufBytes .raw 0 len))[k]?.getD false := by
  have hlen := State.pack_payLen s len
  have h1 : k / 8 < (s.pack len).payLen.toNat := by omega
  have h2 := State.getElem_bufBytes (s.pack len) .pay 0 (s.pack len).payLen.toNat (k / 8)
    (by rw [State.length_bufBytes]; exact h1)
  simp only [State.pack_payload, List.getElem_take, Nat.zero_add] at h2
  rw [← h2]
  exact getLsbD_packStream h _ k (by omega)

end Sys2Proof.Machine
end

