-- ==== Sys2Proof/Laws/Queue.lean ====
section
/-! SUPPORT. The laws of the priority queue: the order of 40_priority_queue R110 is a strict total order on entries with
distinct serials, and `pqTake` extracts its greatest entry. -/

namespace Sys2Proof.Machine

/-! ### The order -/

theorem PqEntry.above_iff (a b : PqEntry) :
    a.above b = true ↔ b.weight.toInt < a.weight.toInt
      ∨ (a.weight.toInt = b.weight.toInt ∧ a.serial.toNat < b.serial.toNat) := by
  simp [PqEntry.above, BitVec.slt, BitVec.ult, BitVec.toInt_inj]

theorem PqEntry.greater_iff (a b : PqEntry) : a.Greater b ↔ a.above b = true := by
  rw [PqEntry.above_iff, PqEntry.Greater, BitVec.toInt_inj]

theorem PqEntry.above_irrefl (a : PqEntry) : a.above a = false := by
  rw [← Bool.not_eq_true, PqEntry.above_iff]
  omega

theorem PqEntry.above_trans {a b c : PqEntry} (h : a.above b = true) (k : b.above c = true) : a.above c = true := by
  rw [PqEntry.above_iff] at *
  omega

theorem PqEntry.above_asymm {a b : PqEntry} (h : a.above b = true) : b.above a = false := by
  rw [← Bool.not_eq_true]
  rw [PqEntry.above_iff] at *
  omega

/-- Entries with different serials are ordered one way or the other (R112). -/
theorem PqEntry.above_total {a b : PqEntry} (h : a.serial ≠ b.serial) : a.above b = true ∨ b.above a = true := by
  have : a.serial.toNat ≠ b.serial.toNat := fun k => h (BitVec.eq_of_toNat_eq k)
  rw [PqEntry.above_iff, PqEntry.above_iff]
  omega

/-- If neither of two entries is above the other's rival, the rival is not above either: the order is negatively
transitive. -/
theorem PqEntry.not_above_trans {a b c : PqEntry} (h : a.above b = false) (k : b.above c = false) :
    a.above c = false := by
  rw [← Bool.not_eq_true] at *
  rw [PqEntry.above_iff] at *
  omega

/-! ### The greatest entry -/

theorem pqGreatest_fold (es : List PqEntry) (m : PqEntry) :
    (es.foldl (fun m f => if f.above m then f else m) m ∈ m :: es)
      ∧ ∀ f ∈ m :: es, f.above (es.foldl (fun m f => if f.above m then f else m) m) = false := by
  induction es generalizing m with
  | nil => simp [PqEntry.above_irrefl]
  | cons e es ih =>
    rw [List.foldl_cons]
    by_cases h : e.above m = true
    · rw [if_pos h]
      refine ⟨?_, fun f hf => ?_⟩
      · have := (ih e).1
        simp only [List.mem_cons] at this ⊢
        tauto
      · rcases List.mem_cons.1 hf with rfl | hf
        · exact PqEntry.not_above_trans (PqEntry.above_asymm h) ((ih e).2 e List.mem_cons_self)
        · exact (ih e).2 f hf
    · rw [if_neg h]
      refine ⟨?_, fun f hf => ?_⟩
      · have := (ih m).1
        simp only [List.mem_cons] at this ⊢
        tauto
      · rcases List.mem_cons.1 hf with rfl | hf
        · exact (ih f).2 f List.mem_cons_self
        · rcases List.mem_cons.1 hf with rfl | hf
          · exact PqEntry.not_above_trans (by simpa using h) ((ih m).2 m List.mem_cons_self)
          · exact (ih m).2 f (List.mem_cons_of_mem _ hf)

/-- `pqTake` answers nothing exactly on the empty queue. -/
theorem pqTake_eq_none {q : List PqEntry} : pqTake q = none ↔ q = [] := by
  cases q <;> simp [pqTake, pqGreatest]

/-- What `pqTake` answers: an entry of the queue that no entry is above, and the queue without it. -/
theorem pqTake_eq_some {q r : List PqEntry} {e : PqEntry} (h : pqTake q = some (e, r)) :
    e ∈ q ∧ (∀ f ∈ q, f.above e = false) ∧ r = q.erase e := by
  cases q with
  | nil => simp [pqTake, pqGreatest] at h
  | cons x xs =>
    simp only [pqTake, pqGreatest, Option.map_some, Option.some.injEq, Prod.mk.injEq] at h
    obtain ⟨rfl, rfl⟩ := h
    exact ⟨(pqGreatest_fold xs x).1, (pqGreatest_fold xs x).2, rfl⟩

theorem pqTake_isSome {q : List PqEntry} (h : q ≠ []) : ∃ e, pqTake q = some (e, q.erase e) := by
  cases hq : pqTake q with
  | none => exact absurd (pqTake_eq_none.1 hq) h
  | some p => exact ⟨p.1, by obtain ⟨-, -, h3⟩ := pqTake_eq_some hq; rw [← h3]⟩

/-- A queue with one entry yields it and is then empty. -/
@[simp] theorem pqTake_singleton (e : PqEntry) : pqTake [e] = some (e, []) := by
  simp [pqTake, pqGreatest]

theorem pqTake_length {q r : List PqEntry} {e : PqEntry} (h : pqTake q = some (e, r)) : r.length + 1 = q.length := by
  obtain ⟨h1, -, rfl⟩ := pqTake_eq_some h
  have := List.length_pos_of_mem h1
  rw [List.length_erase_of_mem h1]
  omega

/-- What is taken, put back in front, is the queue up to order. -/
theorem pqTake_perm {q r : List PqEntry} {e : PqEntry} (h : pqTake q = some (e, r)) : q.Perm (e :: r) := by
  obtain ⟨h1, -, rfl⟩ := pqTake_eq_some h
  exact List.perm_cons_erase h1

/-- With distinct serials, the entry taken is above every other (R112). -/
theorem pqTake_above {q r : List PqEntry} {e : PqEntry} (h : pqTake q = some (e, r))
    (hd : q.Pairwise fun a b => a.serial ≠ b.serial) {f : PqEntry} (hf : f ∈ q) (hne : f ≠ e) :
    e.above f = true := by
  obtain ⟨h1, h2, -⟩ := pqTake_eq_some h
  have : e.serial ≠ f.serial := by
    have : Std.Symm fun a b : PqEntry => a.serial ≠ b.serial := ⟨fun _ _ => Ne.symm⟩
    exact hd.forall h1 hf (Ne.symm hne)
  rcases PqEntry.above_total this with k | k
  · exact k
  · rw [h2 f hf] at k; cases k

/-- With distinct serials, the entry taken is greater than all that are left (R112). -/
theorem pqTake_greater {q r : List PqEntry} {e : PqEntry} (h : pqTake q = some (e, r))
    (hd : q.Pairwise fun a b => a.serial ≠ b.serial) : ∀ f ∈ r, e.Greater f := by
  intro f hf
  have hn : (e :: r).Pairwise fun a b => a.serial ≠ b.serial :=
    (pqTake_perm h).pairwise hd fun h => h.symm
  have hne : f ≠ e := fun k => (List.rel_of_pairwise_cons hn hf) (by rw [k])
  exact (PqEntry.greater_iff e f).2 (pqTake_above h hd ((pqTake_perm h).symm.subset (List.mem_cons_of_mem _ hf)) hne)

/-! ### The queue's invariant (10_state R44 (c)) -/

theorem State.QueueWf.setQueue_nil {s : State} : (s.setQueue [] 0).QueueWf := by
  simp [State.QueueWf]

/-- A successful insertion keeps the queue well formed. -/
theorem State.QueueWf.pqInsert {s t : State} (h : s.QueueWf) {w : BitVec 32} {p : BitVec 16}
    (k : s.pqInsert w p = .ok t) : t.QueueWf := by
  unfold State.pqInsert at k
  split at k
  · cases k
  split at k
  · cases k
  next h1 h2 =>
  cases k
  have hs : s.pqSerial.toNat + 1 < 2 ^ 32 := by
    have : s.pqSerial.toNat ≠ 0xFFFFFFFF := fun e => h2 (BitVec.eq_of_toNat_eq (by simpa using e))
    have := s.pqSerial.isLt
    omega
  have hn : (s.pqSerial + 1).toNat = s.pqSerial.toNat + 1 := by
    rw [BitVec.toNat_add]
    exact Nat.mod_eq_of_lt hs
  obtain ⟨ha, hb, hc⟩ := h
  refine ⟨?_, ?_, ?_⟩
  · simp only [pqPush, State.setQueue_pq, List.length_append, List.length_singleton]
    omega
  · simp only [pqPush, State.setQueue_pq, List.pairwise_append]
    refine ⟨hb, by simp, fun e he f hf => ?_⟩
    rw [List.mem_singleton.1 hf]
    exact hc e he
  · intro e he
    simp only [pqPush, State.setQueue_pq, List.mem_append, List.mem_singleton] at he
    simp only [State.setQueue_pqSerial, hn]
    rcases he with he | rfl
    · have := hc e he; omega
    · simp

/-- An extraction keeps the queue well formed. -/
theorem State.QueueWf.erase {s : State} (h : s.QueueWf) (e : PqEntry) :
    (s.setQueue (s.pq.erase e) s.pqSerial).QueueWf := by
  obtain ⟨ha, hb, hc⟩ := h
  refine ⟨?_, hb.sublist List.erase_sublist, fun f hf => hc f (List.mem_of_mem_erase hf)⟩
  exact le_trans List.erase_sublist.length_le ha

/-! ### The commands -/

/-- Everything PQ_INSERT can do (R116). -/
theorem pqInsertRun_cases (s : State) :
    (s.pq.length ≥ Config.pqCap ∧ pqInsertRun s = s.raise .errPqOverflow)
      ∨ (s.pq.length < Config.pqCap ∧ s.pqSerial = 0xFFFFFFFF ∧ pqInsertRun s = s.raise .errPqSerial)
      ∨ (s.pq.length < Config.pqCap ∧ s.pqSerial ≠ 0xFFFFFFFF
        ∧ pqInsertRun s
          = (s.setQueue (pqPush s.pq s.weightOperand s.pqSerial s.payloadOperand) (s.pqSerial + 1)).finish .ok) := by
  unfold pqInsertRun State.pqInsert
  by_cases h : Config.pqCap ≤ s.pq.length
  · exact .inl ⟨h, by rw [if_pos h]⟩
  · by_cases k : s.pqSerial = 0xFFFFFFFF
    · exact .inr (.inl ⟨Nat.lt_of_not_le h, k, by rw [if_neg h, if_pos k]⟩)
    · exact .inr (.inr ⟨Nat.lt_of_not_le h, k, by rw [if_neg h, if_neg k]⟩)

/-- Everything PQ_EXTRACT can do (R117). -/
theorem pqExtractRun_cases (s : State) :
    (s.pq = [] ∧ pqExtractRun s = s.raise .errPqUnderflow)
      ∨ ∃ e : PqEntry, pqTake s.pq = some (e, s.pq.erase e)
        ∧ pqExtractRun s = ((s.setQueue (s.pq.erase e) s.pqSerial).setResults e.weight (e.payload.setWidth 32)
            e.serial).finish .ok := by
  unfold pqExtractRun State.pqExtract
  by_cases h : s.pq = []
  · exact .inl ⟨h, by rw [pqTake_eq_none.2 h]⟩
  · obtain ⟨e, he⟩ := pqTake_isSome h
    exact .inr ⟨e, he, by rw [he]⟩

end Sys2Proof.Machine
end

