-- ==== Sys2Proof/Laws/Tree.lean ====
section
/-! SUPPORT. The laws of the tree builder: node numbering, the shape of the tree it leaves, and that the tree depends on
the frequency list alone (42_tree_builder R136 to R146). -/

namespace Sys2Proof.Machine

/-! ### Nodes by number -/

theorem nodeAt_eq (t : Vector Node 511) (n : BitVec 9) : nodeAt t n = t[n.toNat]?.getD (.internal 0 0) := rfl

theorem childrenAt_eq (t : Vector Node 511) {i : Nat} (h : i < 511) :
    childrenAt t i = (t[i]?.getD (.internal 0 0)).children := by
  have : (BitVec.ofNat 9 i).toNat = i := by
    rw [BitVec.toNat_ofNat]
    omega
  rw [childrenAt, nodeAt_eq, this]

theorem getElem?_setNode (t : Vector Node 511) {i : Nat} (h : i < 511) (n : Node) (j : Nat) :
    (t.setIfInBounds i n)[j]? = if j = i then some n else t[j]? := by
  rw [Vector.getElem?_setIfInBounds]
  by_cases hj : i = j
  · subst hj; simp [h]
  · have : ¬ j = i := fun k => hj k.symm
    simp [hj, this]

/-! ### The builder's invariant -/

/-- What holds of the builder between its moves: `pend` are the indices taken from the queue and not yet given a
parent. Every node below `next` is pending, queued, or a child of exactly one node below `next` (R136, R137). -/
structure Builder.Good (b : Builder) (pend : List Nat) : Prop where
  next_le : b.next ≤ 511
  serial_eq : b.serial.toNat = b.next
  rising : b.queue.Pairwise fun e f => e.serial.toNat < f.serial.toNat
  bound : ∀ e ∈ b.queue, e.payload.toNat = e.serial.toNat ∧ e.serial.toNat < b.next
  forest : (pend ++ b.queue.map (fun e => e.payload.toNat) ++ (List.range b.next).flatMap (childrenAt b.tree)).Perm
    (List.range b.next)
  below : ∀ i < b.next, ∀ c ∈ childrenAt b.tree i, c < i

theorem Builder.good_clear (t : Vector Node 511) : (Builder.clear t).Good [] := by
  constructor <;> simp [Builder.clear]

/-- Placing a node whose children are the pending indices leaves nothing pending. -/
theorem Builder.Good.place {b : Builder} {pend : List Nat} (h : b.Good pend) (hn : b.next < 511) {n : Node}
    (hc : n.children = pend) (w : BitVec 32) : (b.place n w).Good [] := by
  have hpl : (BitVec.ofNat 16 b.next).toNat = b.next := by
    rw [BitVec.toNat_ofNat]
    omega
  have hpend : ∀ c ∈ pend, c < b.next := by
    intro c hc
    have : c ∈ List.range b.next := h.forest.subset (by simp [hc])
    exact List.mem_range.1 this
  have htree : ∀ i, i < b.next → childrenAt (b.tree.setIfInBounds b.next n) i = childrenAt b.tree i := by
    intro i hi
    rw [childrenAt_eq _ (by omega), childrenAt_eq _ (by omega), getElem?_setNode _ hn, if_neg (by omega)]
  have hnew : childrenAt (b.tree.setIfInBounds b.next n) b.next = pend := by
    rw [childrenAt_eq _ hn, getElem?_setNode _ hn, if_pos rfl]
    exact hc
  refine ⟨?_, ?_, ?_, ?_, ?_, ?_⟩
  · simp only [Builder.place]; omega
  · have : (1 : BitVec 32).toNat = 1 := rfl
    simp only [Builder.place, BitVec.toNat_add, h.serial_eq, this]
    omega
  · simp only [Builder.place, pqPush, List.pairwise_append]
    refine ⟨h.rising, by simp, fun e he f hf => ?_⟩
    rw [List.mem_singleton.1 hf]
    simp only [h.serial_eq]
    exact (h.bound e he).2
  · intro e he
    simp only [Builder.place, pqPush, List.mem_append, List.mem_singleton] at he ⊢
    rcases he with he | rfl
    · have := h.bound e he; omega
    · refine ⟨hpl.trans h.serial_eq.symm, ?_⟩
      show b.serial.toNat < b.next + 1
      rw [h.serial_eq]
      omega
  · simp only [Builder.place, pqPush, List.nil_append, List.map_append, List.map_cons, List.map_nil, hpl,
      List.range_succ, List.flatMap_append, List.flatMap_cons, List.flatMap_nil, List.append_nil, hnew]
    have e1 : (List.range b.next).flatMap (childrenAt (b.tree.setIfInBounds b.next n))
        = (List.range b.next).flatMap (childrenAt b.tree) := by
      rw [List.flatMap_def, List.flatMap_def]
      congr 1
      exact List.map_congr_left fun i hi => htree i (List.mem_range.1 hi)
    rw [e1]
    have p1 := h.forest
    have p2 : (b.queue.map (fun e => e.payload.toNat) ++ [b.next]
        ++ ((List.range b.next).flatMap (childrenAt b.tree) ++ pend)).Perm
        (pend ++ b.queue.map (fun e => e.payload.toNat) ++ (List.range b.next).flatMap (childrenAt b.tree)
          ++ [b.next]) := by
      rw [List.perm_iff_count]
      intro a
      simp only [List.count_append]
      omega
    exact p2.trans (p1.append_right _)
  · intro i hi c hic
    simp only [Builder.place] at hi hic
    by_cases h' : i = b.next
    · subst h'
      rw [hnew] at hic
      exact hpend c hic
    · rw [htree i (by omega)] at hic
      exact h.below i (by omega) c hic

theorem Builder.place_next (b : Builder) (n : Node) (w : BitVec 32) : (b.place n w).next = b.next + 1 := rfl

theorem Builder.place_length (b : Builder) (n : Node) (w : BitVec 32) :
    (b.place n w).queue.length = b.queue.length + 1 := by
  simp [Builder.place, pqPush]

theorem Builder.place_newest (b : Builder) (h : b.next < 65536) (n : Node) (w : BitVec 32) :
    ∃ e ∈ (b.place n w).queue, e.payload.toNat + 1 = (b.place n w).next := by
  refine ⟨_, List.mem_append_right _ (List.mem_singleton.2 rfl), ?_⟩
  simp only [Builder.place, BitVec.toNat_ofNat]
  omega

/-- Placing changes only the next node. -/
theorem Builder.place_tree (b : Builder) (h : b.next < 511) (n : Node) (w : BitVec 32) (i : Nat) :
    (b.place n w).tree[i]? = if i = b.next then some n else b.tree[i]? := getElem?_setNode _ h _ _

/-! ### LOAD -/

/-- LOAD places leaf `i` for frequency entry `i` (R136, R137). -/
theorem Builder.load_spec (t : Vector Node 511) (es : List FreqEntry) (h : es.length ≤ 256) :
    (es.foldl Builder.addLeaf (Builder.clear t)).Good []
      ∧ (es.foldl Builder.addLeaf (Builder.clear t)).next = es.length
      ∧ (es.foldl Builder.addLeaf (Builder.clear t)).queue.length = es.length
      ∧ (∀ i, (es.foldl Builder.addLeaf (Builder.clear t)).tree[i]?
          = if h : i < es.length then some (.leaf es[i].sym) else t[i]?)
      ∧ (es ≠ [] → ∃ e ∈ (es.foldl Builder.addLeaf (Builder.clear t)).queue, e.payload.toNat + 1 = es.length) := by
  induction es using List.reverseRecOn with
  | nil => exact ⟨Builder.good_clear t, by simp [Builder.clear]⟩
  | append_singleton es e ih =>
    rw [List.length_append, List.length_singleton] at h
    obtain ⟨h1, h2, h3, h4, -⟩ := ih (by omega)
    rw [List.foldl_append, List.foldl_cons, List.foldl_nil]
    simp only [List.length_append, List.length_singleton, Builder.addLeaf]
    refine ⟨h1.place (by omega) rfl _, by rw [Builder.place_next, h2], by rw [Builder.place_length, h3],
      fun i => ?_, fun _ => ?_⟩
    · rw [Builder.place_tree _ (by omega), h2, h4]
      by_cases hi : i = es.length
      · subst hi; simp
      · by_cases hl : i < es.length
        · have : i < es.length + 1 := by omega
          simp [hi, hl, this]
        · have : ¬ i < es.length + 1 := by omega
          simp [hi, hl, this]
    · obtain ⟨f, hf, hp⟩ := Builder.place_newest (es.foldl Builder.addLeaf (Builder.clear t)) (by omega)
        (.leaf e.sym) (-e.count)
      rw [Builder.place_next, h2] at hp
      exact ⟨f, hf, hp⟩

/-- The queue LOAD leaves (R136, R137). -/
theorem Builder.load_queue (t : Vector Node 511) (es : List FreqEntry) (h : es.length ≤ 256) :
    (es.foldl Builder.addLeaf (Builder.clear t)).queue = loadedQueue es := by
  induction es using List.reverseRecOn with
  | nil => rfl
  | append_singleton es e ih =>
    rw [List.length_append, List.length_singleton] at h
    obtain ⟨h1, h2, -⟩ := Builder.load_spec t es (by omega)
    have hs : (es.foldl Builder.addLeaf (Builder.clear t)).serial = BitVec.ofNat 32 es.length := by
      rw [← h2, ← h1.serial_eq]; simp
    rw [List.foldl_append, List.foldl_cons, List.foldl_nil, Builder.addLeaf, Builder.place, ih (by omega), hs, h2]
    simp [loadedQueue, pqPush, List.zipIdx_append]

/-! ### MERGE -/

/-- What one merge does, when two entries are there: the parent of two queued nodes is placed (R136). -/
theorem Builder.merge_spec {b : Builder} (h : b.Good []) (hn : b.next < 511) (hq : 1 < b.queue.length) :
    ∃ x y : PqEntry, ∃ q r : List PqEntry, pqTake b.queue = some (x, q) ∧ pqTake q = some (y, r)
      ∧ b.merge = Builder.place { b with queue := r } (mergedNode Config.childOrder x y) (x.weight + y.weight)
      ∧ b.merge.Good [] ∧ b.merge.queue.length + 1 = b.queue.length := by
  obtain ⟨x, hx⟩ := pqTake_isSome (q := b.queue) (by rintro h; simp [h] at hq)
  have l1 := pqTake_length hx
  obtain ⟨y, hy⟩ := pqTake_isSome (q := b.queue.erase x) (by intro h; rw [h] at l1; simp at l1; omega)
  have l2 := pqTake_length hy
  have p1 := pqTake_perm hx
  have p2 := pqTake_perm hy
  have mx : x ∈ b.queue := (pqTake_eq_some hx).1
  have my : y ∈ b.queue := List.mem_of_mem_erase (pqTake_eq_some hy).1
  have hm : b.merge = Builder.place { b with queue := (b.queue.erase x).erase y }
      (mergedNode Config.childOrder x y) (x.weight + y.weight) := by
    simp only [Builder.merge, hx, hy]
  have good : Builder.Good { b with queue := (b.queue.erase x).erase y } [x.payload.toNat, y.payload.toNat] := by
    have sub : ((b.queue.erase x).erase y).Sublist b.queue := List.erase_sublist.trans List.erase_sublist
    refine ⟨h.next_le, h.serial_eq, h.rising.sublist sub, fun e he => h.bound e (sub.subset he), ?_, h.below⟩
    have p3 : (b.queue.map fun e => e.payload.toNat).Perm
        (x.payload.toNat :: y.payload.toNat :: ((b.queue.erase x).erase y).map fun e => e.payload.toNat) :=
      (p1.map _).trans ((p2.map _).cons _)
    refine List.Perm.trans ?_ h.forest
    simp only [List.nil_append, List.cons_append]
    exact (p3.append_right _).symm
  refine ⟨x, y, _, _, hx, hy, hm, ?_, ?_⟩
  · rw [hm]
    refine good.place hn ?_ _
    have bx := h.bound x mx
    have by' := h.bound y my
    have e1 : (x.payload.setWidth 9).toNat = x.payload.toNat := by
      rw [BitVec.toNat_setWidth]; omega
    have e2 : (y.payload.setWidth 9).toNat = y.payload.toNat := by
      rw [BitVec.toNat_setWidth]; omega
    simp only [mergedNode, Config.childOrder, Node.children, e1, e2]
  · rw [hm, Builder.place_length]
    show ((b.queue.erase x).erase y).length + 1 + 1 = b.queue.length
    omega

/-- A merge of the builder is a MERGE of R136. -/
theorem Builder.mergeStep {b : Builder} (h : b.Good []) (hn : b.next < 511) (hq : 1 < b.queue.length) :
    MergeStep b.queue b.merge.queue b.next b.merge.tree[b.next]? := by
  obtain ⟨x, y, q, r, hx, hy, hm, -, -⟩ := Builder.merge_spec h hn hq
  have hd : b.queue.Pairwise fun a c => a.serial ≠ c.serial := h.rising.imp fun k e => by rw [e] at k; omega
  have hq' := pqTake_perm hx
  have hd' : q.Pairwise fun a c => a.serial ≠ c.serial :=
    (List.pairwise_cons.1 (hq'.pairwise hd fun k => k.symm)).2
  have hg := pqTake_greater hx hd
  refine ⟨x, y, r, hq'.trans ((pqTake_perm hy).cons x), fun e he => ?_, pqTake_greater hy hd', ?_, ?_⟩
  · exact hg e ((pqTake_perm hy).symm.subset he)
  · have hs : b.serial = BitVec.ofNat 32 b.next := by rw [← h.serial_eq]; simp
    rw [hm, Builder.place, pqPush, ← hs]
    exact List.perm_append_singleton _ _
  · rw [hm]
    exact (Builder.place_tree { b with queue := r } hn _ _ b.next).trans (if_pos rfl)

/-- MERGE to the end: one entry is left, each merge took one entry and placed one internal node (R136, R137). -/
theorem Builder.mergeAll_spec (fuel : Nat) {b : Builder} (h : b.Good []) (hq : 1 ≤ b.queue.length)
    (hf : b.queue.length ≤ fuel + 1) (hn : b.next + b.queue.length ≤ 512)
    (hnew : ∃ e ∈ b.queue, e.payload.toNat + 1 = b.next) :
    (Builder.mergeAll fuel b).Good []
      ∧ (Builder.mergeAll fuel b).queue.length = 1
      ∧ (Builder.mergeAll fuel b).next + 1 = b.next + b.queue.length
      ∧ (∀ i < b.next, (Builder.mergeAll fuel b).tree[i]? = b.tree[i]?)
      ∧ (∀ i, b.next ≤ i → i < (Builder.mergeAll fuel b).next →
          ∃ z o, (Builder.mergeAll fuel b).tree[i]? = some (.internal z o))
      ∧ (∀ i, (Builder.mergeAll fuel b).next ≤ i → (Builder.mergeAll fuel b).tree[i]? = b.tree[i]?)
      ∧ ∃ e ∈ (Builder.mergeAll fuel b).queue, e.payload.toNat + 1 = (Builder.mergeAll fuel b).next := by
  induction fuel generalizing b with
  | zero =>
    rw [Builder.mergeAll]
    exact ⟨h, by omega, by omega, fun _ _ => rfl, fun i h1 h2 => by omega, fun _ _ => rfl, hnew⟩
  | succ fuel ih =>
    rw [Builder.mergeAll]
    split
    · next hq1 =>
      obtain ⟨x, y, q, r, -, -, hm, hg, hl⟩ := Builder.merge_spec h (by omega) hq1
      have hnext : b.merge.next = b.next + 1 := by rw [hm]; rfl
      have hnew' : ∃ e ∈ b.merge.queue, e.payload.toNat + 1 = b.merge.next := by
        rw [hm]
        exact Builder.place_newest { b with queue := r } (show b.next < 65536 by omega) _ _
      have htree : ∀ i, b.merge.tree[i]?
          = if i = b.next then some (mergedNode Config.childOrder x y) else b.tree[i]? := by
        intro i
        rw [hm]
        exact Builder.place_tree { b with queue := r } (show b.next < 511 by omega) _ _ i
      obtain ⟨g1, g2, g3, g4, g5, g6, g7⟩ := ih hg (by omega) (by omega) (by omega) hnew'
      refine ⟨g1, g2, by omega, fun i hi => ?_, fun i h1 h2 => ?_, fun i hi => ?_, g7⟩
      · rw [g4 i (by omega), htree, if_neg (by omega)]
      · by_cases hi : i = b.next
        · rw [g4 i (by omega), htree, if_pos hi]
          exact ⟨_, _, rfl⟩
        · exact g5 i (by omega) h2
      · rw [g6 i hi, htree, if_neg (by omega)]
    · exact ⟨h, by omega, by omega, fun _ _ => rfl, fun i h1 h2 => by omega, fun _ _ => rfl, hnew⟩

/-- MERGE to the end is one MERGE of R136 after the other, the k-th placing node `next + k`. -/
theorem Builder.mergeAll_steps (fuel : Nat) {b : Builder} (h : b.Good []) (hq : 1 ≤ b.queue.length)
    (hf : b.queue.length ≤ fuel + 1) (hn : b.next + b.queue.length ≤ 512)
    (hnew : ∃ e ∈ b.queue, e.payload.toNat + 1 = b.next) :
    ∃ queue : Nat → List PqEntry, queue 0 = b.queue
      ∧ (∀ k, k + 1 < b.queue.length →
          MergeStep (queue k) (queue (k + 1)) (b.next + k) (Builder.mergeAll fuel b).tree[b.next + k]?)
      ∧ queue (b.queue.length - 1) = (Builder.mergeAll fuel b).queue := by
  induction fuel generalizing b with
  | zero =>
    refine ⟨fun _ => b.queue, rfl, fun k hk => by omega, ?_⟩
    rw [Builder.mergeAll]
  | succ fuel ih =>
    rw [Builder.mergeAll]
    split
    · next hq1 =>
      obtain ⟨x, y, q, r, -, -, hm, hg, hl⟩ := Builder.merge_spec h (by omega) hq1
      have hnext : b.merge.next = b.next + 1 := by rw [hm]; rfl
      have hnew' : ∃ e ∈ b.merge.queue, e.payload.toNat + 1 = b.merge.next := by
        rw [hm]
        exact Builder.place_newest { b with queue := r } (show b.next < 65536 by omega) _ _
      have hstep := Builder.mergeStep h (by omega) hq1
      obtain ⟨-, -, -, g4, -⟩ := Builder.mergeAll_spec fuel hg (by omega) (by omega) (by omega) hnew'
      obtain ⟨queue, h0, h1, h2⟩ := ih hg (by omega) (by omega) (by omega) hnew'
      refine ⟨fun k => match k with | 0 => b.queue | k + 1 => queue k, rfl, fun k hk => ?_, ?_⟩
      · cases k with
        | zero =>
          show MergeStep b.queue (queue 0) b.next (Builder.mergeAll fuel b.merge).tree[b.next]?
          rw [g4 b.next (by omega), h0]
          exact hstep
        | succ k =>
          have := h1 k (by omega)
          rw [hnext, show b.next + 1 + k = b.next + (k + 1) by omega] at this
          exact this
      · rw [show b.queue.length - 1 = (b.merge.queue.length - 1) + 1 by omega]
        exact h2
    · refine ⟨fun _ => b.queue, rfl, fun k hk => by omega, rfl⟩

/-! ### The whole build -/

/-- What CLEAR, LOAD and MERGE leave for a list of 1 to 256 entries (R136, R137, R141, R146). -/
theorem buildNodes_spec (t : Vector Node 511) {es : List FreqEntry} (h0 : es ≠ []) (h : es.length ≤ 256) :
    ∃ r : PqEntry, (buildNodes t es).queue = [r] ∧ r.payload.toNat = 2 * es.length - 2
      ∧ (buildNodes t es).Good []
      ∧ (buildNodes t es).next = 2 * es.length - 1
      ∧ (∀ i (hi : i < es.length), (buildNodes t es).tree[i]? = some (.leaf es[i].sym))
      ∧ (∀ i, es.length ≤ i → i < 2 * es.length - 1 → ∃ z o, (buildNodes t es).tree[i]? = some (.internal z o))
      ∧ (∀ i, 2 * es.length - 1 ≤ i → (buildNodes t es).tree[i]? = t[i]?) := by
  obtain ⟨h1, h2, h3, h4, h5⟩ := Builder.load_spec t es h
  have hpos : 1 ≤ es.length := List.length_pos_iff.2 h0
  obtain ⟨g1, g2, g3, g4, g5, g6, g7⟩ := Builder.mergeAll_spec es.length h1 (by omega) (by omega) (by omega)
    (by rw [h2]; exact h5 h0)
  have hnext : (buildNodes t es).next = 2 * es.length - 1 := by
    have : (buildNodes t es).next + 1 = _ := g3
    omega
  obtain ⟨r, hr⟩ := List.length_eq_one_iff.1 g2
  obtain ⟨e, he, hp⟩ := g7
  rw [hr, List.mem_singleton] at he
  subst he
  refine ⟨e, hr, ?_, g1, hnext, fun i hi => ?_, fun i hl hu => ?_, fun i hi => ?_⟩
  · have : e.payload.toNat + 1 = (buildNodes t es).next := hp
    omega
  · have := g4 i (by omega)
    rw [h4, dif_pos hi] at this
    exact this
  · exact g5 i (by omega) (by show i < (buildNodes t es).next; omega)
  · have := g6 i (by show (buildNodes t es).next ≤ i; omega)
    rw [h4, dif_neg (by omega)] at this
    exact this

/-- The internal nodes of a build are the results of its merges, in their order, and the last entry's payload is the root
(R136, R137). -/
theorem buildNodes_merges (t : Vector Node 511) {es : List FreqEntry} (h0 : es ≠ []) (h : es.length ≤ 256) :
    ∃ queue : Nat → List PqEntry, queue 0 = loadedQueue es
      ∧ (∀ k, k + 1 < es.length →
          MergeStep (queue k) (queue (k + 1)) (es.length + k) (buildNodes t es).tree[es.length + k]?)
      ∧ queue (es.length - 1) = (buildNodes t es).queue := by
  obtain ⟨h1, h2, h3, -, h5⟩ := Builder.load_spec t es h
  have hpos : 1 ≤ es.length := List.length_pos_iff.2 h0
  have := Builder.mergeAll_steps es.length h1 (by omega) (by omega) (by omega) (by rw [h2]; exact h5 h0)
  rwa [Builder.load_queue t es h, h2, show (loadedQueue es).length = es.length by simp [loadedQueue]] at this

theorem State.length_entries {s : State} {n : Nat} (h : n ≤ 256) : (s.entries n).length = n := by
  simp [State.entries]
  omega

/-- What `build_tree(N)` does, said once (R136 to R138): the queue is empty, PQ_SERIAL is 2N − 1, the tree has 2N − 1
nodes and root 2N − 2, leaf `i` is frequency entry `i`, nodes past the tree are kept. -/
theorem State.buildTree_spec (s : State) {n : Nat} (h0 : 1 ≤ n) (h : n ≤ 256) :
    ∃ t : Vector Node 511,
      s.buildTree n = (s.setQueue [] (BitVec.ofNat 32 (2 * n - 1))).setTree t (BitVec.ofNat 9 (2 * n - 2)) (2 * n - 1)
      ∧ t = (buildNodes s.tree (s.entries n)).tree
      ∧ TreeWf t (BitVec.ofNat 9 (2 * n - 2)) (2 * n - 1)
      ∧ (∀ i (hi : i < n), t[i]? = some (.leaf (s.flist[i]'(by omega)).sym))
      ∧ (∀ i, n ≤ i → i < 2 * n - 1 → ∃ z o, t[i]? = some (.internal z o))
      ∧ (∀ i, 2 * n - 1 ≤ i → t[i]? = s.tree[i]?) := by
  have hl := State.length_entries (s := s) h
  obtain ⟨r, hq, hr, hg, hn, h1, h2, h3⟩ := buildNodes_spec s.tree (es := s.entries n)
    (by intro k; rw [k] at hl; simp at hl; omega) (by omega)
  rw [hl] at hr hn h2 h3
  have hroot : r.payload.setWidth 9 = BitVec.ofNat 9 (2 * n - 2) := by
    apply BitVec.eq_of_toNat_eq
    rw [BitVec.toNat_setWidth, hr, BitVec.toNat_ofNat]
  have hser : (buildNodes s.tree (s.entries n)).serial = BitVec.ofNat 32 (2 * n - 1) := by
    apply BitVec.eq_of_toNat_eq
    rw [hg.serial_eq, hn, BitVec.toNat_ofNat]
    omega
  refine ⟨_, ?_, rfl, ⟨?_, ?_⟩, fun i hi => ?_, h2, h3⟩
  · simp only [State.buildTree, hq, pqTake_singleton, hroot, hser, hn]
  · have hf := hg.forest
    rw [hq, hn] at hf
    have e1 : (BitVec.ofNat 9 (2 * n - 2)).toNat = 2 * n - 2 := by
      rw [BitVec.toNat_ofNat]
      omega
    rw [e1, ← hr]
    exact hf
  · have := hg.below
    rw [hn] at this
    exact this
  · rw [h1 i (by omega)]
    simp [State.entries]

/-! ### The tree depends on the frequency list alone (R144) -/

/-- Two builders that agree but for nodes they have not placed. -/
structure Builder.Agree (b c : Builder) : Prop where
  queue : b.queue = c.queue
  serial : b.serial = c.serial
  next : b.next = c.next
  tree : ∀ i < b.next, b.tree[i]? = c.tree[i]?

theorem Builder.Agree.place {b c : Builder} (h : b.Agree c) (hn : b.next < 511) (n : Node) (w : BitVec 32) :
    (b.place n w).Agree (c.place n w) := by
  refine ⟨?_, ?_, ?_, fun i hi => ?_⟩
  · simp only [Builder.place, h.queue, h.serial, h.next]
  · simp only [Builder.place, h.serial]
  · simp only [Builder.place, h.next]
  · rw [Builder.place_next] at hi
    rw [Builder.place_tree _ hn, Builder.place_tree _ (by rw [← h.next]; exact hn), ← h.next]
    split
    · rfl
    · exact h.tree i (by omega)

theorem Builder.Agree.load (t u : Vector Node 511) (es : List FreqEntry) (h : es.length ≤ 256) :
    (es.foldl Builder.addLeaf (Builder.clear t)).Agree (es.foldl Builder.addLeaf (Builder.clear u)) := by
  induction es using List.reverseRecOn with
  | nil => exact ⟨rfl, rfl, rfl, fun i hi => absurd hi (Nat.not_lt_zero i)⟩
  | append_singleton es e ih =>
    rw [List.length_append, List.length_singleton] at h
    rw [List.foldl_append, List.foldl_append]
    refine (ih (by omega)).place ?_ _ _
    rw [(Builder.load_spec t es (by omega)).2.1]
    omega

theorem Builder.Agree.mergeAll (fuel : Nat) {b c : Builder} (h : b.Agree c) (hg : b.Good [])
    (hn : b.next + b.queue.length ≤ 512) : (Builder.mergeAll fuel b).Agree (Builder.mergeAll fuel c) := by
  induction fuel generalizing b c with
  | zero => exact h
  | succ fuel ih =>
    rw [Builder.mergeAll, Builder.mergeAll, ← h.queue]
    split
    · next hq =>
      obtain ⟨x, y, q, r, hx, hy, hm, hg', hl⟩ := Builder.merge_spec hg (by omega) hq
      have hc : c.merge = Builder.place { c with queue := r } (mergedNode Config.childOrder x y)
          (x.weight + y.weight) := by
        simp only [Builder.merge, ← h.queue, hx, hy]
      have ha : b.merge.Agree c.merge := by
        rw [hm, hc]
        exact Builder.Agree.place (b := { b with queue := r }) (c := { c with queue := r })
          ⟨rfl, h.serial, h.next, h.tree⟩ (show b.next < 511 by omega) _ _
      refine ih ha hg' ?_
      have : b.merge.next = b.next + 1 := by rw [hm]; rfl
      omega
    · exact h

/-- Whatever stood in TREE before, the nodes built are the same (R144). -/
theorem buildNodes_agree (t u : Vector Node 511) {es : List FreqEntry} (h : es.length ≤ 256) :
    (buildNodes t es).Agree (buildNodes u es) := by
  obtain ⟨h1, h2, h3, -, -⟩ := Builder.load_spec t es h
  exact (Builder.Agree.load t u es h).mergeAll es.length h1 (by omega)

end Sys2Proof.Machine
end

