-- ==== Sys2Proof/Laws/Unpack.lean ====
section
/-! SUPPORT. The laws of the bit unpacker: what a walk answers, and that the walk over payload bits is the window machine
of 45_bit_unpacker R182. -/

namespace Sys2Proof.Machine

/-! ### The walk -/

/-- A code's bits lead the walk to its symbol and no further (R182). -/
theorem walk_code {t : Vector Node 511} {n : BitVec 9} {bits : List Bool} {sym : Byte} (h : isCodeOf t n bits sym)
    (rest : List Bool) : walk t n (bits ++ rest) = some (sym, rest) := by
  induction bits generalizing n with
  | nil =>
    obtain ⟨m, h1, h2⟩ := h
    simp only [descend_nil, Option.some.injEq] at h1
    subst h1
    cases rest <;> simp [walk, h2]
  | cons b bits ih =>
    cases hn : nodeAt t n with
    | leaf sym' => have := (isCodeOf_leaf hn).1 h; simp at this
    | internal z o =>
      obtain ⟨b', rest', he, hr⟩ := (isCodeOf_internal hn).1 h
      obtain ⟨rfl, rfl⟩ := List.cons.inj he
      rw [List.cons_append, walk, hn]
      exact ih hr

/-- What a walk that reaches a leaf consumed is a code of the symbol it answers (R182). -/
theorem walk_some {t : Vector Node 511} {n : BitVec 9} {bits rest : List Bool} {sym : Byte}
    (h : walk t n bits = some (sym, rest)) : ∃ code, bits = code ++ rest ∧ isCodeOf t n code sym := by
  induction bits generalizing n with
  | nil =>
    rw [walk] at h
    cases hn : nodeAt t n with
    | leaf sym' =>
      rw [hn] at h
      simp only [Option.some.injEq, Prod.mk.injEq] at h
      obtain ⟨rfl, rfl⟩ := h
      exact ⟨[], rfl, (isCodeOf_leaf hn).2 ⟨rfl, rfl⟩⟩
    | internal z o => rw [hn] at h; cases h
  | cons b bits ih =>
    rw [walk] at h
    cases hn : nodeAt t n with
    | leaf sym' =>
      rw [hn] at h
      simp only [Option.some.injEq, Prod.mk.injEq] at h
      obtain ⟨rfl, rfl⟩ := h
      exact ⟨[], rfl, (isCodeOf_leaf hn).2 ⟨rfl, rfl⟩⟩
    | internal z o =>
      rw [hn] at h
      obtain ⟨code, hc, hr⟩ := ih h
      exact ⟨b :: code, by simp [hc], (isCodeOf_internal hn).2 ⟨b, code, rfl, hr⟩⟩

/-- A walk that answers nothing used up the bits on a path to an internal node (R182). -/
theorem walk_none {t : Vector Node 511} {n : BitVec 9} {bits : List Bool} (h : walk t n bits = none) :
    ∃ m zero one, descend t n bits = some m ∧ nodeAt t m = .internal zero one := by
  induction bits generalizing n with
  | nil =>
    cases hn : nodeAt t n with
    | leaf sym => simp [walk, hn] at h
    | internal z o => exact ⟨n, z, o, rfl, hn⟩
  | cons b bits ih =>
    cases hn : nodeAt t n with
    | leaf sym => simp [walk, hn] at h
    | internal z o =>
      rw [walk, hn] at h
      rw [descend_internal hn]
      exact ih h

/-- What the symbols are that `unpack` emits: those of the codes at the front of the payload, to the end or until the
payload is exhausted (R182, R184, R189). -/
theorem yields_unpackSyms (t : Vector Node 511) (root : BitVec 9) (count : Nat) (bits : List Bool) :
    Yields t root count bits (unpackSyms t root count bits) := by
  induction count generalizing bits with
  | zero => exact ⟨[], bits, .nil, rfl, .inl rfl⟩
  | succ count ih =>
    rw [unpackSyms]
    cases hw : walk t root bits with
    | none => exact ⟨[], bits, .nil, rfl, .inr ⟨Nat.succ_pos count, walk_none hw⟩⟩
    | some p =>
      obtain ⟨sym, rest⟩ := p
      obtain ⟨code, rfl, hc⟩ := walk_some hw
      obtain ⟨codes, rest', h1, h3, h2⟩ := ih rest
      refine ⟨code :: codes, rest', .cons hc h1, by simp [← h3], ?_⟩
      simp only [List.length_cons]
      exact h2.imp (fun h => by omega) (fun h => ⟨by omega, h.2⟩)

theorem length_unpackSyms_le (t : Vector Node 511) (root : BitVec 9) (count : Nat) (bits : List Bool) :
    (unpackSyms t root count bits).length ≤ count := by
  induction count generalizing bits with
  | zero => simp [unpackSyms]
  | succ count ih =>
    rw [unpackSyms]
    split
    · simp
    · next sym rest _ =>
      have := ih rest
      simp only [List.length_cons]
      omega

/-- A stream of codes is unpacked to the symbols it was made of, whatever follows it (R182, R184). -/
theorem unpackSyms_codes {t : Vector Node 511} {root : BitVec 9} (code : Byte → List Bool) (block : List Byte)
    (h : ∀ b ∈ block, isCodeOf t root (code b) b) (rest : List Bool) :
    unpackSyms t root block.length (block.flatMap code ++ rest) = block := by
  induction block with
  | nil => rfl
  | cons b block ih =>
    rw [List.length_cons, unpackSyms, List.flatMap_cons, List.append_assoc, walk_code (h b List.mem_cons_self)]
    simp only
    rw [ih fun c hc => h c (List.mem_cons_of_mem _ hc)]

/-- The tree of one leaf emits its symbol without a payload bit (R186). -/
theorem unpackSyms_leaf {t : Vector Node 511} {root : BitVec 9} {sym : Byte} (h : nodeAt t root = .leaf sym)
    (count : Nat) (bits : List Bool) : unpackSyms t root count bits = List.replicate count sym := by
  induction count with
  | zero => rfl
  | succ count ih =>
    have := walk_code ((isCodeOf_leaf h (bits := []) (sym' := sym)).2 ⟨rfl, rfl⟩) bits
    rw [List.nil_append] at this
    rw [unpackSyms, this]
    simp only
    rw [ih, List.replicate_succ]

/-! ### The window machine of R182 -/

/-- The unpacker's window, its bit count, and the payload bytes not yet consumed. -/
structure UnpackWindow where
  win : BitVec 64
  wb : Nat
  rest : List Byte

/-- One bit, with the refill of R182: nothing when the payload is exhausted. -/
def UnpackWindow.bit (w : UnpackWindow) : Option (Bool × UnpackWindow) :=
  if w.wb = 0 then
    match w.rest with
    | [] => none
    | b :: bs =>
      let win := w.win ||| (b.setWidth 64 <<< w.wb)
      some (win.getLsbD 0, ⟨win >>> 1, w.wb + 8 - 1, bs⟩)
  else some (w.win.getLsbD 0, ⟨w.win >>> 1, w.wb - 1, w.rest⟩)

/-- The bits the window and the payload still hold, in stream order. -/
def UnpackWindow.bits (w : UnpackWindow) : List Bool := windowBits w.win w.wb ++ payloadBits w.rest

/-- The inner loop of R182. -/
def windowWalk (t : Vector Node 511) : Nat → BitVec 9 → UnpackWindow → Option (Byte × UnpackWindow)
  | 0, n, w =>
    match nodeAt t n with
    | .leaf sym => some (sym, w)
    | .internal _ _ => none
  | fuel + 1, n, w =>
    match nodeAt t n with
    | .leaf sym => some (sym, w)
    | .internal z o =>
      match w.bit with
      | none => none
      | some (b, w') => windowWalk t fuel (if b then o else z) w'

theorem windowBits_succ (win : BitVec 64) (n : Nat) :
    windowBits win (n + 1) = win.getLsbD 0 :: windowBits (win >>> 1) n := by
  rw [Nat.add_comm, windowBits_add]
  rfl

theorem windowClear_shift {win : BitVec 64} {n : Nat} (h : WindowClear win (n + 1)) : WindowClear (win >>> 1) n := by
  intro i hi
  rw [BitVec.getLsbD_ushiftRight]
  exact h _ (by omega)

/-- The window yields the bits it holds one by one (R183). -/
theorem UnpackWindow.bit_spec {w : UnpackWindow} (h : WindowClear w.win w.wb) :
    match w.bits with
    | [] => w.bit = none
    | b :: bs => ∃ w' : UnpackWindow, w.bit = some (b, w') ∧ WindowClear w'.win w'.wb ∧ w'.bits = bs := by
  obtain ⟨win, wb, rest⟩ := w
  cases wb with
  | zero =>
    have hz : win = 0#64 := by
      apply BitVec.eq_of_getLsbD_eq
      intro i _
      rw [h i (Nat.zero_le i)]
      simp
    subst hz
    cases rest with
    | nil => simp [UnpackWindow.bits, windowBits, payloadBits, UnpackWindow.bit]
    | cons b bs =>
      have hb : windowBits (b.setWidth 64) 8 = byteBits b := by
        simp only [windowBits, byteBits]
        apply List.map_congr_left
        intro i hi
        have := List.mem_range.1 hi
        have : i < 64 := by omega
        simp [this]
      have hs : UnpackWindow.bits ⟨0#64, 0, b :: bs⟩
          = (b.setWidth 64).getLsbD 0 :: (windowBits (b.setWidth 64 >>> 1) 7 ++ payloadBits bs) := by
        rw [UnpackWindow.bits, payloadBits_cons, ← hb, windowBits_succ]
        rfl
      rw [hs]
      refine ⟨⟨b.setWidth 64 >>> 1, 7, bs⟩, by simp [UnpackWindow.bit], ?_, rfl⟩
      apply windowClear_shift
      intro i hi
      have : b.getLsbD i = false := BitVec.getLsbD_of_ge b i (by omega)
      simp [this]
  | succ wb =>
    have hs : UnpackWindow.bits ⟨win, wb + 1, rest⟩
        = win.getLsbD 0 :: (windowBits (win >>> 1) wb ++ payloadBits rest) := by
      rw [UnpackWindow.bits, windowBits_succ]
      rfl
    rw [hs]
    exact ⟨⟨win >>> 1, wb, rest⟩, by simp [UnpackWindow.bit], windowClear_shift h, rfl⟩

/-- The walk of the model is the window machine of R182, as long as the fuel covers the bits held (log 12). -/
theorem windowWalk_eq_walk (t : Vector Node 511) (fuel : Nat) (n : BitVec 9) (w : UnpackWindow)
    (h : WindowClear w.win w.wb) (hf : w.bits.length ≤ fuel) :
    match walk t n w.bits with
    | none => windowWalk t fuel n w = none
    | some (sym, rest) => ∃ w' : UnpackWindow, windowWalk t fuel n w = some (sym, w') ∧ WindowClear w'.win w'.wb
        ∧ w'.bits = rest := by
  induction fuel generalizing n w with
  | zero =>
    have hb : w.bits = [] := List.eq_nil_of_length_eq_zero (by omega)
    rw [hb, walk, windowWalk]
    cases hn : nodeAt t n with
    | leaf sym => exact ⟨w, rfl, h, hb⟩
    | internal z o => rfl
  | succ fuel ih =>
    rw [windowWalk]
    cases hn : nodeAt t n with
    | leaf sym =>
      have : walk t n w.bits = some (sym, w.bits) := by cases w.bits <;> simp [walk, hn]
      rw [this]
      exact ⟨w, rfl, h, rfl⟩
    | internal z o =>
      have hs := UnpackWindow.bit_spec h
      cases hb : w.bits with
      | nil =>
        rw [hb] at hs
        simp only [walk, hn, hs]
      | cons b bs =>
        rw [hb] at hs
        obtain ⟨w', h1, h2, h3⟩ := hs
        simp only [walk, hn, h1]
        have := ih (if b then o else z) w' h2 (by rw [h3]; rw [hb] at hf; simpa using hf)
        rwa [h3] at this

/-! ### `unpack` -/

/-- `unpack` writes RAW alone, from byte 0 up, one byte per symbol emitted (R182). -/
theorem State.memByte_unpack (s : State) (len payLen a : Nat)
    (h : ¬ (Buffer.raw.base ≤ a ∧ a < Buffer.raw.base + (s.emitted len payLen).length)) :
    (s.unpack len payLen).memByte a = s.memByte a := by
  unfold State.unpack
  rw [State.memByte_fillBuf, if_neg]
  simp only [Buffer.size] at *
  omega

theorem State.length_emitted_le (s : State) (len payLen : Nat) : (s.emitted len payLen).length ≤ len :=
  length_unpackSyms_le ..

/-- When the payload bits are the codes of a block, whatever follows them, `unpack` emits that block (R182). -/
theorem State.emitted_codes {s : State} {payLen : Nat} {block : List Byte} {code : Byte → List Bool}
    {rest : List Bool} (h : ∀ b ∈ block, isCodeOf s.tree s.treeRoot (code b) b)
    (k : payloadBits (s.bufBytes .pay 0 payLen) = block.flatMap code ++ rest) :
    s.emitted block.length payLen = block := by
  unfold State.emitted
  rw [k]
  exact unpackSyms_codes code block h rest

end Sys2Proof.Machine
end

