-- ==== Sys2Proof/Laws/Codec.lean ====
section
/-! SUPPORT. What ENCODE, UP_RUN and DECODE can do, said once each, and what the frame layouts hold at which offset
(46_block_codec R195, R196, R201; 30_encoding R91, R92). -/

namespace Sys2Proof.Machine

/-! ### ENCODE -/

/-- The state ENCODE has reached when the tree is built: the block is analyzed, the queue has been used up, and TREE holds
the tree of the `n` symbols that occur (R196). -/
def State.encodeBuilt (s : State) (n : Nat) : State :=
  let a := s.analyze s.blockLength
  (a.setQueue [] (BitVec.ofNat 32 (2 * n - 1))).setTree (buildNodes s.tree (a.entries n)).tree
    (BitVec.ofNat 9 (2 * n - 2)) (2 * n - 1)

/-- Everything ENCODE of a block of legal length can do (R196). -/
theorem encodeRun_cases {s : State} (h : s.blockLength ≤ Config.blockMax) (n : Nat)
    (hn : n = (s.analyze s.blockLength).listLength) :
    (n = 0 ∧ encodeRun s = ((s.analyze s.blockLength).writeRaw s.blockLength).finish .encRawEmpty)
    ∨ (n = 1 ∧ encodeRun s = ((s.analyze s.blockLength).writeRaw s.blockLength).finish .encRawSingle)
    ∨ (2 ≤ n ∧ n ≤ 256 ∧ dictOfTree (s.encodeBuilt n).tree (s.encodeBuilt n).treeRoot = none
      ∧ encodeRun s = (((s.encodeBuilt n).setDict emptyDict false).writeRaw s.blockLength).finish .encRawDict)
    ∨ (2 ≤ n ∧ n ≤ 256 ∧ ∃ d, dictOfTree (s.encodeBuilt n).tree (s.encodeBuilt n).treeRoot = some d
      ∧ ((((s.encodeBuilt n).setDict d true).packOverflows s.blockLength = true
          ∧ encodeRun s
            = ((((s.encodeBuilt n).setDict d true).pack s.blockLength).writeRaw s.blockLength).finish .encRawPack)
        ∨ (((s.encodeBuilt n).setDict d true).packOverflows s.blockLength = false
          ∧ encodeRun s = ((((s.encodeBuilt n).setDict d true).pack s.blockLength).writeCoded n s.blockLength
              (((s.encodeBuilt n).setDict d true).pack s.blockLength).payLen.toNat).finish .encCoded))) := by
  have hle : n ≤ 256 := by rw [hn, State.analyze_listLength]; exact occurring_le _
  have h0 : encodeRun s = if n = 0 then ((s.analyze s.blockLength).writeRaw s.blockLength).finish .encRawEmpty
      else if n = 1 then ((s.analyze s.blockLength).writeRaw s.blockLength).finish .encRawSingle
      else encodeTree (s.analyze s.blockLength) n s.blockLength := by
    rw [encodeRun, if_neg (by omega), hn]
  by_cases n0 : n = 0
  · rw [if_pos n0] at h0
    exact .inl ⟨n0, h0⟩
  rw [if_neg n0] at h0
  by_cases n1 : n = 1
  · rw [if_pos n1] at h0
    exact .inr (.inl ⟨n1, h0⟩)
  rw [if_neg n1] at h0
  have hb : (s.analyze s.blockLength).buildTree n = s.encodeBuilt n := by
    obtain ⟨t, h1, h2, -⟩ := (s.analyze s.blockLength).buildTree_spec (n := n) (by omega) hle
    rw [h1, h2]
    rfl
  rw [encodeTree, hb] at h0
  rcases (s.encodeBuilt n).buildDict_cases with ⟨d, hd, hv⟩ | ⟨hd, hv⟩ <;> rw [hv] at h0
  · refine .inr (.inr (.inr ⟨by omega, hle, d, hd, ?_⟩))
    simp only [State.setDict_dictValid, if_true, encodePacked] at h0
    split at h0
    · next ho => exact .inl ⟨ho, h0⟩
    · next ho => exact .inr ⟨by simpa using ho, h0⟩
  · exact .inr (.inr (.inl ⟨by omega, hle, hd, by simpa using h0⟩))

/-! ### UP_RUN -/

/-- Everything UP_RUN can do (R185): stop before the tree is built, run out of payload, or fill RAW[0..RAW_LEN−1]. -/
theorem upRun_cases (s : State) :
    (∃ c : Code, c.isError = true ∧ c ≠ .fmtExhausted ∧ upRun s = s.raise c)
    ∨ (1 ≤ s.listLength ∧ s.listLength ≤ 256 ∧ s.blockLength ≤ 65536 ∧ s.payloadLength ≤ 65536
      ∧ s.countSum s.listLength = s.blockLength
      ∧ (((s.buildTree s.listLength).exhausts s.blockLength s.payloadLength = true
          ∧ upRun s = ((s.buildTree s.listLength).unpack s.blockLength s.payloadLength).raise .fmtExhausted)
        ∨ ((s.buildTree s.listLength).exhausts s.blockLength s.payloadLength = false
          ∧ upRun s = ((s.buildTree s.listLength).unpack s.blockLength s.payloadLength).finish .ok))) := by
  simp only [upRun]
  by_cases h1 : s.listLength = 0
  · exact .inl ⟨_, rfl, by decide, if_pos h1⟩
  rw [if_neg h1]
  by_cases h2 : Config.alphabet < s.listLength
  · exact .inl ⟨_, rfl, by decide, if_pos h2⟩
  rw [if_neg h2]
  by_cases h3 : Config.blockMax < s.blockLength ∨ Config.packCap < s.payloadLength
  · exact .inl ⟨_, rfl, by decide, if_pos h3⟩
  rw [if_neg h3]
  by_cases h4 : s.countSum s.listLength ≠ s.blockLength
  · exact .inl ⟨_, rfl, by decide, if_pos h4⟩
  rw [if_neg h4]
  have h5 := not_or.1 h3
  refine .inr ⟨by omega, Nat.le_of_not_lt h2, Nat.le_of_not_lt h5.1, Nat.le_of_not_lt h5.2, not_not.1 h4, ?_⟩
  cases (s.buildTree s.listLength).exhausts s.blockLength s.payloadLength
  · exact .inr ⟨rfl, by simp⟩
  · exact .inl ⟨rfl, by simp⟩

/-! ### DECODE -/

/-- The state DECODE has reached when the tree of a coded frame is built: list and payload loaded, queue used up (R201). -/
def State.decodeBuilt (s : State) (n payLen : Nat) : State :=
  let a := ((s.loadHeader n).fillBuf .pay (s.bufBytes .frm (10 + 5 * n) payLen)).setPayLen payLen
  (a.setQueue [] (BitVec.ofNat 32 (2 * n - 1))).setTree (buildNodes s.tree ((s.loadHeader n).entries n)).tree
    (BitVec.ofNat 9 (2 * n - 2)) (2 * n - 1)

/-- Everything DECODE does with a coded frame whose header checks pass (R201). -/
theorem decodePayload_cases (s : State) {n len payLen : Nat} (h0 : 1 ≤ n) (h : n ≤ 256) :
    ((s.decodeBuilt n payLen).exhausts len payLen = true
      ∧ decodePayload (s.loadHeader n) n len payLen = ((s.decodeBuilt n payLen).unpack len payLen).raise .fmtExhausted)
    ∨ ((s.decodeBuilt n payLen).exhausts len payLen = false
      ∧ decodePayload (s.loadHeader n) n len payLen
        = ((((s.decodeBuilt n payLen).unpack len payLen).setRawLen len).setFrmUsed (10 + 5 * n + payLen)).finish
            .decCoded) := by
  have hb : (((s.loadHeader n).fillBuf .pay ((s.loadHeader n).bufBytes .frm (10 + 5 * n) payLen)).setPayLen
      payLen).buildTree n = s.decodeBuilt n payLen := by
    obtain ⟨t, h1, h2, -⟩ := State.buildTree_spec (((s.loadHeader n).fillBuf .pay
      ((s.loadHeader n).bufBytes .frm (10 + 5 * n) payLen)).setPayLen payLen) (n := n) h0 h
    rw [h1, h2]
    rfl
  rw [decodePayload, hb]
  cases he : (s.decodeBuilt n payLen).exhausts len payLen
  · exact .inr ⟨rfl, by simp⟩
  · exact .inl ⟨rfl, by simp⟩

/-- Everything DECODE can do (R201): stop before any table is written, copy a raw frame, stop with the list loaded, or go on
to the payload. -/
theorem decodeRun_cases (s : State) :
    (∃ c : Code, c.isError = true ∧ decodeRun s = s.raise c)
    ∨ ((s.bufLe32 .frm 2).toNat ≤ 65536
      ∧ decodeRun s = (((s.fillBuf .raw (s.bufBytes .frm 6 (s.bufLe32 .frm 2).toNat)).setRawLen
          (s.bufLe32 .frm 2).toNat).setFrmUsed (6 + (s.bufLe32 .frm 2).toNat)).finish .decRaw)
    ∨ ∃ n, n = (s.bufLe16 .frm 0).toNat ∧ 1 ≤ n ∧ n ≤ 256
      ∧ ((∃ c : Code, c.isError = true ∧ decodeRun s = (s.loadHeader n).raise c)
        ∨ ((s.bufLe32 .frm (2 + 5 * n)).toNat ≤ 65536 ∧ (s.bufLe32 .frm (6 + 5 * n)).toNat ≤ 65536
          ∧ (s.loadHeader n).countSum n = (s.bufLe32 .frm (2 + 5 * n)).toNat
          ∧ decodeRun s = decodePayload (s.loadHeader n) n (s.bufLe32 .frm (2 + 5 * n)).toNat
              (s.bufLe32 .frm (6 + 5 * n)).toNat)) := by
  simp only [decodeRun]
  by_cases h1 : Config.frmCap < s.frameLength
  · exact .inl ⟨_, rfl, if_pos h1⟩
  rw [if_neg h1]
  by_cases h2 : s.frameLength < 2
  · exact .inl ⟨_, rfl, if_pos h2⟩
  rw [if_neg h2]
  by_cases h3 : (s.bufLe16 .frm 0).toNat = 0
  · rw [if_pos h3]
    simp only [decodeRaw]
    by_cases h4 : s.frameLength < 6
    · exact .inl ⟨_, rfl, if_pos h4⟩
    rw [if_neg h4]
    by_cases h5 : Config.blockMax < (s.bufLe32 .frm 2).toNat
    · exact .inl ⟨_, rfl, if_pos h5⟩
    rw [if_neg h5]
    by_cases h6 : s.frameLength < 6 + (s.bufLe32 .frm 2).toNat
    · exact .inl ⟨_, rfl, if_pos h6⟩
    rw [if_neg h6]
    exact .inr (.inl ⟨Nat.le_of_not_lt h5, rfl⟩)
  rw [if_neg h3]
  by_cases h4 : Config.alphabet < (s.bufLe16 .frm 0).toNat
  · exact .inl ⟨_, rfl, if_pos h4⟩
  rw [if_neg h4]
  simp only [decodeCoded]
  generalize hn : (s.bufLe16 .frm 0).toNat = n at *
  by_cases h5 : s.frameLength < 10 + 5 * n
  · exact .inl ⟨_, rfl, if_pos h5⟩
  rw [if_neg h5]
  refine .inr (.inr ⟨n, rfl, by omega, Nat.le_of_not_lt h4, ?_⟩)
  by_cases h6 : Config.blockMax < (s.bufLe32 .frm (2 + 5 * n)).toNat ∨ Config.packCap < (s.bufLe32 .frm (6 + 5 * n)).toNat
  · exact .inl ⟨_, rfl, if_pos h6⟩
  rw [if_neg h6]
  by_cases h7 : s.frameLength < 10 + 5 * n + (s.bufLe32 .frm (6 + 5 * n)).toNat
  · exact .inl ⟨_, rfl, if_pos h7⟩
  rw [if_neg h7]
  by_cases h8 : (s.loadHeader n).countSum n ≠ (s.bufLe32 .frm (2 + 5 * n)).toNat
  · exact .inl ⟨_, rfl, if_pos h8⟩
  rw [if_neg h8]
  have h9 := not_or.1 h6
  exact .inr ⟨Nat.le_of_not_lt h9.1, Nat.le_of_not_lt h9.2, not_not.1 h8, rfl⟩

/-- Frequency entry `i` after a header of `n` entries was loaded (R201). -/
theorem State.loadHeader_flist (s : State) {n : Nat} (h : n ≤ 256) (i : Nat) (hi : i < 256) :
    (s.loadHeader n).flist[i] = if i < n then s.frameEntry i else s.flist[i] := by
  have hl : (s.loadHeader n).flist.toList
      = (List.range n).map s.frameEntry ++ s.flist.toList.drop n := by
    simp only [State.loadHeader, State.setFlist_flist, toList_overwriteFirst]
    rw [List.take_of_length_le (by simp [h])]
    simp
  have hg : ∀ (v : Vector FreqEntry 256), v[i] = v.toList[i]'(by simpa using hi) := fun v => by simp
  simp only [hg, hl]
  by_cases hin : i < n
  · rw [if_pos hin, List.getElem_append_left (by simpa using hin)]
    simp
  · rw [if_neg hin, List.getElem_append_right (by simpa using hin)]
    simp only [List.length_map, List.length_range, List.getElem_drop]
    congr 1
    omega

/-- The entries loaded from a header (R201). -/
theorem State.loadHeader_entries (s : State) {n : Nat} (h : n ≤ 256) :
    (s.loadHeader n).entries n = (List.range n).map s.frameEntry := by
  simp only [State.entries, State.loadHeader, State.setFlist_flist, toList_overwriteFirst]
  rw [List.take_of_length_le (l := (List.range n).map s.frameEntry) (i := 256) (by simp [h]),
    List.take_append_of_le_length (by simp), List.take_of_length_le (by simp)]

/-! ### Frame layouts -/

/-- A frame put into FRM reads back byte for byte. -/
theorem State.putFrame_bytes (s : State) {frame : List Byte} (h : frame.length ≤ Config.frmCap) (k : Nat)
    (hk : k < frame.length) : (s.putFrame frame).bufByte .frm k = frame[k] := by
  have h1 : (s.putFrame frame).bufByte .frm k = (s.fillBuf .frm frame).bufByte .frm k := rfl
  rw [h1, State.bufByte_fillBuf_same, if_pos (by simp only [Buffer.size]; omega)]
  simp [hk]

/-- FRM_LEN after a frame is put into FRM. -/
theorem State.putFrame_frmLen (s : State) {frame : List Byte} (h : frame.length ≤ Config.frmCap) :
    (s.putFrame frame).frmLen.toNat = frame.length := by
  simp only [Config.frmCap] at h
  rw [State.putFrame, State.setFrmLen_frmLen, BitVec.toNat_ofNat]
  omega

/-- A frame writer changes FRM[0..FRM_LEN−1] alone. -/
theorem State.memByte_putFrame (s : State) (frame : List Byte) (a : Nat)
    (h : ¬ (Buffer.frm.base ≤ a ∧ a < Buffer.frm.base + frame.length)) : (s.putFrame frame).memByte a = s.memByte a := by
  have e : (s.putFrame frame).memByte a = (s.fillBuf .frm frame).memByte a := rfl
  rw [e, State.memByte_fillBuf, if_neg]
  omega

theorem length_le32Bytes (v : Word) : (le32Bytes v).length = 4 := rfl

theorem length_rawFrame (block : List Byte) : (rawFrame block).length = 6 + block.length := by
  simp [rawFrame, le16Bytes, le32Bytes]; omega

theorem length_frameTable (es : List FreqEntry) : (es.flatMap FreqEntry.frameBytes).length = 5 * es.length := by
  induction es with
  | nil => rfl
  | cons e es ih =>
    rw [List.flatMap_cons, List.length_append, ih, List.length_cons]
    simp [FreqEntry.frameBytes, le32Bytes]
    omega

theorem length_codedFrame (es : List FreqEntry) (len : Nat) (payload : List Byte) :
    (codedFrame es len payload).length = 10 + 5 * es.length + payload.length := by
  simp only [codedFrame, List.length_append, length_frameTable, length_le32Bytes, le16Bytes, List.length_cons,
    List.length_nil]
  omega

/-- A list that stands in a buffer from an offset on. -/
def State.holdsAt (s : State) (b : Buffer) (i : Nat) (bs : List Byte) : Prop := s.bufBytes b i bs.length = bs

theorem State.holdsAt_iff {s : State} {b : Buffer} {i : Nat} {bs : List Byte} :
    s.holdsAt b i bs ↔ ∀ k (h : k < bs.length), s.bufByte b (i + k) = bs[k] := by
  constructor
  · intro h k hk
    have h2 : k < (s.bufBytes b i bs.length).length := by rwa [State.length_bufBytes]
    rw [← State.getElem_bufBytes s b i bs.length k h2]
    simp only [show s.bufBytes b i bs.length = bs from h]
  · intro h
    refine List.ext_getElem (State.length_bufBytes ..) fun k h1 h2 => ?_
    rw [State.getElem_bufBytes, h k h2]

theorem State.holdsAt_append {s : State} {b : Buffer} {i : Nat} {bs cs : List Byte} :
    s.holdsAt b i (bs ++ cs) ↔ s.holdsAt b i bs ∧ s.holdsAt b (i + bs.length) cs := by
  simp only [State.holdsAt_iff, List.length_append]
  constructor
  · intro h
    refine ⟨fun k hk => ?_, fun k hk => ?_⟩
    · rw [h k (by omega), List.getElem_append_left]
    · rw [Nat.add_assoc, h _ (by omega), List.getElem_append_right (by omega)]
      congr 1
      omega
  · rintro ⟨h1, h2⟩ k hk
    by_cases hb : k < bs.length
    · rw [h1 k hb, List.getElem_append_left]
    · have := h2 (k - bs.length) (by omega)
      rw [show i + bs.length + (k - bs.length) = i + k by omega] at this
      rw [this, List.getElem_append_right (by omega)]

theorem State.putFrame_holds (s : State) {frame : List Byte} (h : frame.length ≤ Config.frmCap) :
    (s.putFrame frame).holdsAt .frm 0 frame := by
  rw [State.holdsAt_iff]
  intro k hk
  rw [Nat.zero_add, s.putFrame_bytes h k hk]

/-- What a raw frame holds where (30_encoding R92). -/
theorem State.rawFrame_fields {s : State} {block : List Byte} (h : s.holdsAt .frm 0 (rawFrame block)) :
    s.bufLe16 .frm 0 = 0 ∧ s.bufLe32 .frm 2 = BitVec.ofNat 32 block.length ∧ s.holdsAt .frm 6 block := by
  rw [rawFrame, State.holdsAt_append, State.holdsAt_append] at h
  exact ⟨State.bufLe16_of_bytes h.1.1, State.bufLe32_of_bytes h.1.2, h.2⟩

/-- What the entries of a frequency table hold where (30_encoding R91). -/
theorem State.frameTable_fields {s : State} {es : List FreqEntry} {i : Nat}
    (h : s.holdsAt .frm i (es.flatMap FreqEntry.frameBytes)) (j : Nat) (hj : j < es.length) :
    s.bufByte .frm (i + 5 * j) = es[j].sym ∧ s.bufLe32 .frm (i + 1 + 5 * j) = es[j].count := by
  induction es generalizing i j with
  | nil => exact absurd hj (Nat.not_lt_zero j)
  | cons e es ih =>
    rw [List.flatMap_cons, State.holdsAt_append] at h
    have h5 : e.frameBytes.length = 5 := rfl
    rw [h5] at h
    match j with
    | 0 =>
      have h1 : e.frameBytes = [e.sym] ++ le32Bytes e.count := rfl
      rw [h1, State.holdsAt_append] at h
      refine ⟨?_, State.bufLe32_of_bytes h.1.2⟩
      have := (State.holdsAt_iff.1 h.1.1) 0 (by simp)
      simpa using this
    | j + 1 =>
      have := ih h.2 j (by simpa using hj)
      simp only [List.getElem_cons_succ]
      rw [show i + 5 * (j + 1) = i + 5 + 5 * j by omega, show i + 1 + 5 * (j + 1) = i + 5 + 1 + 5 * j by omega]
      exact this

/-- What a coded frame holds where (30_encoding R91). -/
theorem State.codedFrame_fields {s : State} {es : List FreqEntry} {len : Nat} {payload : List Byte}
    (h : s.holdsAt .frm 0 (codedFrame es len payload)) :
    s.bufLe16 .frm 0 = BitVec.ofNat 16 es.length
      ∧ (∀ j (hj : j < es.length), s.frameEntry j = es[j])
      ∧ s.bufLe32 .frm (2 + 5 * es.length) = BitVec.ofNat 32 len
      ∧ s.bufLe32 .frm (6 + 5 * es.length) = BitVec.ofNat 32 payload.length
      ∧ s.holdsAt .frm (10 + 5 * es.length) payload := by
  rw [codedFrame, State.holdsAt_append, State.holdsAt_append, State.holdsAt_append, State.holdsAt_append] at h
  obtain ⟨⟨⟨⟨h1, h2⟩, h3⟩, h4⟩, h5⟩ := h
  simp only [List.length_append, length_frameTable, length_le32Bytes,
    show ∀ v, (le16Bytes v).length = 2 from fun _ => rfl, Nat.zero_add] at h2 h3 h4 h5
  rw [show 2 + 5 * es.length + 4 = 6 + 5 * es.length by omega] at h4
  rw [show 2 + 5 * es.length + 4 + 4 = 10 + 5 * es.length by omega] at h5
  refine ⟨State.bufLe16_of_bytes h1, fun j hj => ?_, State.bufLe32_of_bytes h3, State.bufLe32_of_bytes h4, h5⟩
  obtain ⟨h6, h7⟩ := State.frameTable_fields h2 j hj
  rw [State.frameEntry, h6, h7]

end Sys2Proof.Machine
end

