-- ==== Sys2Proof/Laws/Decode.lean ====
section
/-! SUPPORT. The decoder and the encoder against each other. -/

namespace Sys2Proof

theorem opcodeTable_encodes : ∀ r ∈ opcodeTable, encode r.instr = r.word := by decide

theorem decode_encode (i : Instr) : decode (encode i) = .ok i := by cases i <;> decide

/-- The decoder reads a command from its own word and from no other (30_encoding R81, R82). -/
theorem decode_eq_ok {w : Word} {i : Instr} : decode w = .ok i ↔ w = encode i := by
  constructor
  · intro h
    unfold decode at h
    split at h
    · cases h
    split at h
    · next r hr =>
      have h1 := opcodeTable_encodes r (List.mem_of_find?_eq_some hr)
      have h2 := List.find?_some hr
      simp only [beq_iff_eq] at h2
      simp only [Except.ok.injEq] at h
      rw [h2, ← h1, h]
    · cases h
  · rintro rfl
    exact decode_encode i

end Sys2Proof
end

