-- ==== Sys2Proof/Laws/Frames.lean ====
section
/-! SUPPORT. One lemma per field that a unit's function leaves alone, so that no later proof unfolds `analyze`,
`build_tree`, `build_dict`, `pack`, `unpack` or a frame writer. Each is proved from the field lemmas of the updates, never
by unfolding the function's results. -/

namespace Sys2Proof.Machine.State

variable (s : State)

/-! ### What `analyze` (41_frequency_analyzer R125) leaves alone -/

@[simp] theorem analyze_eng (len : Nat) : (s.analyze len).eng = s.eng := by simp only [analyze, setFlist_eng, setFcnt_eng]
@[simp] theorem analyze_done (len : Nat) : (s.analyze len).done = s.done := by simp only [analyze, setFlist_done, setFcnt_done]
@[simp] theorem analyze_err (len : Nat) : (s.analyze len).err = s.err := by simp only [analyze, setFlist_err, setFcnt_err]
@[simp] theorem analyze_anyErr (len : Nat) : (s.analyze len).anyErr = s.anyErr := by simp only [analyze, setFlist_anyErr, setFcnt_anyErr]
@[simp] theorem analyze_treeValid (len : Nat) : (s.analyze len).treeValid = s.treeValid := by simp only [analyze, setFlist_treeValid, setFcnt_treeValid]
@[simp] theorem analyze_dictValid (len : Nat) : (s.analyze len).dictValid = s.dictValid := by simp only [analyze, setFlist_dictValid, setFcnt_dictValid]
@[simp] theorem analyze_code (len : Nat) : (s.analyze len).code = s.code := by simp only [analyze, setFlist_code, setFcnt_code]
@[simp] theorem analyze_lastOp (len : Nat) : (s.analyze len).lastOp = s.lastOp := by simp only [analyze, setFlist_lastOp, setFcnt_lastOp]
@[simp] theorem analyze_opa (len : Nat) : (s.analyze len).opa = s.opa := by simp only [analyze, setFlist_opa, setFcnt_opa]
@[simp] theorem analyze_opb (len : Nat) : (s.analyze len).opb = s.opb := by simp only [analyze, setFlist_opb, setFcnt_opb]
@[simp] theorem analyze_res0 (len : Nat) : (s.analyze len).res0 = s.res0 := by simp only [analyze, setFlist_res0, setFcnt_res0]
@[simp] theorem analyze_res1 (len : Nat) : (s.analyze len).res1 = s.res1 := by simp only [analyze, setFlist_res1, setFcnt_res1]
@[simp] theorem analyze_res2 (len : Nat) : (s.analyze len).res2 = s.res2 := by simp only [analyze, setFlist_res2, setFcnt_res2]
@[simp] theorem analyze_rawLen (len : Nat) : (s.analyze len).rawLen = s.rawLen := by simp only [analyze, setFlist_rawLen, setFcnt_rawLen]
@[simp] theorem analyze_payLen (len : Nat) : (s.analyze len).payLen = s.payLen := by simp only [analyze, setFlist_payLen, setFcnt_payLen]
@[simp] theorem analyze_frmLen (len : Nat) : (s.analyze len).frmLen = s.frmLen := by simp only [analyze, setFlist_frmLen, setFcnt_frmLen]
@[simp] theorem analyze_frmUsed (len : Nat) : (s.analyze len).frmUsed = s.frmUsed := by simp only [analyze, setFlist_frmUsed, setFcnt_frmUsed]
@[simp] theorem analyze_pq (len : Nat) : (s.analyze len).pq = s.pq := by simp only [analyze, setFlist_pq, setFcnt_pq]
@[simp] theorem analyze_pqSerial (len : Nat) : (s.analyze len).pqSerial = s.pqSerial := by simp only [analyze, setFlist_pqSerial, setFcnt_pqSerial]
@[simp] theorem analyze_tree (len : Nat) : (s.analyze len).tree = s.tree := by simp only [analyze, setFlist_tree, setFcnt_tree]
@[simp] theorem analyze_treeRoot (len : Nat) : (s.analyze len).treeRoot = s.treeRoot := by simp only [analyze, setFlist_treeRoot, setFcnt_treeRoot]
@[simp] theorem analyze_treeNodes (len : Nat) : (s.analyze len).treeNodes = s.treeNodes := by simp only [analyze, setFlist_treeNodes, setFcnt_treeNodes]
@[simp] theorem analyze_dict (len : Nat) : (s.analyze len).dict = s.dict := by simp only [analyze, setFlist_dict, setFcnt_dict]
@[simp] theorem analyze_host (len : Nat) : (s.analyze len).host = s.host := by simp only [analyze, setFlist_host, setFcnt_host]
@[simp] theorem analyze_reads (len : Nat) : (s.analyze len).reads = s.reads := by simp only [analyze, setFlist_reads, setFcnt_reads]
@[simp] theorem analyze_drawn (len : Nat) : (s.analyze len).drawn = s.drawn := by simp only [analyze, setFlist_drawn, setFcnt_drawn]

/-! ### What `build_tree` (42_tree_builder R136) leaves alone -/

@[simp] theorem buildTree_eng (n : Nat) : (s.buildTree n).eng = s.eng := by
  unfold buildTree; dsimp only; split <;> simp only [setTree_eng, setQueue_eng]
@[simp] theorem buildTree_done (n : Nat) : (s.buildTree n).done = s.done := by
  unfold buildTree; dsimp only; split <;> simp only [setTree_done, setQueue_done]
@[simp] theorem buildTree_err (n : Nat) : (s.buildTree n).err = s.err := by
  unfold buildTree; dsimp only; split <;> simp only [setTree_err, setQueue_err]
@[simp] theorem buildTree_anyErr (n : Nat) : (s.buildTree n).anyErr = s.anyErr := by
  unfold buildTree; dsimp only; split <;> simp only [setTree_anyErr, setQueue_anyErr]
@[simp] theorem buildTree_code (n : Nat) : (s.buildTree n).code = s.code := by
  unfold buildTree; dsimp only; split <;> simp only [setTree_code, setQueue_code]
@[simp] theorem buildTree_lastOp (n : Nat) : (s.buildTree n).lastOp = s.lastOp := by
  unfold buildTree; dsimp only; split <;> simp only [setTree_lastOp, setQueue_lastOp]
@[simp] theorem buildTree_opa (n : Nat) : (s.buildTree n).opa = s.opa := by
  unfold buildTree; dsimp only; split <;> simp only [setTree_opa, setQueue_opa]
@[simp] theorem buildTree_opb (n : Nat) : (s.buildTree n).opb = s.opb := by
  unfold buildTree; dsimp only; split <;> simp only [setTree_opb, setQueue_opb]
@[simp] theorem buildTree_res0 (n : Nat) : (s.buildTree n).res0 = s.res0 := by
  unfold buildTree; dsimp only; split <;> simp only [setTree_res0, setQueue_res0]
@[simp] theorem buildTree_res1 (n : Nat) : (s.buildTree n).res1 = s.res1 := by
  unfold buildTree; dsimp only; split <;> simp only [setTree_res1, setQueue_res1]
@[simp] theorem buildTree_res2 (n : Nat) : (s.buildTree n).res2 = s.res2 := by
  unfold buildTree; dsimp only; split <;> simp only [setTree_res2, setQueue_res2]
@[simp] theorem buildTree_rawLen (n : Nat) : (s.buildTree n).rawLen = s.rawLen := by
  unfold buildTree; dsimp only; split <;> simp only [setTree_rawLen, setQueue_rawLen]
@[simp] theorem buildTree_payLen (n : Nat) : (s.buildTree n).payLen = s.payLen := by
  unfold buildTree; dsimp only; split <;> simp only [setTree_payLen, setQueue_payLen]
@[simp] theorem buildTree_frmLen (n : Nat) : (s.buildTree n).frmLen = s.frmLen := by
  unfold buildTree; dsimp only; split <;> simp only [setTree_frmLen, setQueue_frmLen]
@[simp] theorem buildTree_frmUsed (n : Nat) : (s.buildTree n).frmUsed = s.frmUsed := by
  unfold buildTree; dsimp only; split <;> simp only [setTree_frmUsed, setQueue_frmUsed]
@[simp] theorem buildTree_flistLen (n : Nat) : (s.buildTree n).flistLen = s.flistLen := by
  unfold buildTree; dsimp only; split <;> simp only [setTree_flistLen, setQueue_flistLen]
@[simp] theorem buildTree_mem (n : Nat) : (s.buildTree n).mem = s.mem := by
  unfold buildTree; dsimp only; split <;> simp only [setTree_mem, setQueue_mem]
@[simp] theorem buildTree_fcnt (n : Nat) : (s.buildTree n).fcnt = s.fcnt := by
  unfold buildTree; dsimp only; split <;> simp only [setTree_fcnt, setQueue_fcnt]
@[simp] theorem buildTree_flist (n : Nat) : (s.buildTree n).flist = s.flist := by
  unfold buildTree; dsimp only; split <;> simp only [setTree_flist, setQueue_flist]
@[simp] theorem buildTree_dict (n : Nat) : (s.buildTree n).dict = s.dict := by
  unfold buildTree; dsimp only; split <;> simp only [setTree_dict, setQueue_dict]
@[simp] theorem buildTree_host (n : Nat) : (s.buildTree n).host = s.host := by
  unfold buildTree; dsimp only; split <;> simp only [setTree_host, setQueue_host]
@[simp] theorem buildTree_reads (n : Nat) : (s.buildTree n).reads = s.reads := by
  unfold buildTree; dsimp only; split <;> simp only [setTree_reads, setQueue_reads]
@[simp] theorem buildTree_drawn (n : Nat) : (s.buildTree n).drawn = s.drawn := by
  unfold buildTree; dsimp only; split <;> simp only [setTree_drawn, setQueue_drawn]

/-! ### What `build_dict` (43_dictionary R151) leaves alone -/

@[simp] theorem buildDict_eng : (s.buildDict).eng = s.eng := by
  unfold buildDict; split <;> simp only [setDict_eng]
@[simp] theorem buildDict_done : (s.buildDict).done = s.done := by
  unfold buildDict; split <;> simp only [setDict_done]
@[simp] theorem buildDict_err : (s.buildDict).err = s.err := by
  unfold buildDict; split <;> simp only [setDict_err]
@[simp] theorem buildDict_anyErr : (s.buildDict).anyErr = s.anyErr := by
  unfold buildDict; split <;> simp only [setDict_anyErr]
@[simp] theorem buildDict_treeValid : (s.buildDict).treeValid = s.treeValid := by
  unfold buildDict; split <;> simp only [setDict_treeValid]
@[simp] theorem buildDict_code : (s.buildDict).code = s.code := by
  unfold buildDict; split <;> simp only [setDict_code]
@[simp] theorem buildDict_lastOp : (s.buildDict).lastOp = s.lastOp := by
  unfold buildDict; split <;> simp only [setDict_lastOp]
@[simp] theorem buildDict_opa : (s.buildDict).opa = s.opa := by
  unfold buildDict; split <;> simp only [setDict_opa]
@[simp] theorem buildDict_opb : (s.buildDict).opb = s.opb := by
  unfold buildDict; split <;> simp only [setDict_opb]
@[simp] theorem buildDict_res0 : (s.buildDict).res0 = s.res0 := by
  unfold buildDict; split <;> simp only [setDict_res0]
@[simp] theorem buildDict_res1 : (s.buildDict).res1 = s.res1 := by
  unfold buildDict; split <;> simp only [setDict_res1]
@[simp] theorem buildDict_res2 : (s.buildDict).res2 = s.res2 := by
  unfold buildDict; split <;> simp only [setDict_res2]
@[simp] theorem buildDict_rawLen : (s.buildDict).rawLen = s.rawLen := by
  unfold buildDict; split <;> simp only [setDict_rawLen]
@[simp] theorem buildDict_payLen : (s.buildDict).payLen = s.payLen := by
  unfold buildDict; split <;> simp only [setDict_payLen]
@[simp] theorem buildDict_frmLen : (s.buildDict).frmLen = s.frmLen := by
  unfold buildDict; split <;> simp only [setDict_frmLen]
@[simp] theorem buildDict_frmUsed : (s.buildDict).frmUsed = s.frmUsed := by
  unfold buildDict; split <;> simp only [setDict_frmUsed]
@[simp] theorem buildDict_flistLen : (s.buildDict).flistLen = s.flistLen := by
  unfold buildDict; split <;> simp only [setDict_flistLen]
@[simp] theorem buildDict_mem : (s.buildDict).mem = s.mem := by
  unfold buildDict; split <;> simp only [setDict_mem]
@[simp] theorem buildDict_fcnt : (s.buildDict).fcnt = s.fcnt := by
  unfold buildDict; split <;> simp only [setDict_fcnt]
@[simp] theorem buildDict_flist : (s.buildDict).flist = s.flist := by
  unfold buildDict; split <;> simp only [setDict_flist]
@[simp] theorem buildDict_pq : (s.buildDict).pq = s.pq := by
  unfold buildDict; split <;> simp only [setDict_pq]
@[simp] theorem buildDict_pqSerial : (s.buildDict).pqSerial = s.pqSerial := by
  unfold buildDict; split <;> simp only [setDict_pqSerial]
@[simp] theorem buildDict_tree : (s.buildDict).tree = s.tree := by
  unfold buildDict; split <;> simp only [setDict_tree]
@[simp] theorem buildDict_treeRoot : (s.buildDict).treeRoot = s.treeRoot := by
  unfold buildDict; split <;> simp only [setDict_treeRoot]
@[simp] theorem buildDict_treeNodes : (s.buildDict).treeNodes = s.treeNodes := by
  unfold buildDict; split <;> simp only [setDict_treeNodes]
@[simp] theorem buildDict_host : (s.buildDict).host = s.host := by
  unfold buildDict; split <;> simp only [setDict_host]
@[simp] theorem buildDict_reads : (s.buildDict).reads = s.reads := by
  unfold buildDict; split <;> simp only [setDict_reads]
@[simp] theorem buildDict_drawn : (s.buildDict).drawn = s.drawn := by
  unfold buildDict; split <;> simp only [setDict_drawn]

/-! ### What `pack` (44_bit_packer R166) leaves alone -/

@[simp] theorem pack_eng (len : Nat) : (s.pack len).eng = s.eng := by simp only [pack, setPayLen_eng, fillBuf_eng]
@[simp] theorem pack_done (len : Nat) : (s.pack len).done = s.done := by simp only [pack, setPayLen_done, fillBuf_done]
@[simp] theorem pack_err (len : Nat) : (s.pack len).err = s.err := by simp only [pack, setPayLen_err, fillBuf_err]
@[simp] theorem pack_anyErr (len : Nat) : (s.pack len).anyErr = s.anyErr := by simp only [pack, setPayLen_anyErr, fillBuf_anyErr]
@[simp] theorem pack_treeValid (len : Nat) : (s.pack len).treeValid = s.treeValid := by simp only [pack, setPayLen_treeValid, fillBuf_treeValid]
@[simp] theorem pack_dictValid (len : Nat) : (s.pack len).dictValid = s.dictValid := by simp only [pack, setPayLen_dictValid, fillBuf_dictValid]
@[simp] theorem pack_code (len : Nat) : (s.pack len).code = s.code := by simp only [pack, setPayLen_code, fillBuf_code]
@[simp] theorem pack_lastOp (len : Nat) : (s.pack len).lastOp = s.lastOp := by simp only [pack, setPayLen_lastOp, fillBuf_lastOp]
@[simp] theorem pack_opa (len : Nat) : (s.pack len).opa = s.opa := by simp only [pack, setPayLen_opa, fillBuf_opa]
@[simp] theorem pack_opb (len : Nat) : (s.pack len).opb = s.opb := by simp only [pack, setPayLen_opb, fillBuf_opb]
@[simp] theorem pack_res0 (len : Nat) : (s.pack len).res0 = s.res0 := by simp only [pack, setPayLen_res0, fillBuf_res0]
@[simp] theorem pack_res1 (len : Nat) : (s.pack len).res1 = s.res1 := by simp only [pack, setPayLen_res1, fillBuf_res1]
@[simp] theorem pack_res2 (len : Nat) : (s.pack len).res2 = s.res2 := by simp only [pack, setPayLen_res2, fillBuf_res2]
@[simp] theorem pack_rawLen (len : Nat) : (s.pack len).rawLen = s.rawLen := by simp only [pack, setPayLen_rawLen, fillBuf_rawLen]
@[simp] theorem pack_frmLen (len : Nat) : (s.pack len).frmLen = s.frmLen := by simp only [pack, setPayLen_frmLen, fillBuf_frmLen]
@[simp] theorem pack_frmUsed (len : Nat) : (s.pack len).frmUsed = s.frmUsed := by simp only [pack, setPayLen_frmUsed, fillBuf_frmUsed]
@[simp] theorem pack_flistLen (len : Nat) : (s.pack len).flistLen = s.flistLen := by simp only [pack, setPayLen_flistLen, fillBuf_flistLen]
@[simp] theorem pack_fcnt (len : Nat) : (s.pack len).fcnt = s.fcnt := by simp only [pack, setPayLen_fcnt, fillBuf_fcnt]
@[simp] theorem pack_flist (len : Nat) : (s.pack len).flist = s.flist := by simp only [pack, setPayLen_flist, fillBuf_flist]
@[simp] theorem pack_pq (len : Nat) : (s.pack len).pq = s.pq := by simp only [pack, setPayLen_pq, fillBuf_pq]
@[simp] theorem pack_pqSerial (len : Nat) : (s.pack len).pqSerial = s.pqSerial := by simp only [pack, setPayLen_pqSerial, fillBuf_pqSerial]
@[simp] theorem pack_tree (len : Nat) : (s.pack len).tree = s.tree := by simp only [pack, setPayLen_tree, fillBuf_tree]
@[simp] theorem pack_treeRoot (len : Nat) : (s.pack len).treeRoot = s.treeRoot := by simp only [pack, setPayLen_treeRoot, fillBuf_treeRoot]
@[simp] theorem pack_treeNodes (len : Nat) : (s.pack len).treeNodes = s.treeNodes := by simp only [pack, setPayLen_treeNodes, fillBuf_treeNodes]
@[simp] theorem pack_dict (len : Nat) : (s.pack len).dict = s.dict := by simp only [pack, setPayLen_dict, fillBuf_dict]
@[simp] theorem pack_host (len : Nat) : (s.pack len).host = s.host := by simp only [pack, setPayLen_host, fillBuf_host]
@[simp] theorem pack_reads (len : Nat) : (s.pack len).reads = s.reads := by simp only [pack, setPayLen_reads, fillBuf_reads]
@[simp] theorem pack_drawn (len : Nat) : (s.pack len).drawn = s.drawn := by simp only [pack, setPayLen_drawn, fillBuf_drawn]

/-! ### What `unpack` (45_bit_unpacker R182) leaves alone -/

@[simp] theorem unpack_eng (len payLen : Nat) : (s.unpack len payLen).eng = s.eng := by simp only [unpack, fillBuf_eng]
@[simp] theorem unpack_done (len payLen : Nat) : (s.unpack len payLen).done = s.done := by simp only [unpack, fillBuf_done]
@[simp] theorem unpack_err (len payLen : Nat) : (s.unpack len payLen).err = s.err := by simp only [unpack, fillBuf_err]
@[simp] theorem unpack_anyErr (len payLen : Nat) : (s.unpack len payLen).anyErr = s.anyErr := by simp only [unpack, fillBuf_anyErr]
@[simp] theorem unpack_treeValid (len payLen : Nat) : (s.unpack len payLen).treeValid = s.treeValid := by simp only [unpack, fillBuf_treeValid]
@[simp] theorem unpack_dictValid (len payLen : Nat) : (s.unpack len payLen).dictValid = s.dictValid := by simp only [unpack, fillBuf_dictValid]
@[simp] theorem unpack_code (len payLen : Nat) : (s.unpack len payLen).code = s.code := by simp only [unpack, fillBuf_code]
@[simp] theorem unpack_lastOp (len payLen : Nat) : (s.unpack len payLen).lastOp = s.lastOp := by simp only [unpack, fillBuf_lastOp]
@[simp] theorem unpack_opa (len payLen : Nat) : (s.unpack len payLen).opa = s.opa := by simp only [unpack, fillBuf_opa]
@[simp] theorem unpack_opb (len payLen : Nat) : (s.unpack len payLen).opb = s.opb := by simp only [unpack, fillBuf_opb]
@[simp] theorem unpack_res0 (len payLen : Nat) : (s.unpack len payLen).res0 = s.res0 := by simp only [unpack, fillBuf_res0]
@[simp] theorem unpack_res1 (len payLen : Nat) : (s.unpack len payLen).res1 = s.res1 := by simp only [unpack, fillBuf_res1]
@[simp] theorem unpack_res2 (len payLen : Nat) : (s.unpack len payLen).res2 = s.res2 := by simp only [unpack, fillBuf_res2]
@[simp] theorem unpack_rawLen (len payLen : Nat) : (s.unpack len payLen).rawLen = s.rawLen := by simp only [unpack, fillBuf_rawLen]
@[simp] theorem unpack_payLen (len payLen : Nat) : (s.unpack len payLen).payLen = s.payLen := by simp only [unpack, fillBuf_payLen]
@[simp] theorem unpack_frmLen (len payLen : Nat) : (s.unpack len payLen).frmLen = s.frmLen := by simp only [unpack, fillBuf_frmLen]
@[simp] theorem unpack_frmUsed (len payLen : Nat) : (s.unpack len payLen).frmUsed = s.frmUsed := by simp only [unpack, fillBuf_frmUsed]
@[simp] theorem unpack_flistLen (len payLen : Nat) : (s.unpack len payLen).flistLen = s.flistLen := by simp only [unpack, fillBuf_flistLen]
@[simp] theorem unpack_fcnt (len payLen : Nat) : (s.unpack len payLen).fcnt = s.fcnt := by simp only [unpack, fillBuf_fcnt]
@[simp] theorem unpack_flist (len payLen : Nat) : (s.unpack len payLen).flist = s.flist := by simp only [unpack, fillBuf_flist]
@[simp] theorem unpack_pq (len payLen : Nat) : (s.unpack len payLen).pq = s.pq := by simp only [unpack, fillBuf_pq]
@[simp] theorem unpack_pqSerial (len payLen : Nat) : (s.unpack len payLen).pqSerial = s.pqSerial := by simp only [unpack, fillBuf_pqSerial]
@[simp] theorem unpack_tree (len payLen : Nat) : (s.unpack len payLen).tree = s.tree := by simp only [unpack, fillBuf_tree]
@[simp] theorem unpack_treeRoot (len payLen : Nat) : (s.unpack len payLen).treeRoot = s.treeRoot := by simp only [unpack, fillBuf_treeRoot]
@[simp] theorem unpack_treeNodes (len payLen : Nat) : (s.unpack len payLen).treeNodes = s.treeNodes := by simp only [unpack, fillBuf_treeNodes]
@[simp] theorem unpack_dict (len payLen : Nat) : (s.unpack len payLen).dict = s.dict := by simp only [unpack, fillBuf_dict]
@[simp] theorem unpack_host (len payLen : Nat) : (s.unpack len payLen).host = s.host := by simp only [unpack, fillBuf_host]
@[simp] theorem unpack_reads (len payLen : Nat) : (s.unpack len payLen).reads = s.reads := by simp only [unpack, fillBuf_reads]
@[simp] theorem unpack_drawn (len payLen : Nat) : (s.unpack len payLen).drawn = s.drawn := by simp only [unpack, fillBuf_drawn]

/-! ### What the frame writers (46_block_codec R195) leaves alone -/

@[simp] theorem putFrame_eng (frame : List Byte) : (s.putFrame frame).eng = s.eng := by simp only [putFrame, setFrmLen_eng, fillBuf_eng]
@[simp] theorem putFrame_done (frame : List Byte) : (s.putFrame frame).done = s.done := by simp only [putFrame, setFrmLen_done, fillBuf_done]
@[simp] theorem putFrame_err (frame : List Byte) : (s.putFrame frame).err = s.err := by simp only [putFrame, setFrmLen_err, fillBuf_err]
@[simp] theorem putFrame_anyErr (frame : List Byte) : (s.putFrame frame).anyErr = s.anyErr := by simp only [putFrame, setFrmLen_anyErr, fillBuf_anyErr]
@[simp] theorem putFrame_treeValid (frame : List Byte) : (s.putFrame frame).treeValid = s.treeValid := by simp only [putFrame, setFrmLen_treeValid, fillBuf_treeValid]
@[simp] theorem putFrame_dictValid (frame : List Byte) : (s.putFrame frame).dictValid = s.dictValid := by simp only [putFrame, setFrmLen_dictValid, fillBuf_dictValid]
@[simp] theorem putFrame_code (frame : List Byte) : (s.putFrame frame).code = s.code := by simp only [putFrame, setFrmLen_code, fillBuf_code]
@[simp] theorem putFrame_lastOp (frame : List Byte) : (s.putFrame frame).lastOp = s.lastOp := by simp only [putFrame, setFrmLen_lastOp, fillBuf_lastOp]
@[simp] theorem putFrame_opa (frame : List Byte) : (s.putFrame frame).opa = s.opa := by simp only [putFrame, setFrmLen_opa, fillBuf_opa]
@[simp] theorem putFrame_opb (frame : List Byte) : (s.putFrame frame).opb = s.opb := by simp only [putFrame, setFrmLen_opb, fillBuf_opb]
@[simp] theorem putFrame_res0 (frame : List Byte) : (s.putFrame frame).res0 = s.res0 := by simp only [putFrame, setFrmLen_res0, fillBuf_res0]
@[simp] theorem putFrame_res1 (frame : List Byte) : (s.putFrame frame).res1 = s.res1 := by simp only [putFrame, setFrmLen_res1, fillBuf_res1]
@[simp] theorem putFrame_res2 (frame : List Byte) : (s.putFrame frame).res2 = s.res2 := by simp only [putFrame, setFrmLen_res2, fillBuf_res2]
@[simp] theorem putFrame_rawLen (frame : List Byte) : (s.putFrame frame).rawLen = s.rawLen := by simp only [putFrame, setFrmLen_rawLen, fillBuf_rawLen]
@[simp] theorem putFrame_payLen (frame : List Byte) : (s.putFrame frame).payLen = s.payLen := by simp only [putFrame, setFrmLen_payLen, fillBuf_payLen]
@[simp] theorem putFrame_frmUsed (frame : List Byte) : (s.putFrame frame).frmUsed = s.frmUsed := by simp only [putFrame, setFrmLen_frmUsed, fillBuf_frmUsed]
@[simp] theorem putFrame_flistLen (frame : List Byte) : (s.putFrame frame).flistLen = s.flistLen := by simp only [putFrame, setFrmLen_flistLen, fillBuf_flistLen]
@[simp] theorem putFrame_fcnt (frame : List Byte) : (s.putFrame frame).fcnt = s.fcnt := by simp only [putFrame, setFrmLen_fcnt, fillBuf_fcnt]
@[simp] theorem putFrame_flist (frame : List Byte) : (s.putFrame frame).flist = s.flist := by simp only [putFrame, setFrmLen_flist, fillBuf_flist]
@[simp] theorem putFrame_pq (frame : List Byte) : (s.putFrame frame).pq = s.pq := by simp only [putFrame, setFrmLen_pq, fillBuf_pq]
@[simp] theorem putFrame_pqSerial (frame : List Byte) : (s.putFrame frame).pqSerial = s.pqSerial := by simp only [putFrame, setFrmLen_pqSerial, fillBuf_pqSerial]
@[simp] theorem putFrame_tree (frame : List Byte) : (s.putFrame frame).tree = s.tree := by simp only [putFrame, setFrmLen_tree, fillBuf_tree]
@[simp] theorem putFrame_treeRoot (frame : List Byte) : (s.putFrame frame).treeRoot = s.treeRoot := by simp only [putFrame, setFrmLen_treeRoot, fillBuf_treeRoot]
@[simp] theorem putFrame_treeNodes (frame : List Byte) : (s.putFrame frame).treeNodes = s.treeNodes := by simp only [putFrame, setFrmLen_treeNodes, fillBuf_treeNodes]
@[simp] theorem putFrame_dict (frame : List Byte) : (s.putFrame frame).dict = s.dict := by simp only [putFrame, setFrmLen_dict, fillBuf_dict]
@[simp] theorem putFrame_host (frame : List Byte) : (s.putFrame frame).host = s.host := by simp only [putFrame, setFrmLen_host, fillBuf_host]
@[simp] theorem putFrame_reads (frame : List Byte) : (s.putFrame frame).reads = s.reads := by simp only [putFrame, setFrmLen_reads, fillBuf_reads]
@[simp] theorem putFrame_drawn (frame : List Byte) : (s.putFrame frame).drawn = s.drawn := by simp only [putFrame, setFrmLen_drawn, fillBuf_drawn]

/-! ### What `write_raw` (46_block_codec R195) leaves alone -/

@[simp] theorem writeRaw_eng (len : Nat) : (s.writeRaw len).eng = s.eng := by simp only [writeRaw, putFrame_eng]
@[simp] theorem writeRaw_done (len : Nat) : (s.writeRaw len).done = s.done := by simp only [writeRaw, putFrame_done]
@[simp] theorem writeRaw_err (len : Nat) : (s.writeRaw len).err = s.err := by simp only [writeRaw, putFrame_err]
@[simp] theorem writeRaw_anyErr (len : Nat) : (s.writeRaw len).anyErr = s.anyErr := by simp only [writeRaw, putFrame_anyErr]
@[simp] theorem writeRaw_treeValid (len : Nat) : (s.writeRaw len).treeValid = s.treeValid := by simp only [writeRaw, putFrame_treeValid]
@[simp] theorem writeRaw_dictValid (len : Nat) : (s.writeRaw len).dictValid = s.dictValid := by simp only [writeRaw, putFrame_dictValid]
@[simp] theorem writeRaw_code (len : Nat) : (s.writeRaw len).code = s.code := by simp only [writeRaw, putFrame_code]
@[simp] theorem writeRaw_lastOp (len : Nat) : (s.writeRaw len).lastOp = s.lastOp := by simp only [writeRaw, putFrame_lastOp]
@[simp] theorem writeRaw_opa (len : Nat) : (s.writeRaw len).opa = s.opa := by simp only [writeRaw, putFrame_opa]
@[simp] theorem writeRaw_opb (len : Nat) : (s.writeRaw len).opb = s.opb := by simp only [writeRaw, putFrame_opb]
@[simp] theorem writeRaw_res0 (len : Nat) : (s.writeRaw len).res0 = s.res0 := by simp only [writeRaw, putFrame_res0]
@[simp] theorem writeRaw_res1 (len : Nat) : (s.writeRaw len).res1 = s.res1 := by simp only [writeRaw, putFrame_res1]
@[simp] theorem writeRaw_res2 (len : Nat) : (s.writeRaw len).res2 = s.res2 := by simp only [writeRaw, putFrame_res2]
@[simp] theorem writeRaw_rawLen (len : Nat) : (s.writeRaw len).rawLen = s.rawLen := by simp only [writeRaw, putFrame_rawLen]
@[simp] theorem writeRaw_payLen (len : Nat) : (s.writeRaw len).payLen = s.payLen := by simp only [writeRaw, putFrame_payLen]
@[simp] theorem writeRaw_frmUsed (len : Nat) : (s.writeRaw len).frmUsed = s.frmUsed := by simp only [writeRaw, putFrame_frmUsed]
@[simp] theorem writeRaw_flistLen (len : Nat) : (s.writeRaw len).flistLen = s.flistLen := by simp only [writeRaw, putFrame_flistLen]
@[simp] theorem writeRaw_fcnt (len : Nat) : (s.writeRaw len).fcnt = s.fcnt := by simp only [writeRaw, putFrame_fcnt]
@[simp] theorem writeRaw_flist (len : Nat) : (s.writeRaw len).flist = s.flist := by simp only [writeRaw, putFrame_flist]
@[simp] theorem writeRaw_pq (len : Nat) : (s.writeRaw len).pq = s.pq := by simp only [writeRaw, putFrame_pq]
@[simp] theorem writeRaw_pqSerial (len : Nat) : (s.writeRaw len).pqSerial = s.pqSerial := by simp only [writeRaw, putFrame_pqSerial]
@[simp] theorem writeRaw_tree (len : Nat) : (s.writeRaw len).tree = s.tree := by simp only [writeRaw, putFrame_tree]
@[simp] theorem writeRaw_treeRoot (len : Nat) : (s.writeRaw len).treeRoot = s.treeRoot := by simp only [writeRaw, putFrame_treeRoot]
@[simp] theorem writeRaw_treeNodes (len : Nat) : (s.writeRaw len).treeNodes = s.treeNodes := by simp only [writeRaw, putFrame_treeNodes]
@[simp] theorem writeRaw_dict (len : Nat) : (s.writeRaw len).dict = s.dict := by simp only [writeRaw, putFrame_dict]
@[simp] theorem writeRaw_host (len : Nat) : (s.writeRaw len).host = s.host := by simp only [writeRaw, putFrame_host]
@[simp] theorem writeRaw_reads (len : Nat) : (s.writeRaw len).reads = s.reads := by simp only [writeRaw, putFrame_reads]
@[simp] theorem writeRaw_drawn (len : Nat) : (s.writeRaw len).drawn = s.drawn := by simp only [writeRaw, putFrame_drawn]

/-! ### What `write_coded` (46_block_codec R195) leaves alone -/

@[simp] theorem writeCoded_eng (n len payLen : Nat) : (s.writeCoded n len payLen).eng = s.eng := by simp only [writeCoded, putFrame_eng]
@[simp] theorem writeCoded_done (n len payLen : Nat) : (s.writeCoded n len payLen).done = s.done := by simp only [writeCoded, putFrame_done]
@[simp] theorem writeCoded_err (n len payLen : Nat) : (s.writeCoded n len payLen).err = s.err := by simp only [writeCoded, putFrame_err]
@[simp] theorem writeCoded_anyErr (n len payLen : Nat) : (s.writeCoded n len payLen).anyErr = s.anyErr := by simp only [writeCoded, putFrame_anyErr]
@[simp] theorem writeCoded_treeValid (n len payLen : Nat) : (s.writeCoded n len payLen).treeValid = s.treeValid := by simp only [writeCoded, putFrame_treeValid]
@[simp] theorem writeCoded_dictValid (n len payLen : Nat) : (s.writeCoded n len payLen).dictValid = s.dictValid := by simp only [writeCoded, putFrame_dictValid]
@[simp] theorem writeCoded_code (n len payLen : Nat) : (s.writeCoded n len payLen).code = s.code := by simp only [writeCoded, putFrame_code]
@[simp] theorem writeCoded_lastOp (n len payLen : Nat) : (s.writeCoded n len payLen).lastOp = s.lastOp := by simp only [writeCoded, putFrame_lastOp]
@[simp] theorem writeCoded_opa (n len payLen : Nat) : (s.writeCoded n len payLen).opa = s.opa := by simp only [writeCoded, putFrame_opa]
@[simp] theorem writeCoded_opb (n len payLen : Nat) : (s.writeCoded n len payLen).opb = s.opb := by simp only [writeCoded, putFrame_opb]
@[simp] theorem writeCoded_res0 (n len payLen : Nat) : (s.writeCoded n len payLen).res0 = s.res0 := by simp only [writeCoded, putFrame_res0]
@[simp] theorem writeCoded_res1 (n len payLen : Nat) : (s.writeCoded n len payLen).res1 = s.res1 := by simp only [writeCoded, putFrame_res1]
@[simp] theorem writeCoded_res2 (n len payLen : Nat) : (s.writeCoded n len payLen).res2 = s.res2 := by simp only [writeCoded, putFrame_res2]
@[simp] theorem writeCoded_rawLen (n len payLen : Nat) : (s.writeCoded n len payLen).rawLen = s.rawLen := by simp only [writeCoded, putFrame_rawLen]
@[simp] theorem writeCoded_payLen (n len payLen : Nat) : (s.writeCoded n len payLen).payLen = s.payLen := by simp only [writeCoded, putFrame_payLen]
@[simp] theorem writeCoded_frmUsed (n len payLen : Nat) : (s.writeCoded n len payLen).frmUsed = s.frmUsed := by simp only [writeCoded, putFrame_frmUsed]
@[simp] theorem writeCoded_flistLen (n len payLen : Nat) : (s.writeCoded n len payLen).flistLen = s.flistLen := by simp only [writeCoded, putFrame_flistLen]
@[simp] theorem writeCoded_fcnt (n len payLen : Nat) : (s.writeCoded n len payLen).fcnt = s.fcnt := by simp only [writeCoded, putFrame_fcnt]
@[simp] theorem writeCoded_flist (n len payLen : Nat) : (s.writeCoded n len payLen).flist = s.flist := by simp only [writeCoded, putFrame_flist]
@[simp] theorem writeCoded_pq (n len payLen : Nat) : (s.writeCoded n len payLen).pq = s.pq := by simp only [writeCoded, putFrame_pq]
@[simp] theorem writeCoded_pqSerial (n len payLen : Nat) : (s.writeCoded n len payLen).pqSerial = s.pqSerial := by simp only [writeCoded, putFrame_pqSerial]
@[simp] theorem writeCoded_tree (n len payLen : Nat) : (s.writeCoded n len payLen).tree = s.tree := by simp only [writeCoded, putFrame_tree]
@[simp] theorem writeCoded_treeRoot (n len payLen : Nat) : (s.writeCoded n len payLen).treeRoot = s.treeRoot := by simp only [writeCoded, putFrame_treeRoot]
@[simp] theorem writeCoded_treeNodes (n len payLen : Nat) : (s.writeCoded n len payLen).treeNodes = s.treeNodes := by simp only [writeCoded, putFrame_treeNodes]
@[simp] theorem writeCoded_dict (n len payLen : Nat) : (s.writeCoded n len payLen).dict = s.dict := by simp only [writeCoded, putFrame_dict]
@[simp] theorem writeCoded_host (n len payLen : Nat) : (s.writeCoded n len payLen).host = s.host := by simp only [writeCoded, putFrame_host]
@[simp] theorem writeCoded_reads (n len payLen : Nat) : (s.writeCoded n len payLen).reads = s.reads := by simp only [writeCoded, putFrame_reads]
@[simp] theorem writeCoded_drawn (n len payLen : Nat) : (s.writeCoded n len payLen).drawn = s.drawn := by simp only [writeCoded, putFrame_drawn]

/-! ### What the header load of DECODE (46_block_codec R201) leaves alone -/

@[simp] theorem loadHeader_eng (n : Nat) : (s.loadHeader n).eng = s.eng := by simp only [loadHeader, setFlist_eng]
@[simp] theorem loadHeader_done (n : Nat) : (s.loadHeader n).done = s.done := by simp only [loadHeader, setFlist_done]
@[simp] theorem loadHeader_err (n : Nat) : (s.loadHeader n).err = s.err := by simp only [loadHeader, setFlist_err]
@[simp] theorem loadHeader_anyErr (n : Nat) : (s.loadHeader n).anyErr = s.anyErr := by simp only [loadHeader, setFlist_anyErr]
@[simp] theorem loadHeader_treeValid (n : Nat) : (s.loadHeader n).treeValid = s.treeValid := by simp only [loadHeader, setFlist_treeValid]
@[simp] theorem loadHeader_dictValid (n : Nat) : (s.loadHeader n).dictValid = s.dictValid := by simp only [loadHeader, setFlist_dictValid]
@[simp] theorem loadHeader_code (n : Nat) : (s.loadHeader n).code = s.code := by simp only [loadHeader, setFlist_code]
@[simp] theorem loadHeader_lastOp (n : Nat) : (s.loadHeader n).lastOp = s.lastOp := by simp only [loadHeader, setFlist_lastOp]
@[simp] theorem loadHeader_opa (n : Nat) : (s.loadHeader n).opa = s.opa := by simp only [loadHeader, setFlist_opa]
@[simp] theorem loadHeader_opb (n : Nat) : (s.loadHeader n).opb = s.opb := by simp only [loadHeader, setFlist_opb]
@[simp] theorem loadHeader_res0 (n : Nat) : (s.loadHeader n).res0 = s.res0 := by simp only [loadHeader, setFlist_res0]
@[simp] theorem loadHeader_res1 (n : Nat) : (s.loadHeader n).res1 = s.res1 := by simp only [loadHeader, setFlist_res1]
@[simp] theorem loadHeader_res2 (n : Nat) : (s.loadHeader n).res2 = s.res2 := by simp only [loadHeader, setFlist_res2]
@[simp] theorem loadHeader_rawLen (n : Nat) : (s.loadHeader n).rawLen = s.rawLen := by simp only [loadHeader, setFlist_rawLen]
@[simp] theorem loadHeader_payLen (n : Nat) : (s.loadHeader n).payLen = s.payLen := by simp only [loadHeader, setFlist_payLen]
@[simp] theorem loadHeader_frmLen (n : Nat) : (s.loadHeader n).frmLen = s.frmLen := by simp only [loadHeader, setFlist_frmLen]
@[simp] theorem loadHeader_frmUsed (n : Nat) : (s.loadHeader n).frmUsed = s.frmUsed := by simp only [loadHeader, setFlist_frmUsed]
@[simp] theorem loadHeader_mem (n : Nat) : (s.loadHeader n).mem = s.mem := by simp only [loadHeader, setFlist_mem]
@[simp] theorem loadHeader_fcnt (n : Nat) : (s.loadHeader n).fcnt = s.fcnt := by simp only [loadHeader, setFlist_fcnt]
@[simp] theorem loadHeader_pq (n : Nat) : (s.loadHeader n).pq = s.pq := by simp only [loadHeader, setFlist_pq]
@[simp] theorem loadHeader_pqSerial (n : Nat) : (s.loadHeader n).pqSerial = s.pqSerial := by simp only [loadHeader, setFlist_pqSerial]
@[simp] theorem loadHeader_tree (n : Nat) : (s.loadHeader n).tree = s.tree := by simp only [loadHeader, setFlist_tree]
@[simp] theorem loadHeader_treeRoot (n : Nat) : (s.loadHeader n).treeRoot = s.treeRoot := by simp only [loadHeader, setFlist_treeRoot]
@[simp] theorem loadHeader_treeNodes (n : Nat) : (s.loadHeader n).treeNodes = s.treeNodes := by simp only [loadHeader, setFlist_treeNodes]
@[simp] theorem loadHeader_dict (n : Nat) : (s.loadHeader n).dict = s.dict := by simp only [loadHeader, setFlist_dict]
@[simp] theorem loadHeader_host (n : Nat) : (s.loadHeader n).host = s.host := by simp only [loadHeader, setFlist_host]
@[simp] theorem loadHeader_reads (n : Nat) : (s.loadHeader n).reads = s.reads := by simp only [loadHeader, setFlist_reads]
@[simp] theorem loadHeader_drawn (n : Nat) : (s.loadHeader n).drawn = s.drawn := by simp only [loadHeader, setFlist_drawn]

/-! ### What ENCODE up to the tree (46_block_codec R196) leaves alone -/

@[simp] theorem encodeBuilt_eng (n : Nat) : (s.encodeBuilt n).eng = s.eng := by
  simp only [encodeBuilt, setTree_eng, setQueue_eng, analyze_eng]
@[simp] theorem encodeBuilt_done (n : Nat) : (s.encodeBuilt n).done = s.done := by
  simp only [encodeBuilt, setTree_done, setQueue_done, analyze_done]
@[simp] theorem encodeBuilt_err (n : Nat) : (s.encodeBuilt n).err = s.err := by
  simp only [encodeBuilt, setTree_err, setQueue_err, analyze_err]
@[simp] theorem encodeBuilt_anyErr (n : Nat) : (s.encodeBuilt n).anyErr = s.anyErr := by
  simp only [encodeBuilt, setTree_anyErr, setQueue_anyErr, analyze_anyErr]
@[simp] theorem encodeBuilt_code (n : Nat) : (s.encodeBuilt n).code = s.code := by
  simp only [encodeBuilt, setTree_code, setQueue_code, analyze_code]
@[simp] theorem encodeBuilt_lastOp (n : Nat) : (s.encodeBuilt n).lastOp = s.lastOp := by
  simp only [encodeBuilt, setTree_lastOp, setQueue_lastOp, analyze_lastOp]
@[simp] theorem encodeBuilt_opa (n : Nat) : (s.encodeBuilt n).opa = s.opa := by
  simp only [encodeBuilt, setTree_opa, setQueue_opa, analyze_opa]
@[simp] theorem encodeBuilt_opb (n : Nat) : (s.encodeBuilt n).opb = s.opb := by
  simp only [encodeBuilt, setTree_opb, setQueue_opb, analyze_opb]
@[simp] theorem encodeBuilt_res0 (n : Nat) : (s.encodeBuilt n).res0 = s.res0 := by
  simp only [encodeBuilt, setTree_res0, setQueue_res0, analyze_res0]
@[simp] theorem encodeBuilt_res1 (n : Nat) : (s.encodeBuilt n).res1 = s.res1 := by
  simp only [encodeBuilt, setTree_res1, setQueue_res1, analyze_res1]
@[simp] theorem encodeBuilt_res2 (n : Nat) : (s.encodeBuilt n).res2 = s.res2 := by
  simp only [encodeBuilt, setTree_res2, setQueue_res2, analyze_res2]
@[simp] theorem encodeBuilt_rawLen (n : Nat) : (s.encodeBuilt n).rawLen = s.rawLen := by
  simp only [encodeBuilt, setTree_rawLen, setQueue_rawLen, analyze_rawLen]
@[simp] theorem encodeBuilt_payLen (n : Nat) : (s.encodeBuilt n).payLen = s.payLen := by
  simp only [encodeBuilt, setTree_payLen, setQueue_payLen, analyze_payLen]
@[simp] theorem encodeBuilt_frmLen (n : Nat) : (s.encodeBuilt n).frmLen = s.frmLen := by
  simp only [encodeBuilt, setTree_frmLen, setQueue_frmLen, analyze_frmLen]
@[simp] theorem encodeBuilt_frmUsed (n : Nat) : (s.encodeBuilt n).frmUsed = s.frmUsed := by
  simp only [encodeBuilt, setTree_frmUsed, setQueue_frmUsed, analyze_frmUsed]
@[simp] theorem encodeBuilt_mem (n : Nat) : (s.encodeBuilt n).mem = s.mem := by
  simp only [encodeBuilt, setTree_mem, setQueue_mem, analyze_mem]
@[simp] theorem encodeBuilt_dict (n : Nat) : (s.encodeBuilt n).dict = s.dict := by
  simp only [encodeBuilt, setTree_dict, setQueue_dict, analyze_dict]
@[simp] theorem encodeBuilt_host (n : Nat) : (s.encodeBuilt n).host = s.host := by
  simp only [encodeBuilt, setTree_host, setQueue_host, analyze_host]
@[simp] theorem encodeBuilt_reads (n : Nat) : (s.encodeBuilt n).reads = s.reads := by
  simp only [encodeBuilt, setTree_reads, setQueue_reads, analyze_reads]
@[simp] theorem encodeBuilt_drawn (n : Nat) : (s.encodeBuilt n).drawn = s.drawn := by
  simp only [encodeBuilt, setTree_drawn, setQueue_drawn, analyze_drawn]

/-! ### What DECODE up to the tree (46_block_codec R201) leaves alone -/

@[simp] theorem decodeBuilt_eng (n payLen : Nat) : (s.decodeBuilt n payLen).eng = s.eng := by
  simp only [decodeBuilt, setTree_eng, setQueue_eng, setPayLen_eng, fillBuf_eng, loadHeader_eng]
@[simp] theorem decodeBuilt_done (n payLen : Nat) : (s.decodeBuilt n payLen).done = s.done := by
  simp only [decodeBuilt, setTree_done, setQueue_done, setPayLen_done, fillBuf_done, loadHeader_done]
@[simp] theorem decodeBuilt_err (n payLen : Nat) : (s.decodeBuilt n payLen).err = s.err := by
  simp only [decodeBuilt, setTree_err, setQueue_err, setPayLen_err, fillBuf_err, loadHeader_err]
@[simp] theorem decodeBuilt_anyErr (n payLen : Nat) : (s.decodeBuilt n payLen).anyErr = s.anyErr := by
  simp only [decodeBuilt, setTree_anyErr, setQueue_anyErr, setPayLen_anyErr, fillBuf_anyErr, loadHeader_anyErr]
@[simp] theorem decodeBuilt_code (n payLen : Nat) : (s.decodeBuilt n payLen).code = s.code := by
  simp only [decodeBuilt, setTree_code, setQueue_code, setPayLen_code, fillBuf_code, loadHeader_code]
@[simp] theorem decodeBuilt_lastOp (n payLen : Nat) : (s.decodeBuilt n payLen).lastOp = s.lastOp := by
  simp only [decodeBuilt, setTree_lastOp, setQueue_lastOp, setPayLen_lastOp, fillBuf_lastOp, loadHeader_lastOp]
@[simp] theorem decodeBuilt_opa (n payLen : Nat) : (s.decodeBuilt n payLen).opa = s.opa := by
  simp only [decodeBuilt, setTree_opa, setQueue_opa, setPayLen_opa, fillBuf_opa, loadHeader_opa]
@[simp] theorem decodeBuilt_opb (n payLen : Nat) : (s.decodeBuilt n payLen).opb = s.opb := by
  simp only [decodeBuilt, setTree_opb, setQueue_opb, setPayLen_opb, fillBuf_opb, loadHeader_opb]
@[simp] theorem decodeBuilt_res0 (n payLen : Nat) : (s.decodeBuilt n payLen).res0 = s.res0 := by
  simp only [decodeBuilt, setTree_res0, setQueue_res0, setPayLen_res0, fillBuf_res0, loadHeader_res0]
@[simp] theorem decodeBuilt_res1 (n payLen : Nat) : (s.decodeBuilt n payLen).res1 = s.res1 := by
  simp only [decodeBuilt, setTree_res1, setQueue_res1, setPayLen_res1, fillBuf_res1, loadHeader_res1]
@[simp] theorem decodeBuilt_res2 (n payLen : Nat) : (s.decodeBuilt n payLen).res2 = s.res2 := by
  simp only [decodeBuilt, setTree_res2, setQueue_res2, setPayLen_res2, fillBuf_res2, loadHeader_res2]
@[simp] theorem decodeBuilt_rawLen (n payLen : Nat) : (s.decodeBuilt n payLen).rawLen = s.rawLen := by
  simp only [decodeBuilt, setTree_rawLen, setQueue_rawLen, setPayLen_rawLen, fillBuf_rawLen, loadHeader_rawLen]
@[simp] theorem decodeBuilt_frmLen (n payLen : Nat) : (s.decodeBuilt n payLen).frmLen = s.frmLen := by
  simp only [decodeBuilt, setTree_frmLen, setQueue_frmLen, setPayLen_frmLen, fillBuf_frmLen, loadHeader_frmLen]
@[simp] theorem decodeBuilt_frmUsed (n payLen : Nat) : (s.decodeBuilt n payLen).frmUsed = s.frmUsed := by
  simp only [decodeBuilt, setTree_frmUsed, setQueue_frmUsed, setPayLen_frmUsed, fillBuf_frmUsed, loadHeader_frmUsed]
@[simp] theorem decodeBuilt_fcnt (n payLen : Nat) : (s.decodeBuilt n payLen).fcnt = s.fcnt := by
  simp only [decodeBuilt, setTree_fcnt, setQueue_fcnt, setPayLen_fcnt, fillBuf_fcnt, loadHeader_fcnt]
@[simp] theorem decodeBuilt_dict (n payLen : Nat) : (s.decodeBuilt n payLen).dict = s.dict := by
  simp only [decodeBuilt, setTree_dict, setQueue_dict, setPayLen_dict, fillBuf_dict, loadHeader_dict]
@[simp] theorem decodeBuilt_host (n payLen : Nat) : (s.decodeBuilt n payLen).host = s.host := by
  simp only [decodeBuilt, setTree_host, setQueue_host, setPayLen_host, fillBuf_host, loadHeader_host]
@[simp] theorem decodeBuilt_reads (n payLen : Nat) : (s.decodeBuilt n payLen).reads = s.reads := by
  simp only [decodeBuilt, setTree_reads, setQueue_reads, setPayLen_reads, fillBuf_reads, loadHeader_reads]
@[simp] theorem decodeBuilt_drawn (n payLen : Nat) : (s.decodeBuilt n payLen).drawn = s.drawn := by
  simp only [decodeBuilt, setTree_drawn, setQueue_drawn, setPayLen_drawn, fillBuf_drawn, loadHeader_drawn]

end Sys2Proof.Machine.State
end

