-- ==== Sys2Proof/Laws/HostPort.lean ====
section
/-! SUPPORT. What a byte read and a byte write at the host port can be, said once (20_memory R61, R62, R69, R71), so that
no proof splits their chains of address comparisons. -/

namespace Sys2Proof.Machine

/-! ### Byte writes -/

/-- A FLIST byte write changes FLIST alone. -/
theorem State.writeFlistByte_frame (s : State) (off : Nat) (v : Byte) :
    s.writeFlistByte off v = { s with flist := (s.writeFlistByte off v).flist } := rfl

@[simp] theorem State.writeFlistByte_mem (s : State) (off : Nat) (v : Byte) :
    (s.writeFlistByte off v).mem = s.mem := rfl
@[simp] theorem State.writeFlistByte_fcnt (s : State) (off : Nat) (v : Byte) :
    (s.writeFlistByte off v).fcnt = s.fcnt := rfl
@[simp] theorem State.writeFlistByte_dict (s : State) (off : Nat) (v : Byte) :
    (s.writeFlistByte off v).dict = s.dict := rfl
@[simp] theorem State.writeFlistByte_tree (s : State) (off : Nat) (v : Byte) :
    (s.writeFlistByte off v).tree = s.tree := rfl

theorem State.writePortByte_buffer (s : State) {a : Nat} (h : bufferAddress a) (v : Byte) :
    s.writePortByte a v = { s with mem := Memory.write s.mem a v } := by
  rw [State.writePortByte, if_pos h]

theorem State.writePortByte_flist (s : State) {a : Nat} (h : 0x061000 ≤ a ∧ a ≤ 0x0617FF) (v : Byte) :
    s.writePortByte a v = s.writeFlistByte (a % 0x800) v := by
  have hb : ¬ bufferAddress a := by
    simp only [bufferAddress, Buffer.holds, Buffer.base, Buffer.size, Config.frmCap]
    omega
  rw [State.writePortByte, if_neg hb, if_pos h]

theorem State.writePortByte_other (s : State) {a : Nat} (h : ¬ bufferAddress a)
    (k : ¬ (0x061000 ≤ a ∧ a ≤ 0x0617FF)) (v : Byte) : s.writePortByte a v = s := by
  rw [State.writePortByte, if_neg h, if_neg k]

/-- Everything a byte write can do (R61, R62, R69, R71). -/
theorem State.writePortByte_cases (s : State) (a : Nat) (v : Byte) :
    (bufferAddress a ∧ s.writePortByte a v = { s with mem := Memory.write s.mem a v })
    ∨ ((0x061000 ≤ a ∧ a ≤ 0x0617FF) ∧ s.writePortByte a v = s.writeFlistByte (a % 0x800) v)
    ∨ (¬ bufferAddress a ∧ ¬ (0x061000 ≤ a ∧ a ≤ 0x0617FF) ∧ s.writePortByte a v = s) := by
  by_cases h : bufferAddress a
  · exact .inl ⟨h, s.writePortByte_buffer h v⟩
  · by_cases k : 0x061000 ≤ a ∧ a ≤ 0x0617FF
    · exact .inr (.inl ⟨k, s.writePortByte_flist k v⟩)
    · exact .inr (.inr ⟨h, k, s.writePortByte_other h k v⟩)

theorem State.writeFlistByte_eq (s : State) (off : Nat) (v : Byte) :
    ∃ m f, s.writeFlistByte off v = { s with mem := m, flist := f } := ⟨_, _, s.writeFlistByte_frame off v⟩

/-- A byte write changes the memory and FLIST at most. -/
theorem State.writePortByte_eq (s : State) (a : Nat) (v : Byte) :
    ∃ m f, s.writePortByte a v = { s with mem := m, flist := f } := by
  rcases s.writePortByte_cases a v with ⟨-, h⟩ | ⟨-, h⟩ | ⟨-, -, h⟩
  · exact ⟨_, s.flist, h⟩
  · obtain ⟨m, f, k⟩ := s.writeFlistByte_eq (a % 0x800) v
    exact ⟨m, f, h.trans k⟩
  · exact ⟨s.mem, s.flist, h⟩

/-- A word write outside the register window changes the memory and FLIST at most. -/
theorem State.writeWord_frame (s : State) {a : Addr} (h : registerWindow a = false) (v : Word) :
    s.writeWord a v = { s with mem := (s.writeWord a v).mem, flist := (s.writeWord a v).flist } := by
  have h1 : s.writeWord a v = (((s.writePortByte a.toNat (byteOf v 0)).writePortByte (a.toNat + 1) (byteOf v 1)).writePortByte
      (a.toNat + 2) (byteOf v 2)).writePortByte (a.toNat + 3) (byteOf v 3) := by
    rw [State.writeWord, h]
    rfl
  rw [h1]
  obtain ⟨m0, f0, e0⟩ := s.writePortByte_eq a.toNat (byteOf v 0)
  rw [e0]
  obtain ⟨m1, f1, e1⟩ := State.writePortByte_eq { s with mem := m0, flist := f0 } (a.toNat + 1) (byteOf v 1)
  rw [e1]
  obtain ⟨m2, f2, e2⟩ := State.writePortByte_eq { s with mem := m1, flist := f1 } (a.toNat + 2) (byteOf v 2)
  rw [e2]
  obtain ⟨m3, f3, e3⟩ := State.writePortByte_eq { s with mem := m2, flist := f2 } (a.toNat + 3) (byteOf v 3)
  rw [e3]

/-- A byte write keeps the memory's canonical form. -/
theorem State.wf_writePortByte {s : State} (h : Memory.wf s.mem) (a : Nat) (v : Byte) :
    Memory.wf (s.writePortByte a v).mem := by
  rcases s.writePortByte_cases a v with ⟨hb, k⟩ | ⟨-, k⟩ | ⟨-, -, k⟩ <;> rw [k]
  · exact Memory.wf_write h hb v
  · rw [State.writeFlistByte_mem]
    exact h
  · exact h

/-- A word write keeps the memory's canonical form. -/
theorem State.wf_writeWord {s : State} (h : Memory.wf s.mem) (a : Addr) (v : Word) :
    Memory.wf (s.writeWord a v).mem := by
  rw [State.writeWord]
  split
  · generalize a.toNat = off
    unfold State.writeReg
    split <;> exact h
  · exact State.wf_writePortByte (State.wf_writePortByte (State.wf_writePortByte (State.wf_writePortByte h _ _) _ _) _ _)
      _ _

/-! ### What a write does, byte by byte and entry by entry -/

/-- What a byte write does to the buffer bytes. -/
theorem State.memByte_writePortByte (s : State) (a : Nat) (v : Byte) (b : Nat) :
    (s.writePortByte a v).memByte b = if b = a ∧ bufferAddress b then v else s.memByte b := by
  rcases s.writePortByte_cases a v with ⟨hb, k⟩ | ⟨hf, k⟩ | ⟨hb, -, k⟩ <;> rw [k]
  · by_cases hab : b = a
    · subst hab; rw [if_pos ⟨rfl, hb⟩]; simp [State.memByte, Memory.find_write]
    · rw [if_neg (fun h => hab h.1)]; simp [State.memByte, Memory.find_write, hab]
  · rw [if_neg]
    · simp only [State.memByte, State.writeFlistByte_mem]
    · rintro ⟨rfl, hb⟩
      simp only [bufferAddress, Buffer.holds, Buffer.base, Buffer.size, Config.frmCap] at hb
      omega
  · rw [if_neg]; rintro ⟨rfl, h⟩; exact hb h

theorem State.flist_writeFlistByte (s : State) (off : Nat) (v : Byte) (i : Nat) (hi : i < 256) :
    (s.writeFlistByte off v).flist[i] = if off / 8 = i then (s.flist[i]).setByte (off % 8) v else s.flist[i] := by
  simp only [State.writeFlistByte, Vector.getElem_setIfInBounds]
  split
  · next h => subst h; simp [hi]
  · rfl

/-- What a byte write does to the entries of FLIST (R69). -/
theorem State.flist_writePortByte (s : State) (a : Nat) (v : Byte) (i : Nat) (hi : i < 256) :
    (s.writePortByte a v).flist[i]
      = if 0x061000 + 8 * i ≤ a ∧ a < 0x061000 + 8 * i + 8 then (s.flist[i]).setByte (a - (0x061000 + 8 * i)) v
        else s.flist[i] := by
  rcases s.writePortByte_cases a v with ⟨hb, k⟩ | ⟨hf, k⟩ | ⟨-, hf, k⟩
  · have e : (s.writePortByte a v).flist = s.flist := by rw [k]
    simp only [bufferAddress, Buffer.holds, Buffer.base, Buffer.size, Config.frmCap] at hb
    simp only [e]
    rw [if_neg (by omega)]
  · have e : (s.writePortByte a v).flist = (s.writeFlistByte (a % 0x800) v).flist := by rw [k]
    simp only [e, State.flist_writeFlistByte]
    by_cases h : 0x061000 + 8 * i ≤ a ∧ a < 0x061000 + 8 * i + 8
    · rw [if_pos h, if_pos (by omega), show a % 0x800 % 8 = a - (0x061000 + 8 * i) by omega]
    · rw [if_neg h, if_neg (by omega)]
  · have e : (s.writePortByte a v).flist = s.flist := by rw [k]
    simp only [e]
    rw [if_neg (by omega)]

/-- The four bytes of a word written over a word make that word. -/
theorem setByteOf_bytes (c w : Word) :
    setByteOf (setByteOf (setByteOf (setByteOf c 0 (byteOf w 0)) 1 (byteOf w 1)) 2 (byteOf w 2)) 3 (byteOf w 3) = w := by
  apply BitVec.eq_of_getLsbD_eq
  intro i hi
  interval_cases i <;> simp [setByteOf, byteOf]

/-- What a word write outside the register window does to the buffer bytes (R64, R65). -/
theorem State.memByte_writeWord (s : State) {a : Addr} (h : registerWindow a = false) (w : Word) (b : Nat) :
    (s.writeWord a w).memByte b
      = if a.toNat ≤ b ∧ b < a.toNat + 4 ∧ bufferAddress b then byteOf w (b - a.toNat) else s.memByte b := by
  rw [State.writeWord, h]
  simp only [Bool.false_eq_true, if_false, State.memByte_writePortByte]
  by_cases hb : bufferAddress b
  · simp only [hb, and_true]
    by_cases hr : a.toNat ≤ b ∧ b < a.toNat + 4
    · obtain ⟨k, hk⟩ : ∃ k, b = a.toNat + k := ⟨b - a.toNat, by omega⟩
      have : k < 4 := by omega
      subst hk
      interval_cases k <;> simp
    · rw [if_neg (by omega), if_neg (by omega), if_neg (by omega), if_neg (by omega), if_neg hr]
  · simp [hb]

/-- What an aligned word write outside the register window does to the entries of FLIST (R69). -/
theorem State.flist_writeWord (s : State) {a : Addr} (h : registerWindow a = false) (h4 : a.toNat % 4 = 0) (w : Word)
    (i : Nat) (hi : i < 256) :
    (s.writeWord a w).flist[i]
      = ⟨if a.toNat = 0x061000 + 8 * i then w.setWidth 8 else (s.flist[i]).sym,
          if a.toNat = 0x061000 + 8 * i + 4 then w else (s.flist[i]).count⟩ := by
  have hw : s.writeWord a w = (((s.writePortByte a.toNat (byteOf w 0)).writePortByte (a.toNat + 1) (byteOf w 1)).writePortByte
      (a.toNat + 2) (byteOf w 2)).writePortByte (a.toNat + 3) (byteOf w 3) := by rw [State.writeWord, h]; rfl
  simp only [hw, State.flist_writePortByte]
  generalize a.toNat = n at *
  by_cases h0 : n = 0x061000 + 8 * i
  · subst h0
    simp [FreqEntry.setByte, byteOf]
  · by_cases h5 : n = 0x061000 + 8 * i + 4
    · subst h5
      have e : ∀ k < 4, 0x061000 + 8 * i + 4 + k - (0x061000 + 8 * i) = 4 + k := fun k _ => by omega
      rw [if_pos (by omega), if_pos (by omega), if_pos (by omega), if_pos (by omega), if_neg h0, if_pos rfl,
        e 1 (by omega), e 2 (by omega), e 3 (by omega), show 0x061000 + 8 * i + 4 - (0x061000 + 8 * i) = 4 by omega]
      exact congrArg (FreqEntry.mk _) (setByteOf_bytes (s.flist[i]).count w)
    · rw [if_neg (by omega), if_neg (by omega), if_neg (by omega), if_neg (by omega), if_neg h0, if_neg h5]

/-! ### Byte reads -/

theorem State.portByte_buffer (s : State) {a : Nat} (h : bufferAddress a) : s.portByte a = s.memByte a := by
  rw [State.portByte, if_pos h]

theorem State.portByte_fcnt (s : State) {a : Nat} (h : 0x060000 ≤ a ∧ a ≤ 0x0603FF) :
    s.portByte a = windowByte s.fcntWord (a % 0x400) := by
  have hb : ¬ bufferAddress a := by
    simp only [bufferAddress, Buffer.holds, Buffer.base, Buffer.size, Config.frmCap]
    omega
  rw [State.portByte, if_neg hb, if_pos h]

theorem State.portByte_flist (s : State) {a : Nat} (h : 0x061000 ≤ a ∧ a ≤ 0x0617FF) :
    s.portByte a = windowByte s.flistWord (a % 0x800) := by
  have hb : ¬ bufferAddress a := by
    simp only [bufferAddress, Buffer.holds, Buffer.base, Buffer.size, Config.frmCap]
    omega
  rw [State.portByte, if_neg hb, if_neg (by omega), if_pos h]

theorem State.portByte_dict (s : State) {a : Nat} (h : 0x062000 ≤ a ∧ a ≤ 0x0627FF) :
    s.portByte a = windowByte s.dictWord (a % 0x800) := by
  have hb : ¬ bufferAddress a := by
    simp only [bufferAddress, Buffer.holds, Buffer.base, Buffer.size, Config.frmCap]
    omega
  rw [State.portByte, if_neg hb, if_neg (by omega), if_neg (by omega), if_pos h]

theorem State.portByte_tree (s : State) {a : Nat} (h : 0x064000 ≤ a ∧ a ≤ 0x0647FB) :
    s.portByte a = windowByte s.treeWord (a % 0x800) := by
  have hb : ¬ bufferAddress a := by
    simp only [bufferAddress, Buffer.holds, Buffer.base, Buffer.size, Config.frmCap]
    omega
  rw [State.portByte, if_neg hb, if_neg (by omega), if_neg (by omega), if_neg (by omega), if_pos h]

theorem State.portByte_other (s : State) {a : Nat} (hb : ¬ bufferAddress a) (h1 : ¬ (0x060000 ≤ a ∧ a ≤ 0x0603FF))
    (h2 : ¬ (0x061000 ≤ a ∧ a ≤ 0x0617FF)) (h3 : ¬ (0x062000 ≤ a ∧ a ≤ 0x0627FF))
    (h4 : ¬ (0x064000 ≤ a ∧ a ≤ 0x0647FB)) : s.portByte a = 0 := by
  rw [State.portByte, if_neg hb, if_neg h1, if_neg h2, if_neg h3, if_neg h4]

/-- What a byte of the port reads as depends on the memory byte there and on the four tables. -/
theorem State.portByte_congr {s t : State} {a : Nat} (hm : t.memByte a = s.memByte a) (h1 : t.fcnt = s.fcnt)
    (h2 : t.flist = s.flist) (h3 : t.dict = s.dict) (h4 : t.tree = s.tree) : t.portByte a = s.portByte a := by
  have f1 : t.fcntWord = s.fcntWord := by funext i; simp only [State.fcntWord, h1]
  have f2 : t.flistWord = s.flistWord := by funext i; simp only [State.flistWord, h2]
  have f3 : t.dictWord = s.dictWord := by funext i; simp only [State.dictWord, h3]
  have f4 : t.treeWord = s.treeWord := by funext i; simp only [State.treeWord, h4]
  unfold State.portByte
  rw [hm, f1, f2, f3, f4]

/-- A FLIST byte write leaves the other words of the window as they were. -/
theorem State.windowByte_writeFlistByte (s : State) {x y : Nat} (h : x / 4 ≠ y / 4) (hy : y < 2048) (v : Byte) :
    windowByte (s.writeFlistByte y v).flistWord x = windowByte s.flistWord x := by
  simp only [windowByte, State.flistWord, State.writeFlistByte]
  by_cases hi : x / 4 / 2 = y / 8
  · have hlt : y / 8 < 256 := by omega
    have hs : s.flist[y / 8]? = some s.flist[y / 8] := by simp [hlt]
    rw [hi, Vector.getElem?_setIfInBounds_self]
    simp only [hlt, if_true, Option.getD_some, hs]
    unfold FreqEntry.setByte
    split_ifs <;> first | rfl | omega
  · rw [Vector.getElem?_setIfInBounds_ne (by omega)]

/-- A byte write leaves every byte of another aligned word as it was. -/
theorem State.portByte_writePortByte_ne (s : State) {b c : Nat} (h : b / 4 ≠ c / 4) (v : Byte) :
    (s.writePortByte c v).portByte b = s.portByte b := by
  have hcb : b ≠ c := by rintro rfl; exact h rfl
  rcases s.writePortByte_cases c v with ⟨-, k⟩ | ⟨hc, k⟩ | ⟨-, -, k⟩ <;> rw [k]
  · exact State.portByte_congr (by simp [State.memByte, Memory.find_write, hcb]) rfl rfl rfl rfl
  · generalize hy : c % 0x800 = y
    by_cases hb : 0x061000 ≤ b ∧ b ≤ 0x0617FF
    · rw [State.portByte_flist _ hb, State.portByte_flist _ hb]
      exact s.windowByte_writeFlistByte (by omega) (by omega) v
    · have f1 : (s.writeFlistByte y v).fcntWord = s.fcntWord := by
        funext i; simp only [State.fcntWord, State.writeFlistByte_fcnt]
      have f3 : (s.writeFlistByte y v).dictWord = s.dictWord := by
        funext i; simp only [State.dictWord, State.writeFlistByte_dict]
      have f4 : (s.writeFlistByte y v).treeWord = s.treeWord := by
        funext i; simp only [State.treeWord, State.writeFlistByte_tree]
      unfold State.portByte
      simp only [if_neg hb, f1, f3, f4, State.memByte, State.writeFlistByte_mem]

/-- A byte write leaves every other buffer byte as it was. -/
theorem State.portByte_writePortByte_buffer (s : State) {b c : Nat} (hb : bufferAddress b) (h : b ≠ c) (v : Byte) :
    (s.writePortByte c v).portByte b = s.portByte b := by
  rw [State.portByte_buffer _ hb, State.portByte_buffer _ hb]
  rcases s.writePortByte_cases c v with ⟨-, k⟩ | ⟨-, k⟩ | ⟨-, -, k⟩ <;> rw [k]
  · simp [State.memByte, Memory.find_write, h]
  · simp only [State.memByte, State.writeFlistByte_mem]

end Sys2Proof.Machine
end

