-- ==== Sys2Proof/Laws/PerInstr.lean ====
section
/-! SUPPORT. Per command: its word is legal, with zero reserved bits and the OPCODE of 30_encoding R81, and the command is
well formed. -/

namespace Sys2Proof.Laws.Encoding

open Sys2Proof Sys2Proof.Machine

/-- What 30_encoding R80 and R81 say of a command's word. -/
def Statement (i : Instr) : Prop :=
  i.wf = true ∧ commandWordWf (encode i) = true ∧ encode i = (specOpcode i).setWidth 32

theorem nop : Statement .nop := by unfold Statement; decide
theorem reset : Statement .reset := by unfold Statement; decide
theorem faRun : Statement .faRun := by unfold Statement; decide
theorem pqClear : Statement .pqClear := by unfold Statement; decide
theorem pqInsert : Statement .pqInsert := by unfold Statement; decide
theorem pqExtract : Statement .pqExtract := by unfold Statement; decide
theorem tbRun : Statement .tbRun := by unfold Statement; decide
theorem dbRun : Statement .dbRun := by unfold Statement; decide
theorem dictLookup : Statement .dictLookup := by unfold Statement; decide
theorem pkRun : Statement .pkRun := by unfold Statement; decide
theorem upRun : Statement .upRun := by unfold Statement; decide
theorem encodeBlock : Statement .encodeBlock := by unfold Statement; decide
theorem decodeFrame : Statement .decodeFrame := by unfold Statement; decide

end Sys2Proof.Laws.Encoding
end

