-- ==== Sys2Proof/Laws/Reach.lean ====
section
/-! SUPPORT. In one binary tree every node is reached from the root, and paths, dictionaries and walks see only the
nodes of the tree (10_state R44 (d), 42_tree_builder R144). -/

namespace Sys2Proof.Machine

theorem descend_append (t : Vector Node 511) (n : BitVec 9) (bits rest : List Bool) :
    descend t n (bits ++ rest) = (descend t n bits).bind fun m => descend t m rest := by
  induction bits generalizing n with
  | nil => rfl
  | cons b bits ih =>
    rw [List.cons_append, descend, descend]
    cases nodeAt t n with
    | leaf _ => rfl
    | internal z o => exact ih _

/-- A child of a node is one edge below it. -/
theorem descend_child {t : Vector Node 511} {n : BitVec 9} {c : Nat} (h : c ∈ (nodeAt t n).children) :
    ∃ (b : Bool) (m : BitVec 9), m.toNat = c ∧ descend t n [b] = some m := by
  cases hn : nodeAt t n with
  | leaf _ => simp [hn, Node.children] at h
  | internal z o =>
    rw [hn] at h
    simp only [Node.children, List.mem_cons, List.not_mem_nil, or_false] at h
    rcases h with rfl | rfl
    · exact ⟨false, z, rfl, by simp [descend, hn]⟩
    · exact ⟨true, o, rfl, by simp [descend, hn]⟩

/-- Every node of the tree is reached from the root (10_state R44 (d)). -/
theorem TreeWf.reach {t : Vector Node 511} {root : BitVec 9} {nodes : Nat} (h : TreeWf t root nodes)
    {i : Nat} (hi : i < nodes) : ∃ bits, descend t root bits = some (BitVec.ofNat 9 i) := by
  have hof : ∀ m : BitVec 9, ∀ j, m.toNat = j → m = BitVec.ofNat 9 j := fun m j e => by rw [← e]; simp
  generalize hk : nodes - i = k
  induction k using Nat.strong_induction_on generalizing i with
  | _ k ih =>
    have hmem : i ∈ root.toNat :: (List.range nodes).flatMap (childrenAt t) := h.1.symm.subset (List.mem_range.2 hi)
    rcases List.mem_cons.1 hmem with he | hc
    · exact ⟨[], by rw [descend, hof root i he.symm]⟩
    · obtain ⟨j, hj, hij⟩ := List.mem_flatMap.1 hc
      have hj := List.mem_range.1 hj
      have hlt := h.2 j hj i hij
      obtain ⟨bits, hb⟩ := ih (nodes - j) (by omega) hj rfl
      obtain ⟨b, m, hm, hd⟩ := descend_child hij
      exact ⟨bits ++ [b], by rw [descend_append, hb, Option.bind_some, hd, hof m i hm]⟩

/-- Every leaf's symbol has a code. -/
theorem TreeWf.exists_code {t : Vector Node 511} {root : BitVec 9} {nodes : Nat} (h : TreeWf t root nodes)
    (hn : nodes ≤ 511) {i : Nat} (hi : i < nodes) {sym : Byte} (hl : t[i]? = some (.leaf sym)) :
    ∃ bits, isCodeOf t root bits sym := by
  obtain ⟨bits, hb⟩ := h.reach hi
  refine ⟨bits, _, hb, ?_⟩
  rw [nodeAt_eq, BitVec.toNat_ofNat, Nat.mod_eq_of_lt (by omega), hl]
  rfl

/-- In the dictionary of one tree the symbol of each leaf is present, and its recorded code is a path to a leaf of it
(43_dictionary R151). -/
theorem dictOfTree_leaf {t : Vector Node 511} {root : BitVec 9} {nodes : Nat} (h : TreeWf t root nodes)
    (hn : nodes ≤ 511) {d : Vector DictEntry 256} (hd : dictOfTree t root = some d) {i : Nat} (hi : i < nodes)
    {sym : Byte} (hl : t[i]? = some (.leaf sym)) :
    (dictAt d sym).present = true ∧ isCodeOf t root (dictAt d sym).codeBits sym := by
  obtain ⟨bits, hb⟩ := h.exists_code hn hi hl
  rcases (dictOfTree_some hd).2 sym with ⟨h1, -⟩ | ⟨path, h1, h2⟩
  · exact absurd hb (h1 bits)
  · rw [h2.codeBits]
    exact ⟨h2.1, h1.1⟩

/-! ### Two stores with the same tree -/

/-- The nodes below `nodes` are the same in both stores, and their children lie below them. -/
structure SameTree (t u : Vector Node 511) (nodes : Nat) : Prop where
  same : ∀ i < nodes, t[i]? = u[i]?
  below : ∀ i < nodes, ∀ c ∈ childrenAt t i, c < i

theorem SameTree.nodeAt {t u : Vector Node 511} {nodes : Nat} (h : SameTree t u nodes) {n : BitVec 9}
    (hn : n.toNat < nodes) : nodeAt u n = nodeAt t n := by
  rw [nodeAt_eq, nodeAt_eq, h.same _ hn]

theorem SameTree.child {t u : Vector Node 511} {nodes : Nat} (h : SameTree t u nodes) {n z o : BitVec 9}
    (hn : n.toNat < nodes) (he : Machine.nodeAt t n = .internal z o) : z.toNat < nodes ∧ o.toNat < nodes := by
  have hc : childrenAt t n.toNat = [z.toNat, o.toNat] := by
    have : BitVec.ofNat 9 n.toNat = n := by simp
    rw [childrenAt, this, he]
    rfl
  have h1 := h.below n.toNat hn z.toNat (by rw [hc]; simp)
  have h2 := h.below n.toNat hn o.toNat (by rw [hc]; simp)
  omega

theorem SameTree.descend {t u : Vector Node 511} {nodes : Nat} (h : SameTree t u nodes) {n : BitVec 9}
    (hn : n.toNat < nodes) (bits : List Bool) :
    Machine.descend u n bits = Machine.descend t n bits ∧ ∀ m, Machine.descend t n bits = some m → m.toNat < nodes := by
  induction bits generalizing n with
  | nil =>
    refine ⟨rfl, fun m hm => ?_⟩
    simp only [descend_nil, Option.some.injEq] at hm
    rwa [← hm]
  | cons b bits ih =>
    rw [Machine.descend, Machine.descend, h.nodeAt hn]
    cases he : Machine.nodeAt t n with
    | leaf _ => simp
    | internal z o =>
      have := h.child hn he
      exact ih (by split <;> omega)

/-- The same paths are codes. -/
theorem SameTree.isCodeOf {t u : Vector Node 511} {nodes : Nat} (h : SameTree t u nodes) {root : BitVec 9}
    (hr : root.toNat < nodes) (bits : List Bool) (sym : Byte) :
    Machine.isCodeOf u root bits sym ↔ Machine.isCodeOf t root bits sym := by
  obtain ⟨h1, h2⟩ := h.descend hr bits
  constructor
  · rintro ⟨m, h3, h4⟩
    rw [h1] at h3
    exact ⟨m, h3, by rw [← h.nodeAt (h2 m h3)]; exact h4⟩
  · rintro ⟨m, h3, h4⟩
    exact ⟨m, by rw [h1]; exact h3, by rw [h.nodeAt (h2 m h3)]; exact h4⟩

theorem SameTree.visit {t u : Vector Node 511} {nodes : Nat} (h : SameTree t u nodes) (left : Nat) {n : BitVec 9}
    (hn : n.toNat < nodes) (pat : BitVec 56) (d : Vector DictEntry 256) :
    Machine.visit u left n pat d = Machine.visit t left n pat d := by
  induction left generalizing n pat d with
  | zero => rw [Machine.visit, Machine.visit, h.nodeAt hn]
  | succ left ih =>
    rw [Machine.visit, Machine.visit, h.nodeAt hn]
    cases he : Machine.nodeAt t n with
    | leaf _ => rfl
    | internal z o =>
      have hc := h.child hn he
      simp only [ih hc.1]
      cases Machine.visit t left z pat d with
      | none => rfl
      | some d' => exact ih hc.2 _ _

/-- The same dictionary is built. -/
theorem SameTree.dictOfTree {t u : Vector Node 511} {nodes : Nat} (h : SameTree t u nodes) {root : BitVec 9}
    (hr : root.toNat < nodes) : Machine.dictOfTree u root = Machine.dictOfTree t root :=
  h.visit Config.maxWidth hr 0 emptyDict

/-- Builds from one frequency list leave the same tree, whatever the store held (42_tree_builder R144). -/
theorem buildNodes_sameTree (t u : Vector Node 511) {es : List FreqEntry} (h0 : es ≠ []) (h : es.length ≤ 256) :
    SameTree (buildNodes t es).tree (buildNodes u es).tree (2 * es.length - 1) := by
  obtain ⟨r, -, -, h1, h2, -⟩ := buildNodes_spec t h0 h
  refine ⟨fun i hi => ?_, fun i hi => ?_⟩
  · exact (buildNodes_agree t u h).tree i (by omega)
  · exact h1.below i (by omega)

end Sys2Proof.Machine
end

