-- ==== Sys2Proof/Laws/ResetInput.lean ====
section
/-! SUPPORT. Which bytes a command writes, and what the reset input keeps of them when it abandons the command
(70_reset_and_hazards R260). -/

namespace Sys2Proof.Machine

/-- The address lies outside the bytes of RAW, PAY and FRM that the command writes on this state. -/
def OutsideWritten (i : Instr) (s : State) (a : Nat) : Prop :=
  ¬ (Buffer.raw.base ≤ a ∧ a < Buffer.raw.base + rawBytesWritten i s)
    ∧ ¬ (Buffer.pay.base ≤ a ∧ a < Buffer.pay.base + payBytesWritten i s)
    ∧ ¬ (Buffer.frm.base ≤ a ∧ a < Buffer.frm.base + frmBytesWritten i s)

/-! ### What each command that writes a buffer leaves alone -/

/-- PK_RUN leaves every byte outside those it writes as it was. -/
theorem pkRun_outside {s : State} {a : Nat} (h : OutsideWritten .pkRun s a) : (pkRun s).memByte a = s.memByte a := by
  have h2 := h.2.1
  simp only [payBytesWritten] at h2
  revert h2
  unfold pkRun
  split
  · intro _; rfl
  split
  · intro _; rfl
  intro h2
  exact State.memByte_pack s _ a (by simpa [State.finish] using h2)

/-- ENCODE leaves every byte outside those it writes as it was. -/
theorem encodeRun_outside {s : State} {a : Nat} (h : OutsideWritten .encodeBlock s a) :
    (encodeRun s).memByte a = s.memByte a := by
  have h2 := h.2.1
  have h3 := h.2.2
  simp only [payBytesWritten, frmBytesWritten] at h2 h3
  by_cases hb : s.blockLength ≤ Config.blockMax
  · have key : ∀ (t : State) (f : List Byte) (c : Code), f.length ≤ Config.frmCap → encodeRun s = (t.putFrame f).finish c →
        t.memByte a = s.memByte a → (encodeRun s).memByte a = s.memByte a := by
      intro t f c hf e ht
      rw [e] at h3 ⊢
      have h3' : ¬ (Buffer.frm.base ≤ a ∧ a < Buffer.frm.base + (t.putFrame f).frmLen.toNat) := h3
      rw [State.putFrame_frmLen t hf] at h3'
      exact (State.memByte_putFrame t f a h3').trans ht
    have hraw : ∀ t : State, (rawFrame (t.bufBytes .raw 0 s.blockLength)).length ≤ Config.frmCap := by
      intro t
      rw [length_rawFrame, State.length_bufBytes]
      unfold Config.frmCap; unfold Config.blockMax at hb; omega
    have hcases := encodeRun_cases hb _ rfl
    have hE : (s.encodeBuilt (s.analyze s.blockLength).listLength).mem = s.mem := by simp [State.encodeBuilt]
    have hA : (s.analyze s.blockLength).mem = s.mem := by simp
    generalize s.encodeBuilt (s.analyze s.blockLength).listLength = E at *
    generalize (s.analyze s.blockLength).listLength = n at *
    generalize s.analyze s.blockLength = A at *
    rcases hcases with ⟨-, e⟩ | ⟨-, e⟩ | ⟨-, -, -, e⟩ | ⟨-, hle, d, -, ⟨ho, e⟩ | ⟨ho, e⟩⟩
    · exact key _ _ _ (hraw _) e (State.memByte_of_mem hA a)
    · exact key _ _ _ (hraw _) e (State.memByte_of_mem hA a)
    · exact key _ _ _ (hraw _) e (State.memByte_of_mem hE a)
    · rw [e] at h2
      exact key _ _ _ (hraw _) e ((State.memByte_pack _ _ _ h2).trans (State.memByte_of_mem hE a))
    · rw [e] at h2
      refine key _ _ _ ?_ e ((State.memByte_pack _ _ _ h2).trans (State.memByte_of_mem hE a))
      have hp := (E.setDict d true).pack_payLen s.blockLength
      rw [length_codedFrame, State.length_bufBytes]
      have : (((E.setDict d true).pack s.blockLength).entries n).length ≤ 256 := by simp [State.entries]
      unfold Config.frmCap
      unfold Config.packCap at hp
      omega
  · unfold encodeRun; dsimp only; rw [if_pos (by omega)]; rfl

/-- The symbols emitted are the same seen from the state UP_RUN or DECODE leaves: RAW alone was written. -/
theorem State.emitted_raise_unpack (s : State) {len payLen : Nat} (c : Code) (h : payLen ≤ 65536) :
    ((s.unpack len payLen).raise c).emitted len payLen = s.emitted len payLen := by
  have h1 : (s.unpack len payLen).bufBytes .pay 0 payLen = s.bufBytes .pay 0 payLen :=
    State.bufBytes_fillBuf_other _ (by decide) _ (by simpa [Buffer.size] using h)
  have h2 : ((s.unpack len payLen).raise c).bufBytes .pay 0 payLen = (s.unpack len payLen).bufBytes .pay 0 payLen := rfl
  simp only [State.emitted, State.raise_tree, State.raise_treeRoot, State.unpack_tree, State.unpack_treeRoot, h2, h1]

/-- UP_RUN leaves every byte outside those it writes as it was. -/
theorem upRun_outside {s : State} {a : Nat} (h : OutsideWritten .upRun s a) : (upRun s).memByte a = s.memByte a := by
  have h1 := h.1
  simp only [rawBytesWritten] at h1
  have hbm : (s.buildTree s.listLength).mem = s.mem := by simp
  rcases upRun_cases s with ⟨c, -, -, e⟩ | ⟨-, -, h3, h4, -, hh⟩
  · rw [e]; rfl
  generalize s.buildTree s.listLength = b at *
  have hmem : b.memByte a = s.memByte a := State.memByte_of_mem hbm a
  rcases hh with ⟨hx, e⟩ | ⟨hx, e⟩ <;> rw [e] at h1 ⊢
  · simp only [State.raise_code, State.emitted_raise_unpack b _ h4] at h1
    exact (State.memByte_unpack b s.blockLength s.payloadLength a h1).trans hmem
  · have hle : (b.emitted s.blockLength s.payloadLength).length ≤ s.blockLength := State.length_emitted_le ..
    have h1' : ¬ (Buffer.raw.base ≤ a ∧ a < Buffer.raw.base + s.blockLength) := h1
    exact (State.memByte_unpack b s.blockLength s.payloadLength a (by omega)).trans hmem

/-- DECODE leaves every byte outside those it writes as it was. -/
theorem decodeRun_outside {s : State} {a : Nat} (h : OutsideWritten .decodeFrame s a) : (decodeRun s).memByte a = s.memByte a := by
  have h1 := h.1
  have h2 := h.2.1
  simp only [rawBytesWritten, payBytesWritten] at h1 h2
  rcases decodeRun_cases s with ⟨c, -, e⟩ | ⟨hl, e⟩ | ⟨n, hn, n1, n2, ⟨c, -, e⟩ | ⟨l1, l2, -, e⟩⟩
  · rw [e]; rfl
  · rw [e] at h1 ⊢
    have h1' : ¬ (Buffer.raw.base ≤ a ∧ a < Buffer.raw.base + (BitVec.ofNat 17 (s.bufLe32 .frm 2).toNat).toNat) := h1
    rw [BitVec.toNat_ofNat] at h1'
    have e2 : (s.fillBuf .raw (s.bufBytes .frm 6 (s.bufLe32 .frm 2).toNat)).memByte a = s.memByte a := by
      rw [State.memByte_fillBuf, if_neg]
      rw [State.length_bufBytes]; simp only [Buffer.size] at *; omega
    exact e2
  · rw [e]; rfl
  · rw [← hn] at h1
    generalize hlen : (s.bufLe32 .frm (2 + 5 * n)).toNat = len at *
    generalize hpl : (s.bufLe32 .frm (6 + 5 * n)).toNat = pl at *
    have hpn : (BitVec.ofNat 17 pl).toNat = pl := by rw [BitVec.toNat_ofNat]; omega
    have hln : (BitVec.ofNat 17 len).toNat = len := by rw [BitVec.toNat_ofNat]; omega
    have hmb : ¬ (Buffer.pay.base ≤ a ∧ a < Buffer.pay.base + pl) → (s.decodeBuilt n pl).memByte a = s.memByte a := by
      intro ha
      have e : (s.decodeBuilt n pl).memByte a = (s.fillBuf .pay (s.bufBytes .frm (10 + 5 * n) pl)).memByte a := rfl
      rw [e, State.memByte_fillBuf, if_neg]
      rw [State.length_bufBytes]; simp only [Buffer.size]; omega
    have hdp : (s.decodeBuilt n pl).payLen = BitVec.ofNat 17 pl := rfl
    rcases decodePayload_cases s (n := n) (len := len) (payLen := pl) n1 n2 with ⟨hx, e'⟩ | ⟨hx, e'⟩ <;> rw [e'] at e <;> rw [e] at h1 h2 ⊢
    · generalize s.decodeBuilt n pl = b at *
      simp only [State.raise_code, State.raise_payLen, State.unpack_payLen, hdp, hpn, State.emitted_raise_unpack b _ l2] at h1 h2
      exact (State.memByte_unpack b len pl a h1).trans (hmb h2)
    · generalize s.decodeBuilt n pl = b at *
      have h1' : ¬ (Buffer.raw.base ≤ a ∧ a < Buffer.raw.base + (BitVec.ofNat 17 len).toNat) := h1
      have h2' : ¬ (Buffer.pay.base ≤ a ∧ a < Buffer.pay.base + b.payLen.toNat) := h2
      rw [hln] at h1'
      rw [hdp, hpn] at h2'
      have hle : (b.emitted len pl).length ≤ len := State.length_emitted_le ..
      exact (State.memByte_unpack b len pl a (by omega)).trans (hmb h2')

/-- A command's run leaves every byte outside those it writes as it was. -/
theorem exec_outside {i : Instr} {s u : State} (h : exec i s = .next u) {a : Nat} (ha : OutsideWritten i s a) :
    u.memByte a = s.memByte a := by
  have hr : ∀ t : State, .next t = (.next u : Host.Outcome State Fault Refusal) → t.memByte a = s.memByte a →
      u.memByte a = s.memByte a := fun t e h => Host.Outcome.next.inj e ▸ h
  cases i with
  | pkRun => exact hr _ h (pkRun_outside ha)
  | upRun => exact hr _ h (upRun_outside ha)
  | encodeBlock => exact hr _ h (encodeRun_outside ha)
  | decodeFrame => exact hr _ h (decodeRun_outside ha)
  | nop => exact hr _ h rfl
  | reset => exact hr _ h rfl
  | faRun => exact hr _ h (State.memByte_of_mem (by unfold faRun; split <;> simp) a)
  | pqClear => exact hr _ h rfl
  | pqInsert =>
    refine hr _ h (State.memByte_of_mem ?_ a)
    unfold pqInsertRun State.pqInsert
    split
    · simp
    · next he => (repeat' split at he) <;> cases he; simp
  | pqExtract =>
    refine hr _ h (State.memByte_of_mem ?_ a)
    unfold pqExtractRun State.pqExtract
    split
    · simp
    · next he => split at he <;> cases he; simp
  | tbRun => exact hr _ h (State.memByte_of_mem (by unfold tbRun; (repeat' split) <;> simp) a)
  | dbRun => exact hr _ h (State.memByte_of_mem (by unfold dbRun; (repeat' split) <;> simp) a)
  | dictLookup => exact hr _ h rfl

/-- A run that ends in an error other than FMT_EXHAUSTED writes no buffer byte. -/
theorem written_of_error {i : Instr} {s u : State} (h : exec i s = .next u) (he : u.err = true)
    (hc : u.code ≠ .fmtExhausted) :
    rawBytesWritten i s = 0 ∧ payBytesWritten i s = 0 ∧ frmBytesWritten i s = 0 := by
  have hr : ∀ t : State, (.next t : Host.Outcome State Fault Refusal) = .next u → t.err = true ∧ t.code ≠ .fmtExhausted :=
    fun t e => by cases e; exact ⟨he, hc⟩
  cases i with
  | pkRun =>
    obtain ⟨h1, -⟩ := hr _ h
    exact ⟨rfl, if_pos h1, rfl⟩
  | upRun =>
    obtain ⟨h1, h2⟩ := hr _ h
    refine ⟨?_, rfl, rfl⟩
    simp only [rawBytesWritten]
    rcases upRun_cases s with ⟨c, hc, hx, e⟩ | ⟨-, -, -, -, -, ⟨-, e⟩ | ⟨-, e⟩⟩ <;> rw [e] at h1 h2 ⊢
    · cases c <;> first | rfl | exact absurd rfl hx | cases hc
    · exact absurd rfl h2
    · cases h1
  | encodeBlock =>
    obtain ⟨h1, -⟩ := hr _ h
    refine ⟨rfl, ?_, if_pos h1⟩
    simp only [payBytesWritten]
    by_cases hb : s.blockLength ≤ Config.blockMax
    · rcases encodeRun_cases hb _ rfl with ⟨-, e⟩ | ⟨-, e⟩ | ⟨-, -, -, e⟩ | ⟨-, -, d, -, ⟨-, e⟩ | ⟨-, e⟩⟩ <;> rw [e] at h1 <;>
        cases h1
    · rw [encodeRun, if_pos (by omega)]
      rfl
  | decodeFrame =>
    obtain ⟨h1, h2⟩ := hr _ h
    simp only [rawBytesWritten, payBytesWritten, frmBytesWritten, and_true]
    rcases decodeRun_cases s with ⟨c, hc, e⟩ | ⟨-, e⟩ | ⟨n, -, n1, n2, ⟨c, hc, e⟩ | ⟨-, -, -, e⟩⟩
    · rw [e] at h2 ⊢; cases c <;> first | exact ⟨rfl, rfl⟩ | exact absurd rfl h2 | cases hc
    · rw [e] at h1; cases h1
    · rw [e] at h2 ⊢; cases c <;> first | exact ⟨rfl, rfl⟩ | exact absurd rfl h2 | cases hc
    · rcases decodePayload_cases s n1 n2 with ⟨-, e'⟩ | ⟨-, e'⟩ <;> rw [e, e'] at h1 h2
      · exact absurd rfl h2
      · cases h1
  | nop => exact ⟨rfl, rfl, rfl⟩
  | reset => exact ⟨rfl, rfl, rfl⟩
  | faRun => exact ⟨rfl, rfl, rfl⟩
  | pqClear => exact ⟨rfl, rfl, rfl⟩
  | pqInsert => exact ⟨rfl, rfl, rfl⟩
  | pqExtract => exact ⟨rfl, rfl, rfl⟩
  | tbRun => exact ⟨rfl, rfl, rfl⟩
  | dbRun => exact ⟨rfl, rfl, rfl⟩
  | dictLookup => exact ⟨rfl, rfl, rfl⟩

/-! ### The reset input -/

/-- Losing the first bytes of a buffer leaves every other byte as it was. -/
theorem State.memByte_loseBytes (s : State) (b : Buffer) (n : Nat) {a : Nat}
    (h : ¬ (b.base ≤ a ∧ a < b.base + n)) : (s.loseBytes b n).memByte a = s.memByte a := by
  rw [State.loseBytes, State.memByte_fillBuf, if_neg]
  simp only [List.length_map, List.length_range]
  omega

/-- The reset input leaves every byte outside those the abandoned command writes as it was (R260, log 2). -/
theorem State.memByte_abandon {s : State} {w : Word} {turns : Nat} (h : s.eng = .busy w turns) {a : Nat}
    (ha : ∀ i, decode w = .ok i → OutsideWritten i s a) : s.abandon.memByte a = s.memByte a := by
  unfold State.abandon
  rw [h]
  dsimp only
  split
  · rfl
  · next i hd =>
    obtain ⟨h1, h2, h3⟩ := ha i hd
    rw [State.memByte_loseBytes _ _ _ h3, State.memByte_loseBytes _ _ _ h2, State.memByte_loseBytes _ _ _ h1]

end Sys2Proof.Machine
end

