-- ==== Sys2Proof/Laws/Step.lean ====
section
/-! SUPPORT. What one step can do, said once. -/

namespace Sys2Proof.Machine

/-- Everything a step that goes on can have been (10_state R21): waiting on an idle block, one of the host's three turns on
an idle block, a reset, a STATUS read on a busy block, a command, or an illegal word. -/
theorem step_cases {s t : State} (h : step s = .next t) :
    (s.eng = .idle ∧ s.host = [] ∧ t = s)
    ∨ (∃ x rest, s.eng = .idle ∧ s.host = .access x :: rest ∧ State.hostAccess { s with host := rest } x = .next t)
    ∨ (∃ rest, s.eng = .idle ∧ s.host = .wait :: rest ∧ t = State.pollStatus {s with host := rest})
    ∨ (∃ rest, s.host = .resetInput :: rest ∧ t = { s.assertReset with host := rest })
    ∨ (∃ w turns host, s.eng = .busy w turns ∧ t = State.pollStatus {s with eng := .busy w (turns - 1), host := host})
    ∨ (∃ w turns i, s.eng = .busy w turns ∧ decode w = .ok i ∧ exec i s = .next t)
    ∨ (∃ w turns e, s.eng = .busy w turns ∧ decode w = .error e ∧ t = s.raise .errIllegalCmd) := by
  have he : ∀ w turns, s.eng = .busy w turns → engineStep w s = .next t →
     (∃ w turns i, s.eng = .busy w turns ∧ decode w = .ok i ∧ exec i s = .next t)
    ∨ (∃ w turns e, s.eng = .busy w turns ∧ decode w = .error e ∧ t = s.raise .errIllegalCmd) := by
    intro w turns h1 h2
    unfold engineStep at h2
    split at h2
    · next i hd => exact .inl ⟨w, turns, i, h1, hd, h2⟩
    · next e hd => exact .inr ⟨w, turns, e, h1, hd, by simpa [execIllegal, illegalRun, eq_comm] using h2⟩
  unfold step at h
  split at h
  · next h1 =>
    unfold idleStep at h
    split at h
    · next h2 => exact .inl ⟨h1, h2, by simpa [eq_comm] using h⟩
    · next turn rest h2 =>
      cases turn with
      | access x => exact .inr (.inl ⟨x, rest, h1, h2, h⟩)
      | wait => exact .inr (.inr (.inl ⟨rest, h1, h2, by simpa [idleTurn, eq_comm] using h⟩))
      | resetInput => exact .inr (.inr (.inr (.inl ⟨rest, h2, by simpa [idleTurn, eq_comm] using h⟩)))
  · next w turns h1 =>
    unfold busyStep at h
    split at h
    · exact .inr (.inr (.inr (.inr (.inr (he _ _ h1 h)))))
    · exact .inr (.inr (.inr (.inr (.inr (he _ _ h1 h)))))
    · next turn rest left h2 =>
      cases turn with
      | access x =>
        simp only [busyTurn] at h
        split at h
        · exact .inr (.inr (.inr (.inr (.inl ⟨w, _, rest, h1, by simpa [eq_comm] using h⟩))))
        · cases h
      | wait => exact .inr (.inr (.inr (.inr (.inl ⟨w, _, s.host, h1, by simpa [busyTurn, eq_comm] using h⟩))))
      | resetInput => exact .inr (.inr (.inr (.inl ⟨rest, h2, by simpa [busyTurn, eq_comm] using h⟩)))

end Sys2Proof.Machine
end

