-- ==== Sys2Proof/Tests/Slice0.lean ====
section
/-! SUPPORT. Tests: the checks of WellFormed on ill-formed words, one decoded word per command, one or two vectors of
95_test_vectors per command, and for every statement with hypotheses a state that meets them. -/

namespace Sys2Proof.Tests

open Sys2Proof Sys2Proof.Machine

set_option Elab.async false

/-! ### Helpers -/

/-- The next state of an outcome, `s` where there is none. -/
def nextOr (s : State) (o : Host.Outcome State Fault Refusal) : State :=
  match o with
  | .next t => t
  | .fault _ => s
  | .refused _ => s

/-- Run one command word. -/
def run (w : Nat) (s : State) : State := nextOr s (step (s.withFetchWord 32 w))

/-- A buffer holding bytes from its byte 0 up, its length register set. -/
def load (b : Buffer) (bs : List Nat) (s : State) : State :=
  let t := s.fillBuf b (bs.map (BitVec.ofNat 8))
  match b with
  | .raw => t.setRawLen bs.length
  | .pay => t.setPayLen bs.length
  | .frm => t.setFrmLen bs.length

/-- FLIST[0..] holding the pairs (symbol, count), FLIST_LEN set. -/
def list (es : List (Nat × Nat)) (s : State) : State :=
  s.setFlist (overwriteFirst s.flist (es.map fun p => ⟨BitVec.ofNat 8 p.1, BitVec.ofNat 32 p.2⟩)) es.length

/-- The operands of PQ_INSERT, then the command. -/
def insert (w p : Nat) (s : State) : State := run 0x21 { s with opa := BitVec.ofNat 32 w, opb := BitVec.ofNat 32 p }

def bytes (b : Buffer) (n : Nat) (s : State) : List Nat := (s.bufBytes b 0 n).map BitVec.toNat

/-- The raw block "aaaab" (95_test_vectors). -/
def aaaab : List Nat := [0x61, 0x61, 0x61, 0x61, 0x62]

/-- The frame of "aaaab" (98_reader W1, 95_test_vectors EN-1). -/
def aaaabFrame : List Nat :=
  [0x02, 0x00, 0x61, 0x04, 0x00, 0x00, 0x00, 0x62, 0x01, 0x00, 0x00, 0x00, 0x05, 0x00, 0x00, 0x00, 0x01, 0x00, 0x00,
    0x00, 0x0F]

/-- The tree of ('a', 4), ('b', 1). -/
def treeAB : State := run 0x30 (list [(0x61, 4), (0x62, 1)] State.reset)

/-- Its dictionary. -/
def dictAB : State := run 0x40 treeAB

/-! ### Command words: well-formedness and decoding (30_encoding R80 to R82) -/

/-- A word with a reserved bit set is ill formed (CT-3: 0x00000110). -/
theorem test_reserved_bit_refused : commandWordWf 0x00000110 = false ∧ reservedClear 0x80000000 = false := by decide

/-- A word with an unknown OPCODE is ill formed (CT-3: 0x00000002, 0x000000FF). -/
theorem test_opcode_refused : commandWordWf 0x000000FF = false ∧ opcodeKnown 0x00000002 = false := by decide

theorem test_legal_words_wf : ∀ o ∈ opcodes, commandWordWf (o.setWidth 32) = true := by decide

/-- Control commands: OPCODE 0000_0000 and 0000_0001 under 24 zero bits (R81). -/
theorem test_decode_control :
    decode 0b00000000000000000000000000000000 = .ok .nop ∧ decode 0b00000000000000000000000000000001 = .ok .reset := by
  decide

/-- The frequency analyzer and the priority queue (R81). -/
theorem test_decode_fa_pq :
    decode 0b00000000000000000000000000010000 = .ok .faRun ∧ decode 0b00000000000000000000000000100000 = .ok .pqClear
      ∧ decode 0b00000000000000000000000000100001 = .ok .pqInsert
      ∧ decode 0b00000000000000000000000000100010 = .ok .pqExtract := by
  decide

/-- The tree builder and the dictionary (R81). -/
theorem test_decode_tb_db :
    decode 0b00000000000000000000000000110000 = .ok .tbRun ∧ decode 0b00000000000000000000000001000000 = .ok .dbRun
      ∧ decode 0b00000000000000000000000001000001 = .ok .dictLookup := by
  decide

/-- The packer, the unpacker and the block codec (R81). -/
theorem test_decode_codec :
    decode 0b00000000000000000000000001010000 = .ok .pkRun ∧ decode 0b00000000000000000000000001100000 = .ok .upRun
      ∧ decode 0b00000000000000000000000001110000 = .ok .encodeBlock
      ∧ decode 0b00000000000000000000000001110001 = .ok .decodeFrame := by
  decide

/-- The table's own numbering: bits above `nbits` are 0. -/
theorem test_table_word : decodeTableWord 32 0x70 = some .encodeBlock ∧ decodeTableWord 8 0x171 = some .decodeFrame
    ∧ decodeTableWord 32 0x110 = none := by decide

/-! ### Commands, on vectors of 95_test_vectors -/

/-- CT-1: NOP after an underflow keeps ANY_ERR and reads 0x0000000A. -/
theorem test_nop : (run 0x00 (run 0x22 State.reset)).statusWord = 0x0000000A := by decide +kernel

/-- CT-4: RESET clears ANY_ERR and reads 0x00010002. -/
theorem test_reset : (run 0x01 (run 0x22 State.reset)).statusWord = 0x00010002 := by decide +kernel

/-- CT-3: the illegal word 0x110 reads 0x0010010E: LAST_OP is the word's low byte. -/
theorem test_illegal : (run 0x110 State.reset).statusWord = 0x0010010E := by decide +kernel

/-- FA-1: the list of "aaaab" starts with ('a', 4), ('b', 1) and then symbols 0 and 1 with count 0. -/
theorem test_fa_run :
    ((run 0x10 (load .raw aaaab State.reset)).entries 4).map (fun e => (e.sym.toNat, e.count.toNat))
      = [(0x61, 4), (0x62, 1), (0x00, 0), (0x01, 0)] := by
  decide +kernel

/-- FA-1: STATUS reads 0x00100002 and FLIST_LEN is 2. -/
theorem test_fa_run_status :
    (run 0x10 (load .raw aaaab State.reset)).statusWord = 0x00100002
      ∧ (run 0x10 (load .raw aaaab State.reset)).flistLen = 2 := by
  decide +kernel

/-- PQ-6: the payload is OPB[15:0]. -/
theorem test_pq_insert : (insert 5 0xABCD0007 State.reset).pq = [⟨5, 0, 7⟩] := by decide +kernel

/-- PQ-5: PQ_CLEAR empties the queue and resets the serial counter. -/
theorem test_pq_clear :
    (run 0x20 (insert 5 1 State.reset)).pq = [] ∧ (run 0x20 (insert 5 1 State.reset)).pqSerial = 0 := by
  decide +kernel

/-- PQ-1: of (5, A), (7, B), (7, D) the first extracted is (7, B, serial 1). -/
theorem test_pq_extract :
    let s := run 0x22 (insert 7 0xD (insert 7 0xB (insert 5 0xA State.reset)))
    s.res0 = 7 ∧ s.res1 = 0xB ∧ s.res2 = 1 := by
  decide +kernel

/-- PQ-2: the weight is signed: 0 is above 0x80000000. -/
theorem test_pq_signed : (run 0x22 (insert 0 3 (insert 0x80000000 1 State.reset))).res0 = 0 := by decide +kernel

/-- TB-1: 'b', the rarer symbol, is the zero-child; TREE_INFO reads 0x00030002. -/
theorem test_tb_run :
    [treeAB.treeWord 0, treeAB.treeWord 1, treeAB.treeWord 2] = [0x80000061, 0x80000062, 0x00000001]
      ∧ treeAB.treeInfoWord = 0x00030002 := by
  decide +kernel

/-- TB-2: with equal counts the first of the list is the zero-child. -/
theorem test_tb_run_tie : (run 0x30 (list [(0x61, 1), (0x62, 1)] State.reset)).treeWord 2 = 0x00010000 := by
  decide +kernel

/-- TB-4: the four merges of "abracadabra", nodes 5 to 8. -/
theorem test_tb_run_merges :
    let s := run 0x30 (list [(0x61, 5), (0x62, 2), (0x72, 2), (0x63, 1), (0x64, 1)] State.reset)
    [s.treeWord 5, s.treeWord 6, s.treeWord 7, s.treeWord 8] = [0x00040003, 0x00020001, 0x00060005, 0x00070000] := by
  decide +kernel

/-- DB-1: 'a' has code 1 and 'b' code 0, both of width 1. -/
theorem test_db_run : dictAt dictAB.dict 0x61 = ⟨1, 1, true⟩ ∧ dictAt dictAB.dict 0x62 = ⟨0, 1, true⟩ := by
  decide +kernel

/-- R157: of two leaves of 'a' the one-child, visited last, gives the code. -/
theorem test_db_run_repeated :
    dictAt (run 0x40 (run 0x30 (list [(0x61, 1), (0x61, 1)] State.reset))).dict 0x61 = ⟨1, 1, true⟩ := by
  decide +kernel

/-- DB-8: without a tree STATUS reads 0x0040050E. -/
theorem test_db_run_no_tree : (run 0x40 State.reset).statusWord = 0x0040050E := by decide +kernel

/-- LK-1 for 'a' of DB-1: OPA[31:8] is ignored, RES2 has the present bit at bit 8. -/
theorem test_dict_lookup :
    let s := run 0x41 { dictAB with opa := 0xFFFFFF61 }
    s.res0 = 1 ∧ s.res1 = 0 ∧ s.res2 = 0x101 := by
  decide +kernel

/-- PK-1: "aaaab" packs to the one byte 0x0F. -/
theorem test_pk_run :
    bytes .pay 1 (run 0x50 (load .raw aaaab dictAB)) = [0x0F] ∧ (run 0x50 (load .raw aaaab dictAB)).payLen = 1 := by
  decide +kernel

/-- PK-8: without a dictionary STATUS reads 0x0050060E. -/
theorem test_pk_run_no_dict : (run 0x50 State.reset).statusWord = 0x0050060E := by decide +kernel

/-- UP-1: the byte 0x0F decodes to "aaaab". -/
theorem test_up_run :
    bytes .raw 5 (run 0x60 { load .pay [0x0F] (list [(0x61, 4), (0x62, 1)] State.reset) with rawLen := 5 }) = aaaab := by
  decide +kernel

/-- UP-5: an empty payload is exhausted; the tree was built, so STATUS reads 0x0060141E. -/
theorem test_up_run_exhausted :
    (run 0x60 { list [(0x61, 4), (0x62, 1)] State.reset with rawLen := 5 }).statusWord = 0x0060141E := by
  decide +kernel

/-- EN-1: the frame of "aaaab". -/
theorem test_encode : bytes .frm 21 (run 0x70 (load .raw aaaab State.reset)) = aaaabFrame := by decide +kernel

/-- EN-7: a block of one symbol is framed raw. -/
theorem test_encode_single :
    bytes .frm 10 (run 0x70 (load .raw [0x7A, 0x7A, 0x7A, 0x7A] State.reset))
      = [0x00, 0x00, 0x04, 0x00, 0x00, 0x00, 0x7A, 0x7A, 0x7A, 0x7A] := by
  decide +kernel

/-- DE-1: the frame of "aaaab" decodes to it, FRM_USED is 21 and STATUS reads 0x00714012. -/
theorem test_decode_frame :
    let s := run 0x71 (load .frm aaaabFrame State.reset)
    bytes .raw 5 s = aaaab ∧ s.frmUsed = 21 ∧ s.statusWord = 0x00714012 := by
  decide +kernel

/-- DE-14: one payload byte short is FMT_TRUNCATED, the list already loaded. -/
theorem test_decode_truncated :
    let s := run 0x71 (load .frm (aaaabFrame.take 20) State.reset)
    s.statusWord = 0x0071100E ∧ s.flistLen = 2 := by
  decide +kernel

/-! ### States that meet the statements' hypotheses -/

/-- An idle block whose next turn is an access. -/
def withAccess (x : HostAccess) : State := { State.reset with host := [.access x] }

/-- IllegalWordOnlyRaisesError: a reserved bit at either end, and an unknown OPCODE. -/
theorem witness_illegal_word :
    (0x00000100 : Word).extractLsb' 8 24 ≠ 0 ∧ (0x80000000 : Word).extractLsb' 8 24 ≠ 0
      ∧ (0x00000072 : Word).setWidth 8 ∉ opcodes := by
  decide

/-- DecodeSelectsTheTable, its second clause. -/
theorem witness_wf : Instr.nop.wf = true ∧ Instr.decodeFrame.wf = true := by decide

/-- TableWordForms: a leaf and an internal node. -/
theorem witness_table_words : treeAB.tree[0] = .leaf 0x61 ∧ treeAB.tree[2] = .internal 1 0 := by decide +kernel

/-- ResetCommandClears, its second clause: the step goes on. -/
theorem witness_reset_command :
    goesOn (step { treeAB with eng := .busy 0x00000001 0, done := false, err := false, code := .ok, lastOp := 0x01 })
      = true := by
  decide +kernel

/-- StepRunsTheDecodedCommand: with an empty queue, and with turns run out. -/
theorem witness_step :
    (let s := { State.reset with eng := .busy 0x20 3 };
      s.eng = .busy 0x20 3 ∧ s.host = [] ∧ decode 0x20 = .ok .pqClear)
    ∧ (let s := { State.reset with eng := .busy 0x20 0, host := [.wait] };
      s.eng = .busy 0x20 0 ∧ s.host ≠ [] ∧ decode 0x20 = .ok .pqClear) := by
  decide

/-- CmdWriteStartsCommand. -/
theorem witness_cmd_write :
    (withAccess (.wr32 0x000004 0x70)).eng = .idle
      ∧ (withAccess (.wr32 0x000004 0x70)).host = [.access (.wr32 0x000004 0x70)] := by
  decide

/-- BusyRefusesAllButStatusReads: the two clauses. -/
theorem witness_busy (x : HostAccess) :
    let s := { withAccess x with eng := .busy 0x70 1 }
    s.eng = .busy 0x70 (0 + 1) ∧ s.host = [.access x] ∧ s.done = false := ⟨rfl, rfl, rfl⟩

/-- AnyErrIsSticky: the two ways out. -/
theorem witness_any_err :
    (let s := { State.reset with eng := .busy (encode .reset) 0, anyErr := true };
      goesOn (step s) = true ∧ s.anyErr = true ∧ (nextOr s (step s)).anyErr = false)
    ∧ (let s := { State.reset with host := [.resetInput], anyErr := true };
      goesOn (step s) = true ∧ s.anyErr = true ∧ (nextOr s (step s)).anyErr = false) := by
  decide +kernel

/-- ResetInputResets: idle, and busy with any word. -/
theorem witness_reset_input :
    ({ State.reset with host := [.resetInput] } : State).eng = .idle
      ∧ ∀ w : Word, ({ State.reset with host := [.resetInput], eng := .busy w 1 } : State).eng = .busy w (0 + 1) :=
  ⟨rfl, fun _ => rfl⟩

/-- ResetInputResets, its last clause: an abandoned PK_RUN that would end in ERR_NO_DICT, and one that would write the
one byte of PK-1. -/
theorem witness_reset_input_runs :
    (let s := { State.reset with host := [.resetInput], eng := .busy 0x50 1 };
      s.eng = .busy 0x50 (0 + 1) ∧ decode 0x50 = .ok .pkRun ∧ goesOn (exec .pkRun s) = true
        ∧ (nextOr s (exec .pkRun s)).err = true ∧ (nextOr s (exec .pkRun s)).code ≠ .fmtExhausted)
    ∧ (let s := { load .raw aaaab dictAB with host := [.resetInput], eng := .busy 0x50 1 };
      s.eng = .busy 0x50 (0 + 1) ∧ goesOn (exec .pkRun s) = true ∧ payBytesWritten .pkRun s = 1
        ∧ rawBytesWritten .pkRun s = 0 ∧ frmBytesWritten .pkRun s = 0) := by
  decide +kernel

/-- R260: an abandoned PK_RUN that would end in ERR_NO_DICT loses no byte of PAY. -/
theorem test_reset_input_keeps_pay :
    let s := { load .pay [0x5A] State.reset with host := [.resetInput], eng := .busy 0x50 1 }
    goesOn (step s) = true ∧ (nextOr s (step s)).bufByte .pay 0 = 0x5A ∧ (nextOr s (step s)).payLen = 0 := by
  decide +kernel

/-- UnmappedReadsZeroIgnoresWrites: the addresses next to each window, and aligned words outside. -/
theorem witness_unmapped :
    (∀ a ∈ [0x000100, 0x00FFFF, 0x030000, 0x03FFFF, 0x05050A, 0x05FFFF, 0x060400, 0x060FFF, 0x061800, 0x061FFF, 0x062800,
        0x063FFF, 0x0647FC, 0xFFFFFF], ¬ mapped a)
      ∧ ∀ a ∈ [0x000100, 0x05050C, 0x0647FC, 0xFFFFFC], a % 4 = 0 ∧ ∀ k < 4, ¬ mapped (a + k) := by
  unfold mapped; decide

/-- BufferByteWriteReadsBack: the ends of each buffer. -/
theorem witness_buffer_byte :
    ∀ a ∈ [0x010000, 0x01FFFF, 0x020000, 0x02FFFF, 0x040000, 0x050509], bufferAddress a := by decide

/-- BufferByteWriteReadsBack, its byte reads: an idle block that reads a byte, and the ends of the addresses meant. -/
theorem witness_byte_read (a : Addr) :
    (withAccess (.rd8 a)).eng = .idle ∧ (withAccess (.rd8 a)).host = .access (.rd8 a) :: [] := ⟨rfl, rfl⟩
theorem witness_byte_read_ends :
    0x100 ≤ (0x000100 : Addr).toNat ∧ (0x000100 : Addr).toNat % 4 = 0 ∧ (0x0647F8 : Addr).toNat % 4 = 0
      ∧ 0x100 ≤ (0xFFFFFC : Addr).toNat ∧ (0xFFFFFC : Addr).toNat % 4 = 0 := by
  decide

/-- R61, R65: RAW[0] at 0x010000, PAY[0] at 0x020000, FRM[0] at 0x040000, and byte 3 of DICT[0x61]'s word 1, 0x81000000 after
DB-1, at 0x06230F. -/
theorem test_byte_reads :
    let s := load .raw [0x11] (load .pay [0x22] (load .frm [0x33] dictAB))
    ∀ p ∈ [(0x010000, 0x11), (0x020000, 0x22), (0x040000, 0x33), (0x06230F, 0x81)],
      (nextOr s (step { s with host := [.access (.rd8 (BitVec.ofNat 24 p.1))] })).reads
        = [.byte (BitVec.ofNat 8 p.2)] := by
  decide +kernel

/-- WordAccessIsFourBytes: the first word past the register window, one that straddles the end of FRM, and the first
symbol and the last count of FLIST. -/
theorem witness_word :
    (0x000100 : Addr).toNat % 4 = 0 ∧ 0x100 ≤ (0x000100 : Addr).toNat ∧ (0x050508 : Addr).toNat % 4 = 0
      ∧ bufferAddress ((0x050508 : Addr).toNat + 1) ∧ ¬ bufferAddress ((0x050508 : Addr).toNat + 2)
      ∧ (0x061000 : Addr).toNat % 4 = 0 ∧ (0x061000 : Addr).toNat = 0x061000 + 8 * 0
      ∧ (0x0617FC : Addr).toNat % 4 = 0 ∧ (0x0617FC : Addr).toNat = 0x061000 + 8 * 255 + 4 := by
  decide

/-- R69: a word written to an entry's offset 0 sets its symbol from bits 7:0, one written to offset 4 its count. -/
theorem test_flist_word_write :
    let s := withAccess (.wr32 0x061008 0x12345678)
    let t := withAccess (.wr32 0x06100C 0x12345678)
    ((nextOr s (step s)).flist[1]).sym = 0x78 ∧ ((nextOr s (step s)).flist[1]).count = 0
      ∧ ((nextOr t (step t)).flist[1]).sym = 0 ∧ ((nextOr t (step t)).flist[1]).count = 0x12345678 := by
  decide +kernel

/-- MisfitAccessesAreRefused: the last register byte, and words off by 1 to 3. -/
theorem witness_misfit :
    (0x0000FF : Addr).toNat ≤ 0xFF ∧ (0x000001 : Addr).toNat % 4 ≠ 0 ∧ (0x010002 : Addr).toNat % 4 ≠ 0
      ∧ (0xFFFFFF : Addr).toNat % 4 ≠ 0 := by
  decide

/-- ReadOnlyIgnoresWrites and HostRegistersReadBack: an idle block, for every address and word. -/
theorem witness_register_write (a : Addr) (w : Word) :
    (withAccess (.wr32 a w)).eng = .idle ∧ (withAccess (.wr32 a w)).host = .access (.wr32 a w) :: [] := ⟨rfl, rfl⟩

/-- HostRegistersReadBack: an idle block that reads, for every address. -/
theorem witness_register_read (a : Addr) :
    (withAccess (.rd32 a)).eng = .idle ∧ (withAccess (.rd32 a)).host = .access (.rd32 a) :: [] := ⟨rfl, rfl⟩

/-- HostRegistersReadBack: the ends of the reserved offsets. -/
theorem witness_reserved_offsets :
    0x040 ≤ (0x000040 : Addr).toNat ∧ (0x000040 : Addr).toNat % 4 = 0 ∧ (0x0000FC : Addr).toNat ≤ 0x0FF
      ∧ (0x0000FC : Addr).toNat % 4 = 0 := by
  decide

/-- R32, TB-1: TREE_INFO reads 0x00030002 after the tree of two symbols. -/
theorem test_tree_info_read :
    let s := { treeAB with host := [.access (.rd32 0x00003C)] }
    (nextOr s (step s)).reads = [.word 0x00030002] := by
  decide +kernel

/-- ReadOnlyIgnoresWrites: the ends of the three windows; a word whose first byte lies in DICT's last entry. -/
theorem witness_read_only :
    (∀ a ∈ [0x060000, 0x0603FF], 0x060000 ≤ (BitVec.ofNat 24 a).toNat ∧ (BitVec.ofNat 24 a).toNat ≤ 0x0603FF)
      ∧ (∀ a ∈ [0x062000, 0x0627FC, 0x0627FF],
          0x062000 ≤ (BitVec.ofNat 24 a).toNat ∧ (BitVec.ofNat 24 a).toNat ≤ 0x0627FF)
      ∧ (∀ a ∈ [0x064000, 0x0647F8, 0x0647FB],
          0x064000 ≤ (BitVec.ofNat 24 a).toNat ∧ (BitVec.ofNat 24 a).toNat ≤ 0x0647FB)
      ∧ 0x0627FC % 4 = 0 ∧ 0x0647F8 % 4 = 0 := by
  decide

/-- FlistByteWrites: the first and the last byte of the window. -/
theorem witness_flist_byte :
    (withAccess (.wr8 (BitVec.ofNat 24 (0x061000 + 8 * 0 + 0)) 1)).host = [.access (.wr8 0x061000 1)]
      ∧ (withAccess (.wr8 (BitVec.ofNat 24 (0x061000 + 8 * 255 + 7)) 1)).host = [.access (.wr8 0x0617FF 1)] := by
  decide

/-- A queue of `n` entries. -/
def queueOf (n : Nat) : State :=
  { State.reset with pq := (List.range n).map fun i => ⟨0, BitVec.ofNat 32 i, 0⟩, pqSerial := BitVec.ofNat 32 n }

/-- PqInsertFollowsItsRule: 255 entries, 256, and the last serial. -/
theorem witness_pq_insert :
    ((queueOf 255).pq.length < 256 ∧ (queueOf 255).pqSerial ≠ 0xFFFFFFFF) ∧ (queueOf 256).pq.length = 256
      ∧ (let s := { State.reset with pqSerial := 0xFFFFFFFF };
        s.pq.length < 256 ∧ s.pqSerial = 0xFFFFFFFF) := by
  decide +kernel

/-- PqExtractTakesGreatest: two entries, and none. -/
theorem witness_pq_extract : (queueOf 2).QueueWf ∧ (queueOf 2).pq ≠ [] ∧ State.reset.pq = [] := by
  unfold State.QueueWf; decide +kernel

/-- BlockLengthErrors, FaRunCountsAndSorts, EncodeCompletes and every statement about a block of legal length: both sides of the bound. -/
theorem witness_block_length :
    65536 < ({ State.reset with rawLen := 65537 } : State).rawLen.toNat
      ∧ ({ State.reset with rawLen := 65536 } : State).rawLen.toNat ≤ 65536 ∧ State.reset.rawLen.toNat ≤ 65536 := by
  decide

/-- FaRunListLaws. -/
theorem witness_fa_run : State.reset.rawLen.toNat ≤ 65536 ∧ ∃ t, exec .faRun State.reset = .next t :=
  ⟨by decide, _, rfl⟩

/-- TbRunErrors: an empty list, one of 257, and a sum of 65537. -/
theorem witness_tb_run_errors :
    State.reset.flistLen.toNat = 0 ∧ 256 < ({ State.reset with flistLen := 257 } : State).flistLen.toNat
      ∧ (let s := list [(1, 65536), (2, 1)] State.reset;
        s.flistLen.toNat ≠ 0 ∧ 65536 < s.countSum s.flistLen.toNat) := by
  decide +kernel

/-- TbRunBuildsOneTree: one entry, and 256 entries with the largest sum. -/
theorem witness_tb_run :
    (let s := list [(0x7A, 4)] State.reset;
      1 ≤ s.flistLen.toNat ∧ s.flistLen.toNat ≤ 256 ∧ s.countSum s.flistLen.toNat ≤ 65536)
    ∧ (let s := list ((List.range 256).map fun i => (i, 256)) State.reset;
      1 ≤ s.flistLen.toNat ∧ s.flistLen.toNat ≤ 256 ∧ s.countSum s.flistLen.toNat ≤ 65536) := by
  decide +kernel

/-- LowerCountIsZeroChild: counts falling, equal and rising. -/
theorem witness_two_entries :
    ∀ es ∈ [[(0x61, 4), (0x62, 1)], [(0x61, 1), (0x62, 1)], [(0x61, 1), (0x62, 65535)]],
      (list es State.reset).flistLen = 2 ∧ (list es State.reset).countSum 2 ≤ 65536
        ∧ goesOn (exec .tbRun (list es State.reset)) = true := by
  decide +kernel

/-- MergeTakesTwoGreatest: the builder after two leaves, and at the last free node. -/
theorem witness_merge :
    (let b : Builder := ⟨[⟨-1, 0, 0⟩, ⟨-1, 1, 1⟩], 2, State.reset.tree, 2⟩;
      1 < b.queue.length ∧ b.next < 511 ∧ b.queue.Pairwise (fun e f => e.serial ≠ f.serial))
    ∧ (let b : Builder := ⟨[⟨-1, 508, 508⟩, ⟨-1, 509, 509⟩], 510, State.reset.tree, 510⟩;
      1 < b.queue.length ∧ b.next < 511 ∧ b.queue.Pairwise (fun e f => e.serial ≠ f.serial)) := by
  decide +kernel

/-- TreeDependsOnListAlone: two states with the same list and different trees. -/
theorem witness_same_list :
    let s := list [(0x61, 1), (0x62, 1)] State.reset
    let s' := list [(0x61, 1), (0x62, 1)] treeAB
    s'.treeWord 2 ≠ s.treeWord 2 ∧ s'.flistLen = s.flistLen ∧ s'.entries s.flistLen.toNat = s.entries s.flistLen.toNat
      ∧ s.countSum s.flistLen.toNat ≤ 65536 ∧ goesOn (exec .tbRun s) = true ∧ goesOn (exec .tbRun s') = true := by
  decide +kernel

/-- DbRunRecordsPaths and MissingTreeOrDictionary; a store whose root is its own child overflows. -/
theorem witness_db_run :
    treeAB.treeValid = true ∧ State.reset.treeValid = false
      ∧ (let s := { State.reset with treeValid := true };
        s.treeValid = true ∧ (nextOr s (exec .dbRun s)).code = .dictOverflow) := by
  decide +kernel

/-- CodesDoNotBeginEachOther: two symbols present. -/
theorem witness_codes :
    goesOn (exec .dbRun treeAB) = true ∧ (nextOr treeAB (exec .dbRun treeAB)).code = .ok
      ∧ (dictAt (nextOr treeAB (exec .dbRun treeAB)).dict 0x61).present = true
      ∧ (dictAt (nextOr treeAB (exec .dbRun treeAB)).dict 0x62).present = true := by
  decide +kernel

/-- A dictionary in which every symbol has width 56: a block of 65536 bytes needs 458752. -/
def wideDict : State :=
  { State.reset with dict := Vector.replicate 256 ⟨0, 56, true⟩, dictValid := true, rawLen := 65536 }

theorem wideDict_entry (sym : Byte) : dictAt wideDict.dict sym = ⟨0, 56, true⟩ := by simp [wideDict, dictAt]

/-- PkRunOverflowsAtCapacity. -/
theorem witness_pk_overflow :
    wideDict.rawLen.toNat ≤ 65536 ∧ wideDict.dictValid = true ∧ wideDict.DictWf
      ∧ 65536 ≤ ((streamBits wideDict.dict wideDict.block).length + 7) / 8 := by
  refine ⟨by decide, rfl, fun sym => ?_, ?_⟩
  · rw [wideDict_entry]
    unfold DictEntry.Wf
    decide
  · have h : wideDict.block.length = 65536 := State.length_bufBytes ..
    simp only [length_streamBits, wideDict_entry]
    rw [List.map_const', h, List.sum_replicate]
    decide

/-- PkRunPacksTheStream: an empty block, and "aaaab". -/
theorem witness_pk_run :
    (let s := dictAB;
      s.rawLen.toNat ≤ 65536 ∧ s.dictValid = true ∧ ((streamBits s.dict s.block).length + 7) / 8 < 65536)
    ∧ (let s := load .raw aaaab dictAB;
      s.rawLen.toNat ≤ 65536 ∧ s.dictValid = true ∧ ((streamBits s.dict s.block).length + 7) / 8 < 65536) := by
  decide +kernel

theorem witness_dict_wf : dictAB.DictWf := by
  have h : ∀ i : Fin 256, (dictAt dictAB.dict (BitVec.ofFin i)).Wf := by
    unfold DictEntry.Wf; decide +kernel
  exact fun sym => h sym.toFin

/-- MissingTreeOrDictionary. -/
theorem witness_pk_run_no_dict : State.reset.rawLen.toNat ≤ 65536 ∧ State.reset.dictValid = false := by decide

/-- UpRunErrors, clause by clause at its bounds. -/
theorem witness_up_run_errors :
    State.reset.flistLen.toNat = 0 ∧ 256 < ({ State.reset with flistLen := 257 } : State).flistLen.toNat
      ∧ (let s := { list [(1, 1)] State.reset with rawLen := 65537 };
        1 ≤ s.flistLen.toNat ∧ s.flistLen.toNat ≤ 256 ∧ 65536 < s.rawLen.toNat)
      ∧ (let s := { list [(1, 1)] State.reset with payLen := 65537 };
        1 ≤ s.flistLen.toNat ∧ s.flistLen.toNat ≤ 256 ∧ 65536 < s.payLen.toNat)
      ∧ (let s := { list [(1, 65536)] State.reset with rawLen := 65535, payLen := 65536 };
        1 ≤ s.flistLen.toNat ∧ s.flistLen.toNat ≤ 256 ∧ s.rawLen.toNat ≤ 65536 ∧ s.payLen.toNat ≤ 65536
          ∧ s.countSum s.flistLen.toNat ≠ s.rawLen.toNat) := by
  decide +kernel

/-- The list and payload of "aaaab", its length declared. -/
def upAB : State := { load .pay [0x0F] (list [(0x61, 4), (0x62, 1)] State.reset) with rawLen := 5 }

/-- UpRunDecodesCodes: its premises. -/
theorem witness_up_run :
    1 ≤ upAB.flistLen.toNat ∧ upAB.flistLen.toNat ≤ 256 ∧ upAB.rawLen.toNat ≤ 65536 ∧ upAB.payLen.toNat ≤ 65536
      ∧ upAB.countSum upAB.flistLen.toNat = upAB.rawLen.toNat := by
  decide +kernel

/-- UpRunDecodesCodes: its premises where the payload runs out after eight codes, and where it is empty. -/
theorem witness_up_run_exhausted :
    ∀ s ∈ [{ list [(0x61, 8), (0x62, 1)] State.reset with rawLen := 9, payLen := 1 },
        { list [(0x61, 4), (0x62, 1)] State.reset with rawLen := 5 }],
      1 ≤ s.flistLen.toNat ∧ s.flistLen.toNat ≤ 256 ∧ s.rawLen.toNat ≤ 65536 ∧ s.payLen.toNat ≤ 65536
        ∧ s.countSum s.flistLen.toNat = s.rawLen.toNat := by
  decide +kernel

/-- UP-6: of nine symbols the one payload byte yields eight, and the ninth byte of RAW is kept. -/
theorem test_up_run_keeps_rest :
    let s := run 0x60 { load .pay [0x0F]
      ((list [(0x61, 8), (0x62, 1)] State.reset).fillBuf .raw (List.replicate 9 0xEE)) with rawLen := 9 }
    s.code = .fmtExhausted ∧ bytes .raw 9 s = [0x61, 0x61, 0x61, 0x61, 0x62, 0x62, 0x62, 0x62, 0xEE] := by
  decide +kernel

/-- The code of 'a' is 1 and that of 'b' is 0 (DB-1). -/
def codeAB (b : Byte) : List Bool := if b = 0x61 then [true] else [false]

/-- UpRunDecodesCodes: the premises of its last clause, the tree being the one UP_RUN leaves. -/
theorem witness_up_run_codes :
    (isCodeOf (run 0x60 upAB).tree (run 0x60 upAB).treeRoot (codeAB 0x61) 0x61
      ∧ isCodeOf (run 0x60 upAB).tree (run 0x60 upAB).treeRoot (codeAB 0x62) 0x62)
    ∧ payloadBits (upAB.bufBytes .pay 0 upAB.payLen.toNat)
      = ([0x61, 0x61, 0x61, 0x61, 0x62] : List Byte).flatMap codeAB ++ [false, false, false] := by
  refine ⟨⟨⟨0, ?_⟩, ⟨1, ?_⟩⟩, ?_⟩ <;> decide +kernel

/-- UpRunSingleEntry: four times 'z', and none. -/
theorem witness_single_entry :
    (let s := { list [(0x7A, 4)] State.reset with rawLen := 4 };
      s.flistLen = 1 ∧ s.rawLen.toNat ≤ 65536 ∧ s.payLen.toNat ≤ 65536 ∧ (s.flist[0]).count.toNat = s.rawLen.toNat)
    ∧ (let s := list [(0x7A, 0)] State.reset;
      s.flistLen = 1 ∧ s.rawLen.toNat ≤ 65536 ∧ s.payLen.toNat ≤ 65536
        ∧ (s.flist[0]).count.toNat = s.rawLen.toNat) := by
  decide +kernel

/-- The units' state after each of FA_RUN, TB_RUN, DB_RUN and PK_RUN on "aaaab". -/
def unitsStart : State := load .raw aaaab State.reset
def unitsA : State := nextOr unitsStart (exec .faRun unitsStart)
def unitsB : State := nextOr unitsA (exec .tbRun unitsA)
def unitsC : State := nextOr unitsB (exec .dbRun unitsB)
def unitsD : State := nextOr unitsC (exec .pkRun unitsC)

/-- The same with another byte at the start of RAW, which UP_RUN overwrites. -/
def unitsE : State := { unitsD with mem := (unitsD.fillBuf .raw [0xEE]).mem }

/-- UnitsRoundTrip. -/
theorem witness_units :
    (unitsStart.rawLen ≠ 0 ∧ unitsStart.rawLen.toNat ≤ 65536)
      ∧ goesOn (exec .faRun unitsStart) = true ∧ goesOn (exec .tbRun unitsA) = true
      ∧ goesOn (exec .dbRun unitsB) = true ∧ goesOn (exec .pkRun unitsC) = true
      ∧ unitsC.code = .ok ∧ unitsD.code = .ok ∧ unitsE.bufByte .raw 0 ≠ unitsD.bufByte .raw 0
      ∧ ∀ k < unitsD.payLen.toNat, unitsE.bufByte .pay k = unitsD.bufByte .pay k := by
  decide +kernel

/-- EncodeRawFrames and EncodeCodedFrame: an empty block, one symbol, two symbols. -/
theorem witness_encode :
    (nextOr State.reset (exec .encodeBlock State.reset)).code = .encRawEmpty
      ∧ (nextOr State.reset (exec .encodeBlock (load .raw [0x7A] State.reset))).code = .encRawSingle
      ∧ (nextOr State.reset (exec .encodeBlock (load .raw aaaab State.reset))).code = .encCoded := by
  decide +kernel

/-- EncodeRawFrames, its last clause: a block of two symbols. -/
theorem witness_encode_two :
    ¬ (∀ k < (load .raw aaaab State.reset).rawLen.toNat,
        (load .raw aaaab State.reset).bufByte .raw k = (load .raw aaaab State.reset).bufByte .raw 0) := by
  decide +kernel

/-- EncodeDependsOnBlockAlone: the same block, and a tree in one state. -/
theorem witness_same_block :
    let s := load .raw aaaab State.reset
    let s' := load .raw aaaab treeAB
    s.rawLen.toNat ≤ 65536 ∧ s'.rawLen = s.rawLen ∧ s'.block = s.block ∧ s'.treeValid ≠ s.treeValid := by
  decide +kernel

/-- A frame of these bytes. -/
def frameOf (bs : List Nat) : State := load .frm bs State.reset

/-- DecodeHeaderErrors: each of its seven clauses at its bounds. -/
theorem witness_decode_header :
    66826 < ({ State.reset with frmLen := 66827 } : State).frmLen.toNat
      ∧ (frameOf [2]).frmLen.toNat < 2
      ∧ (let s := frameOf [0, 0];
        2 ≤ s.frmLen.toNat ∧ s.frmLen.toNat ≤ 66826 ∧ s.bufLe16 .frm 0 = 0 ∧ s.frmLen.toNat < 6)
      ∧ (let s := frameOf [0, 0, 1, 0, 1, 0];
        6 ≤ s.frmLen.toNat ∧ s.frmLen.toNat ≤ 66826 ∧ s.bufLe16 .frm 0 = 0 ∧ 65536 < (s.bufLe32 .frm 2).toNat)
      ∧ (let s := frameOf [0, 0, 3, 0, 0, 0, 0x41, 0x42];
        6 ≤ s.frmLen.toNat ∧ s.frmLen.toNat ≤ 66826 ∧ s.bufLe16 .frm 0 = 0 ∧ (s.bufLe32 .frm 2).toNat ≤ 65536
          ∧ s.frmLen.toNat < 6 + (s.bufLe32 .frm 2).toNat)
      ∧ (let s := frameOf [1, 1];
        2 ≤ s.frmLen.toNat ∧ s.frmLen.toNat ≤ 66826 ∧ 256 < (s.bufLe16 .frm 0).toNat)
      ∧ (let s := frameOf [0, 1];
        2 ≤ s.frmLen.toNat ∧ s.frmLen.toNat ≤ 66826 ∧ 1 ≤ (s.bufLe16 .frm 0).toNat ∧ (s.bufLe16 .frm 0).toNat ≤ 256
          ∧ s.frmLen.toNat < 10 + 5 * (s.bufLe16 .frm 0).toNat) := by
  decide +kernel

/-- DecodeCodedErrors: L above its bound, P above its bound, one byte short, and a sum that is not L (DE-14, DE-15). -/
theorem witness_decode_coded_errors :
    (let s := frameOf [1, 0, 0x7A, 4, 0, 0, 0, 1, 0, 1, 0, 0, 0, 0, 0];
      (s.bufLe16 .frm 0).toNat = 1 ∧ 10 + 5 * 1 ≤ s.frmLen.toNat ∧ 65536 < (s.bufLe32 .frm (2 + 5 * 1)).toNat)
    ∧ (let s := frameOf [1, 0, 0x7A, 4, 0, 0, 0, 4, 0, 0, 0, 1, 0, 1, 0];
      (s.bufLe16 .frm 0).toNat = 1 ∧ 10 + 5 * 1 ≤ s.frmLen.toNat ∧ 65536 < (s.bufLe32 .frm (6 + 5 * 1)).toNat)
    ∧ (let s := frameOf (aaaabFrame.take 20);
      (s.bufLe16 .frm 0).toNat = 2 ∧ 10 + 5 * 2 ≤ s.frmLen.toNat ∧ (s.bufLe32 .frm (2 + 5 * 2)).toNat ≤ 65536
        ∧ (s.bufLe32 .frm (6 + 5 * 2)).toNat ≤ 65536
        ∧ s.frmLen.toNat < 10 + 5 * 2 + (s.bufLe32 .frm (6 + 5 * 2)).toNat)
    ∧ (let s := frameOf (aaaabFrame.set 12 6);
      (s.bufLe16 .frm 0).toNat = 2 ∧ (s.bufLe32 .frm (2 + 5 * 2)).toNat ≤ 65536
        ∧ 10 + 5 * 2 + (s.bufLe32 .frm (6 + 5 * 2)).toNat ≤ s.frmLen.toNat
        ∧ ((List.range 2).map fun i => (s.bufLe32 .frm (3 + 5 * i)).toNat).sum
          ≠ (s.bufLe32 .frm (2 + 5 * 2)).toNat) := by
  decide +kernel

/-- DecodeRawFrameCopies: an empty frame, and "ABC" (DE-8, DE-9). -/
theorem witness_decode_raw :
    ∀ bs ∈ [[0, 0, 0, 0, 0, 0], [0, 0, 3, 0, 0, 0, 0x41, 0x42, 0x43]],
      (frameOf bs).frmLen.toNat ≤ 66826 ∧ (frameOf bs).bufLe16 .frm 0 = 0
        ∧ ((frameOf bs).bufLe32 .frm 2).toNat ≤ 65536
        ∧ 6 + ((frameOf bs).bufLe32 .frm 2).toNat ≤ (frameOf bs).frmLen.toNat := by
  decide +kernel

/-- DecodeCodedFrameDecodes: its premises, for a frame that decodes and for one that runs out (DE-1, DE-16). -/
theorem witness_decode_coded :
    ∀ bs ∈ [aaaabFrame, (aaaabFrame.set 16 0).take 20],
      (frameOf bs).frmLen.toNat ≤ 66826 ∧ ((frameOf bs).bufLe16 .frm 0).toNat = 2
        ∧ ((frameOf bs).bufLe32 .frm (2 + 5 * 2)).toNat = 5 ∧ ((frameOf bs).bufLe32 .frm (6 + 5 * 2)).toNat ≤ 65536
        ∧ 10 + 5 * 2 + ((frameOf bs).bufLe32 .frm (6 + 5 * 2)).toNat ≤ (frameOf bs).frmLen.toNat
        ∧ ((List.range 2).map fun i => ((frameOf bs).bufLe32 .frm (3 + 5 * i)).toNat).sum = 5 := by
  decide +kernel

/-- DecodeCodedFrameDecodes: the premises of its last clause. -/
theorem witness_decode_coded_codes :
    (isCodeOf (run 0x71 (frameOf aaaabFrame)).tree (run 0x71 (frameOf aaaabFrame)).treeRoot (codeAB 0x61) 0x61
      ∧ isCodeOf (run 0x71 (frameOf aaaabFrame)).tree (run 0x71 (frameOf aaaabFrame)).treeRoot (codeAB 0x62) 0x62)
    ∧ payloadBits ((frameOf aaaabFrame).bufBytes .frm (10 + 5 * 2) 1)
      = ([0x61, 0x61, 0x61, 0x61, 0x62] : List Byte).flatMap codeAB ++ [false, false, false] := by
  refine ⟨⟨⟨0, ?_⟩, ⟨1, ?_⟩⟩, ?_⟩ <;> decide +kernel

/-- EncodeThenDecodeRestoresBlock: a coded and a raw block. -/
theorem witness_round_trip :
    ∀ bs ∈ [aaaab, [0x7A, 0x7A]], (load .raw bs State.reset).rawLen.toNat ≤ 65536
      ∧ goesOn (exec .encodeBlock (load .raw bs State.reset)) = true := by
  decide +kernel

/-- OnlyTheseCommandsWrite: a command that writes none of what it names, and one for each of its exceptions. -/
theorem witness_only_these :
    ∀ i ∈ [Instr.nop, .pqExtract, .dictLookup, .faRun, .pqInsert, .tbRun, .dbRun, .pkRun, .upRun, .encodeBlock, .decodeFrame],
      i ≠ .reset ∧ goesOn (exec i State.reset) = true := by
  decide +kernel

/-- ValidityFlagsChangeOnlyByBuilds, its first two clauses: TB_RUN and DB_RUN. -/
theorem witness_flags_rise :
    (let s := (list [(0x61, 4), (0x62, 1)] State.reset).withFetchWord 32 0x30;
      goesOn (step s) = true ∧ s.treeValid = false ∧ (nextOr s (step s)).treeValid = true)
    ∧ (let s := treeAB.withFetchWord 32 0x40;
      goesOn (step s) = true ∧ s.dictValid = false ∧ (nextOr s (step s)).dictValid = true) := by
  decide +kernel

/-- ValidityFlagsChangeOnlyByBuilds, its last two clauses: the reset input, and RESET. -/
theorem witness_flags_fall :
    ∀ s ∈ [{ dictAB with host := [.resetInput] }, dictAB.withFetchWord 32 0x01],
      goesOn (step s) = true ∧ s.treeValid = true ∧ s.dictValid = true ∧ (nextOr s (step s)).treeValid = false
        ∧ (nextOr s (step s)).dictValid = false := by
  decide +kernel

/-- StepKeepsMemoryForm, StepKeepsQueue, StatusFieldsKept: PQ_EXTRACT with a block in RAW and an entry in the queue. -/
theorem witness_memory_queue_status :
    let s := (load .raw aaaab (insert 5 1 State.reset)).withFetchWord 32 0x22
    Memory.wf s.mem ∧ s.QueueWf ∧ s.StatusCoherent ∧ goesOn (step s) = true := by
  unfold State.QueueWf State.StatusCoherent
  decide +kernel

/-- StepKeepsOneTree, StepKeepsDictionaryOfTree: PK_RUN with a tree and its dictionary. -/
theorem witness_tree_dict :
    let s := dictAB.withFetchWord 32 0x50
    s.TreeOk ∧ s.DictCurrent ∧ goesOn (step s) = true := by
  unfold State.TreeOk State.DictCurrent TreeWf
  decide +kernel

theorem withFetchWord_dictWf {s : State} (h : s.DictWf) (nbits w : Nat) : (s.withFetchWord nbits w).DictWf := h

/-- StepKeepsDictionaryEntries: the same state. -/
theorem witness_step_dict_wf : (dictAB.withFetchWord 32 0x50).DictWf
    ∧ goesOn (step (dictAB.withFetchWord 32 0x50)) = true :=
  ⟨withFetchWord_dictWf witness_dict_wf 32 0x50, by decide +kernel⟩

end Sys2Proof.Tests
end

section
/-! PROOFS. What a command does to the state, said once: the updates it makes, and the completion that ends it
(10_state R27, 60_exceptions R231). -/

namespace Sys2Proof.Machine

/-- A command's end with a code of either kind: `finish` for an outcome, `raise` for an error
(`finish_eq_complete`, `raise_eq_complete`). -/
def State.complete (s : State) (c : Code) : State :=
  { s with eng := .idle, done := true, err := c.isError, code := c, anyErr := c.isError || s.anyErr }

theorem State.finish_eq_complete (s : State) {c : Code} (h : c.isError = false) : s.finish c = s.complete c := by
  simp [State.finish, State.complete, h]

theorem State.raise_eq_complete (s : State) {c : Code} (h : c.isError = true) : s.raise c = s.complete c := by
  simp [State.raise, State.complete, h]

/-- What a command has done to state `s` when it completes, in the updates of Machine/Ops. Bytes, lengths, results and the
list are left open; what the invariants speak of is not: every queue, tree and dictionary written is named. -/
inductive Effect (s : State) : Instr → State → Prop
  /-- NOP, and every error found before anything is written. -/
  | nothing {i : Instr} (hi : i ≠ .reset) : Effect s i s
  | reset : Effect s .reset (resetRun s)
  | faRun (c l n) : Effect s .faRun ((s.setFcnt c).setFlist l n)
  | pqClear : Effect s .pqClear (s.setQueue [] 0)
  | pqInsert {w p t} (h : s.pqInsert w p = .ok t) : Effect s .pqInsert t
  | pqExtract (e r0 r1 r2) : Effect s .pqExtract ((s.setQueue (s.pq.erase e) s.pqSerial).setResults r0 r1 r2)
  | tbRun (k) {t r m} (ht : TreeWf t r m) (hm : m ≤ 511) : Effect s .tbRun ((s.setQueue [] k).setTree t r m)
  | dbRun {d} (hv : s.treeValid = true) (hd : dictOfTree s.tree s.treeRoot = some d) :
      Effect s .dbRun (s.setDict d true)
  | dbRunOverflow : Effect s .dbRun (s.setDict emptyDict false)
  | dictLookup (r0 r1 r2) : Effect s .dictLookup (s.setResults r0 r1 r2)
  | pkRun (bs n) : Effect s .pkRun ((s.fillBuf .pay bs).setPayLen n)
  | upRun (k bs) {t r m} (ht : TreeWf t r m) (hm : m ≤ 511) :
      Effect s .upRun (((s.setQueue [] k).setTree t r m).fillBuf .raw bs)
  /-- ENCODE of a block of fewer than two symbols. -/
  | encodeShort (c l n f) : Effect s .encodeBlock (((s.setFcnt c).setFlist l n).putFrame f)
  /-- ENCODE, the dictionary overflowing. -/
  | encodeDeep (c l n k f) {t r m} (ht : TreeWf t r m) (hm : m ≤ 511) :
      Effect s .encodeBlock
        ((((((s.setFcnt c).setFlist l n).setQueue [] k).setTree t r m).setDict emptyDict false).putFrame f)
  /-- ENCODE, the dictionary built and the block packed. -/
  | encodePacked (c l n k bs p f) {t r m d} (ht : TreeWf t r m) (hm : m ≤ 511) (hd : dictOfTree t r = some d) :
      Effect s .encodeBlock
        ((((((((s.setFcnt c).setFlist l n).setQueue [] k).setTree t r m).setDict d true).fillBuf .pay bs).setPayLen
          p).putFrame f)
  | decodeRaw (bs n u) : Effect s .decodeFrame (((s.fillBuf .raw bs).setRawLen n).setFrmUsed u)
  /-- DECODE, an error found once the list is loaded. -/
  | decodeHeader (l n) : Effect s .decodeFrame (s.setFlist l n)
  /-- DECODE, the payload exhausted. -/
  | decodeExhausted (l n bs p k cs) {t r m} (ht : TreeWf t r m) (hm : m ≤ 511) :
      Effect s .decodeFrame
        ((((((s.setFlist l n).fillBuf .pay bs).setPayLen p).setQueue [] k).setTree t r m).fillBuf .raw cs)
  | decodeCoded (l n bs p k cs len u) {t r m} (ht : TreeWf t r m) (hm : m ≤ 511) :
      Effect s .decodeFrame
        ((((((((s.setFlist l n).fillBuf .pay bs).setPayLen p).setQueue [] k).setTree t r m).fillBuf .raw cs).setRawLen
          len).setFrmUsed u)

/-- The command leaves `t`: it had an effect and completed. -/
def Ends (s : State) (i : Instr) (t : State) : Prop := ∃ u c, Effect s i u ∧ t = u.complete c

theorem Effect.finish {s u : State} {i : Instr} (h : Effect s i u) {c : Code} (hc : c.isError = false) :
    Ends s i (u.finish c) := ⟨u, c, h, u.finish_eq_complete hc⟩

theorem Effect.raise {s u : State} {i : Instr} (h : Effect s i u) {c : Code} (hc : c.isError = true) :
    Ends s i (u.raise c) := ⟨u, c, h, u.raise_eq_complete hc⟩

theorem Ends.error {s : State} {i : Instr} (hi : i ≠ .reset) {c : Code} (hc : c.isError = true) :
    Ends s i (s.raise c) := (Effect.nothing hi).raise hc

/-! ### Each command -/

theorem faRun_ends (s : State) : Ends s .faRun (faRun s) := by
  rw [faRun]
  split
  · exact .error (by decide) rfl
  · exact (Effect.faRun _ _ _).finish rfl

theorem pqInsertRun_ends (s : State) : Ends s .pqInsert (pqInsertRun s) := by
  rcases pqInsertRun_cases s with ⟨-, e⟩ | ⟨-, -, e⟩ | ⟨hl, hs, e⟩ <;> rw [e]
  · exact .error (by decide) rfl
  · exact .error (by decide) rfl
  · refine (Effect.pqInsert (w := s.weightOperand) (p := s.payloadOperand) ?_).finish rfl
    rw [State.pqInsert, if_neg (Nat.not_le_of_lt hl), if_neg hs]

theorem pqExtractRun_ends (s : State) : Ends s .pqExtract (pqExtractRun s) := by
  rcases pqExtractRun_cases s with ⟨-, e⟩ | ⟨_, -, e⟩ <;> rw [e]
  · exact .error (by decide) rfl
  · exact (Effect.pqExtract _ _ _ _).finish rfl

/-- What `build_tree(N)` records, for a list of 1 to 256 entries (R136 to R138). -/
theorem State.buildTree_planted (s : State) {n : Nat} (h0 : 1 ≤ n) (h : n ≤ 256) :
    ∃ k t r m, TreeWf t r m ∧ m ≤ 511 ∧ s.buildTree n = (s.setQueue [] k).setTree t r m := by
  obtain ⟨t, ht, -, hwf, -⟩ := s.buildTree_spec h0 h
  exact ⟨_, t, _, _, hwf, by omega, ht⟩

theorem tbRun_ends (s : State) : Ends s .tbRun (tbRun s) := by
  rw [tbRun]
  split
  · exact .error (by decide) rfl
  split
  · exact .error (by decide) rfl
  split
  · exact .error (by decide) rfl
  next h0 h1 _ =>
  obtain ⟨k, t, r, m, hwf, hm, e⟩ := s.buildTree_planted (Nat.one_le_iff_ne_zero.2 h0) (Nat.le_of_not_lt h1)
  rw [e]
  exact (Effect.tbRun k hwf hm).finish rfl

theorem dbRun_ends (s : State) : Ends s .dbRun (dbRun s) := by
  rw [dbRun]
  split
  · exact .error (by decide) rfl
  next hv =>
  rcases s.buildDict_cases with ⟨d, hd, e⟩ | ⟨-, e⟩ <;> rw [e]
  · exact (Effect.dbRun (by simpa using hv) hd).finish rfl
  · exact Effect.dbRunOverflow.finish rfl

theorem pkRun_ends (s : State) : Ends s .pkRun (pkRun s) := by
  rw [pkRun]
  split
  · exact .error (by decide) rfl
  split
  · exact .error (by decide) rfl
  · exact (Effect.pkRun _ _).finish (by split <;> rfl)

theorem upRun_ends (s : State) : Ends s .upRun (upRun s) := by
  rcases upRun_cases s with ⟨c, hc, -, e⟩ | ⟨h0, h1, -, -, -, h⟩
  · rw [e]
    exact .error (by decide) hc
  obtain ⟨k, t, r, m, hwf, hm, e⟩ := s.buildTree_planted h0 h1
  rcases h with ⟨-, e'⟩ | ⟨-, e'⟩ <;> rw [e', e]
  · exact (Effect.upRun k _ hwf hm).raise rfl
  · exact (Effect.upRun k _ hwf hm).finish rfl

/-- ENCODE from the tree build on (R196). -/
theorem encodeTree_ends (s : State) {n len : Nat} (h0 : 2 ≤ n) (h1 : n ≤ 256) :
    Ends s .encodeBlock (encodeTree (s.analyze len) n len) := by
  obtain ⟨k, t, r, m, hwf, hm, e⟩ := (s.analyze len).buildTree_planted (n := n) (by omega) h1
  simp only [encodeTree, encodePacked, e]
  rcases State.buildDict_cases (((s.analyze len).setQueue [] k).setTree t r m) with ⟨d, hd, e'⟩ | ⟨-, e'⟩ <;> rw [e']
  · simp only [State.setDict_dictValid, if_true]
    split
    · exact (Effect.encodePacked _ _ _ k _ _ _ hwf hm hd).finish rfl
    · exact (Effect.encodePacked _ _ _ k _ _ _ hwf hm hd).finish rfl
  · exact (Effect.encodeDeep _ _ _ k _ hwf hm).finish rfl

theorem encodeRun_ends (s : State) : Ends s .encodeBlock (encodeRun s) := by
  simp only [encodeRun]
  split
  · exact .error (by decide) rfl
  split
  · exact (Effect.encodeShort _ _ _ _).finish rfl
  split
  · exact (Effect.encodeShort _ _ _ _).finish rfl
  next h0 h1 =>
  exact encodeTree_ends s (by omega) (by rw [State.analyze_listLength]; exact occurring_le _)

/-- DECODE from the payload on (R201). -/
theorem decodePayload_ends (s : State) {n len payLen : Nat} (h0 : 1 ≤ n) (h1 : n ≤ 256) :
    Ends s .decodeFrame (decodePayload (s.loadHeader n) n len payLen) := by
  simp only [decodePayload]
  generalize (s.loadHeader n).bufBytes .frm (10 + 5 * n) payLen = bs
  obtain ⟨k, t, r, m, hwf, hm, e⟩ :=
    (((s.loadHeader n).fillBuf .pay bs).setPayLen payLen).buildTree_planted h0 h1
  rw [e]
  split
  · exact (Effect.decodeExhausted _ _ _ _ k _ hwf hm).raise rfl
  · exact (Effect.decodeCoded _ _ _ _ k _ _ _ hwf hm).finish rfl

theorem decodeRun_ends (s : State) : Ends s .decodeFrame (decodeRun s) := by
  rcases decodeRun_cases s with ⟨c, hc, e⟩ | ⟨-, e⟩ | ⟨n, -, h0, h1, ⟨c, hc, e⟩ | ⟨-, -, -, e⟩⟩ <;> rw [e]
  · exact .error (by decide) hc
  · exact (Effect.decodeRaw _ _ _).finish rfl
  · exact (Effect.decodeHeader _ _).raise hc
  · exact decodePayload_ends s h0 h1

/-- Every command goes on, has one of its effects and completes (R231). -/
theorem exec_ends (i : Instr) (s : State) : ∃ t, exec i s = .next t ∧ Ends s i t := by
  cases i with
  | nop => exact ⟨_, rfl, (Effect.nothing (by decide)).finish rfl⟩
  | reset => exact ⟨_, rfl, _, .ok, Effect.reset, rfl⟩
  | faRun => exact ⟨_, rfl, faRun_ends s⟩
  | pqClear => exact ⟨_, rfl, Effect.pqClear.finish rfl⟩
  | pqInsert => exact ⟨_, rfl, pqInsertRun_ends s⟩
  | pqExtract => exact ⟨_, rfl, pqExtractRun_ends s⟩
  | tbRun => exact ⟨_, rfl, tbRun_ends s⟩
  | dbRun => exact ⟨_, rfl, dbRun_ends s⟩
  | dictLookup => exact ⟨_, rfl, (Effect.dictLookup _ _ _).finish rfl⟩
  | pkRun => exact ⟨_, rfl, pkRun_ends s⟩
  | upRun => exact ⟨_, rfl, upRun_ends s⟩
  | encodeBlock => exact ⟨_, rfl, encodeRun_ends s⟩
  | decodeFrame => exact ⟨_, rfl, decodeRun_ends s⟩

theorem exec_next_ends {i : Instr} {s t : State} (h : exec i s = .next t) : Ends s i t := by
  obtain ⟨t', h', he⟩ := exec_ends i s
  rw [h] at h'
  cases h'
  exact he

end Sys2Proof.Machine
end

section
/-! PROOFS. What one step does, in terms of `Effect`, and the invariants of 10_state R44, R26 and R27 kept by it. -/

namespace Sys2Proof.Machine

/-! ### The host's accesses and the step -/

/-- The host changed at most what it may change on its own: the buffers, FLIST, the lengths and operands it may write, and
the model's record of its turns and reads. A busy block stays busy. -/
structure HostMoved (s t : State) : Prop where
  busy : t.isBusy = s.isBusy
  wf : Memory.wf s.mem → Memory.wf t.mem
  frame : t = { s with eng := t.eng, mem := t.mem, flist := t.flist, rawLen := t.rawLen, payLen := t.payLen,
                       frmLen := t.frmLen, flistLen := t.flistLen, opa := t.opa, opb := t.opb, host := t.host,
                       reads := t.reads }

/-- A word written to the register window starts a command or changes what the host may change (10_state R25, R29). -/
theorem State.writeReg_cases (s : State) (off : Nat) (v : Word) :
    s.writeReg off v = s.writeCmd v ∨ HostMoved s (s.writeReg off v) := by
  unfold State.writeReg
  split
  · exact .inl rfl
  all_goals exact .inr ⟨rfl, id, rfl⟩

/-- A byte write outside the register window changes what the host may change. -/
theorem State.writePortByte_hostMoved (s : State) (a : Nat) (v : Byte) : HostMoved s (s.writePortByte a v) := by
  have hwf := fun h : Memory.wf s.mem => State.wf_writePortByte h a v
  obtain ⟨m, f, e⟩ := s.writePortByte_eq a v
  rw [e] at hwf ⊢
  exact ⟨rfl, hwf, rfl⟩

/-- A word write outside the register window changes what the host may change. -/
theorem State.writeWord_hostMoved (s : State) {a : Addr} (h : registerWindow a = false) (v : Word) :
    HostMoved s (s.writeWord a v) := by
  have hwf := fun h : Memory.wf s.mem => State.wf_writeWord h a v
  rw [s.writeWord_frame h v] at hwf ⊢
  exact ⟨rfl, hwf, rfl⟩

/-- What an access on an idle block does: a CMD write starts a command, any other changes what the host may change. -/
theorem State.hostAccess_cases {s t : State} {x : HostAccess} (h : s.hostAccess x = .next t) :
    (∃ w, t = s.writeCmd w) ∨ HostMoved s t := by
  cases x with
  | rd8 a =>
    simp only [State.hostAccess] at h
    split at h <;> cases h
    exact .inr ⟨rfl, id, rfl⟩
  | rd32 a =>
    simp only [State.hostAccess] at h
    split at h <;> cases h
    exact .inr ⟨rfl, id, rfl⟩
  | wr8 a v =>
    simp only [State.hostAccess] at h
    split at h <;> cases h
    exact .inr (s.writePortByte_hostMoved a.toNat v)
  | wr32 a v =>
    simp only [State.hostAccess] at h
    split at h <;> cases h
    cases hr : registerWindow a with
    | false => exact .inr (s.writeWord_hostMoved hr v)
    | true =>
      rw [State.writeWord, if_pos hr]
      exact (s.writeReg_cases a.toNat v).imp (fun h => ⟨v, h⟩) id

/-- What one step can have been, for the claims about what steps keep: a move of the host that starts no command, a CMD
write, the reset input, a command, or an illegal word. -/
inductive Moved (s : State) : State → Prop
  | host {t} (h : HostMoved s t) : Moved s t
  | cmd (w host) : Moved s (State.writeCmd { s with host := host } w)
  | resetInput {rest} (hs : s.host = .resetInput :: rest) : Moved s { s.assertReset with host := rest }
  | command {w turns i u} (c) (hb : s.eng = .busy w turns) (hd : decode w = .ok i) (he : Effect s i u) :
      Moved s (u.complete c)
  | illegal : Moved s (s.complete .errIllegalCmd)

theorem step_moved {s t : State} (h : step s = .next t) : Moved s t := by
  rcases step_cases h with ⟨-, -, rfl⟩ | ⟨x, rest, -, -, hx⟩ | ⟨rest, -, -, rfl⟩ | ⟨rest, hr, rfl⟩
    | ⟨w, turns, host, hb, rfl⟩ | ⟨w, turns, i, hb, hd, hx⟩ | ⟨w, turns, e, -, -, rfl⟩
  · exact .host ⟨rfl, id, rfl⟩
  · rcases State.hostAccess_cases hx with ⟨w, rfl⟩ | ⟨hb, hm, hf⟩
    · exact .cmd w rest
    · exact .host ⟨hb, hm, hf⟩
  · exact .host ⟨rfl, id, rfl⟩
  · exact .resetInput hr
  · exact .host ⟨by simp [State.pollStatus, State.isBusy, hb], id, rfl⟩
  · obtain ⟨u, c, he, rfl⟩ := exec_next_ends hx
    exact .command c hb hd he
  · rw [s.raise_eq_complete rfl]
    exact .illegal

end Sys2Proof.Machine

open Sys2Proof Sys2Proof.Machine

/-- Settles O10: the reset state holds these values as it is written, and its tables are constant. -/
theorem resetLeavesTheseValues : Obligations.ResetLeavesTheseValues := by
  unfold Obligations.ResetLeavesTheseValues
  refine ⟨rfl, rfl, by decide, rfl, rfl, rfl, rfl, rfl, rfl, rfl, rfl, rfl, rfl, rfl, rfl, rfl, rfl, counterAt_replicate,
    fun i h => ?_, fun i h => ?_, dictAt_emptyDict⟩
  · simp [State.reset]
  · simp [State.reset]

/-- Settles O60: nothing is listed or queued, no dictionary entry is present, and no flag is set. -/
theorem resetMeetsEveryInvariant : Obligations.ResetMeetsEveryInvariant := by
  have hm : Memory.wf State.reset.mem := ⟨.nil, fun c hc => absurd hc List.not_mem_nil⟩
  have hq : State.reset.QueueWf := State.QueueWf.setQueue_nil (s := State.reset)
  have hs : State.reset.StatusCoherent := ⟨rfl, Bool.noConfusion, Bool.noConfusion⟩
  exact ⟨hm, hq, emptyDict_wf, Bool.noConfusion, Bool.noConfusion, hs⟩

namespace Sys2Proof.Machine

/-- An insertion that succeeds appends the new entry (40_priority_queue R114). -/
theorem State.pqInsert_eq {s t : State} {w : BitVec 32} {p : BitVec 16} (h : s.pqInsert w p = .ok t) :
    t = s.setQueue (pqPush s.pq w s.pqSerial p) (s.pqSerial + 1) := by
  unfold State.pqInsert at h
  split at h
  · cases h
  split at h
  · cases h
  · cases h
    rfl

/-! ### The memory's canonical form -/

theorem State.wf_putFrame {s : State} (h : Memory.wf s.mem) (f : List Byte) : Memory.wf (s.putFrame f).mem :=
  State.wf_fillBuf h .frm f

theorem State.wf_loseBytes {s : State} (h : Memory.wf s.mem) (b : Buffer) (n : Nat) :
    Memory.wf (s.loseBytes b n).mem := State.wf_fillBuf h b _

theorem State.wf_abandon {s : State} (h : Memory.wf s.mem) : Memory.wf s.abandon.mem := by
  unfold State.abandon
  split
  · exact h
  split
  · exact h
  · exact State.wf_loseBytes (State.wf_loseBytes (State.wf_loseBytes h _ _) _ _) _ _

theorem Effect.wf_mem {s u : State} {i : Instr} (he : Effect s i u) (h : Memory.wf s.mem) : Memory.wf u.mem := by
  cases he with
  | pqInsert hk => simpa [State.pqInsert_eq hk] using h
  | pkRun | upRun | decodeRaw => exact State.wf_fillBuf h _ _
  | encodeShort | encodeDeep => exact State.wf_putFrame (by simpa using h) _
  | encodePacked =>
    refine State.wf_putFrame ?_ _
    rw [State.setPayLen_mem]
    exact State.wf_fillBuf (by simpa using h) _ _
  | decodeExhausted =>
    refine State.wf_fillBuf ?_ _ _
    simp only [State.setTree_mem, State.setQueue_mem, State.setPayLen_mem]
    exact State.wf_fillBuf h _ _
  | decodeCoded =>
    simp only [State.setFrmUsed_mem, State.setRawLen_mem]
    refine State.wf_fillBuf ?_ _ _
    simp only [State.setTree_mem, State.setQueue_mem, State.setPayLen_mem]
    exact State.wf_fillBuf h _ _
  | _ => exact h

theorem Moved.wf_mem {s t : State} (hm : Moved s t) (h : Memory.wf s.mem) : Memory.wf t.mem := by
  cases hm with
  | host hh => exact hh.wf h
  | cmd => exact h
  | resetInput => exact State.wf_abandon h
  | command c _ _ he => exact he.wf_mem h
  | illegal => exact h

/-! ### Invariants of the queue, the tree and the dictionary -/

/-- What 10_state R44 speaks of: the queue, the tree and the dictionary, with their flags. -/
def State.tables (s : State) :=
  (s.pq, s.pqSerial, s.tree, s.treeRoot, s.treeNodes, s.treeValid, s.dict, s.dictValid)

/-- A claim about the tables alone is kept by every step when it holds after reset and every command's effect keeps it. -/
theorem step_keeps {P : State → Prop} (tables : ∀ {s t : State}, t.tables = s.tables → P s → P t)
    (reset : P State.reset) (effect : ∀ {s u : State} {i : Instr}, Effect s i u → P s → P u)
    {s t : State} (hs : P s) (h : step s = .next t) : P t := by
  cases step_moved h with
  | host hh => exact tables (by rw [hh.frame]; rfl) hs
  | cmd => exact tables (s := s) rfl hs
  | resetInput => exact tables (s := State.reset) rfl reset
  | @command _ _ _ u c _ _ he => exact tables (s := u) rfl (effect he hs)
  | illegal => exact tables (s := s) rfl hs

theorem State.QueueWf.of_tables {s t : State} (h : t.tables = s.tables) (hs : s.QueueWf) : t.QueueWf := by
  simp only [State.tables, Prod.mk.injEq] at h
  simpa only [State.QueueWf, h] using hs

theorem State.DictWf.of_tables {s t : State} (h : t.tables = s.tables) (hs : s.DictWf) : t.DictWf := by
  simp only [State.tables, Prod.mk.injEq] at h
  simpa only [State.DictWf, h] using hs

theorem State.TreeOk.of_tables {s t : State} (h : t.tables = s.tables) (hs : s.TreeOk) : t.TreeOk := by
  simp only [State.tables, Prod.mk.injEq] at h
  simpa only [State.TreeOk, h] using hs

theorem State.DictCurrent.of_tables {s t : State} (h : t.tables = s.tables) (hs : s.DictCurrent) : t.DictCurrent := by
  simp only [State.tables, Prod.mk.injEq] at h
  simpa only [State.DictCurrent, h] using hs

theorem State.queueWf_of_nil {s : State} (h : s.pq = []) : s.QueueWf := by simp [State.QueueWf, h]

theorem Effect.queueWf {s u : State} {i : Instr} (he : Effect s i u) (h : s.QueueWf) : u.QueueWf := by
  cases he with
  | pqInsert hk => exact h.pqInsert hk
  | pqExtract e => exact h.erase e
  | reset => exact State.queueWf_of_nil rfl
  | pqClear | tbRun | upRun | encodeDeep | encodePacked | decodeExhausted | decodeCoded =>
    exact State.queueWf_of_nil (by simp)
  | _ => simpa [State.QueueWf] using h

theorem Effect.dictWf {s u : State} {i : Instr} (he : Effect s i u) (h : s.DictWf) : u.DictWf := by
  cases he with
  | pqInsert hk => simpa [State.DictWf, State.pqInsert_eq hk] using h
  | dbRun _ hd => exact dictOfTree_wf hd
  | encodePacked _ _ _ _ _ _ _ _ _ hd => simpa [State.DictWf] using dictOfTree_wf hd
  | reset => exact emptyDict_wf
  | dbRunOverflow | encodeDeep => simpa [State.DictWf] using emptyDict_wf
  | _ => simpa [State.DictWf] using h

/-- A state that holds one tree. -/
theorem State.treeOk_of_tree {u : State} {t : Vector Node 511} {r : BitVec 9} {m : Nat} (ht : TreeWf t r m)
    (hm : m ≤ 511) (h : u.tree = t ∧ u.treeRoot = r ∧ u.treeNodes = BitVec.ofNat 10 m) : u.TreeOk := by
  obtain ⟨h1, h2, h3⟩ := h
  intro _
  have e : (BitVec.ofNat 10 m).toNat = m := by rw [BitVec.toNat_ofNat]; omega
  rwa [h1, h2, h3, e]

theorem Effect.treeOk {s u : State} {i : Instr} (he : Effect s i u) (h : s.TreeOk) : u.TreeOk := by
  cases he with
  | reset => exact Bool.noConfusion
  | pqInsert hk => simpa [State.TreeOk, State.pqInsert_eq hk] using h
  | tbRun _ ht hm => exact State.treeOk_of_tree ht hm (by simp)
  | upRun _ _ ht hm => exact State.treeOk_of_tree ht hm (by simp)
  | encodeDeep _ _ _ _ _ ht hm => exact State.treeOk_of_tree ht hm (by simp)
  | encodePacked _ _ _ _ _ _ _ ht hm => exact State.treeOk_of_tree ht hm (by simp)
  | decodeExhausted _ _ _ _ _ _ ht hm => exact State.treeOk_of_tree ht hm (by simp)
  | decodeCoded _ _ _ _ _ _ _ _ ht hm => exact State.treeOk_of_tree ht hm (by simp)
  | _ => simpa [State.TreeOk] using h

theorem State.dictCurrent_of_invalid {s : State} (h : s.dictValid = false) : s.DictCurrent := by
  simp [State.DictCurrent, h]

theorem Effect.dictCurrent {s u : State} {i : Instr} (he : Effect s i u) (h : s.DictCurrent) : u.DictCurrent := by
  cases he with
  | pqInsert hk => simpa [State.DictCurrent, State.pqInsert_eq hk] using h
  | dbRun hv hd => exact fun _ => ⟨hv, hd⟩
  | encodePacked _ _ _ _ _ _ _ _ _ hd => simpa [State.DictCurrent] using hd
  | reset => exact State.dictCurrent_of_invalid rfl
  | tbRun | dbRunOverflow | upRun | encodeDeep | decodeExhausted | decodeCoded =>
    exact State.dictCurrent_of_invalid (by simp)
  | _ => simpa [State.DictCurrent] using h

/-! ### The STATUS fields -/

/-- A completion makes the STATUS fields coherent, whatever they were (10_state R27). -/
theorem State.statusCoherent_complete (u : State) (c : Code) : (u.complete c).StatusCoherent := by
  refine ⟨rfl, fun h => ?_, Bool.noConfusion⟩
  have hc : c.isError = true := h
  simp [State.complete, hc]

theorem Moved.statusCoherent {s t : State} (hm : Moved s t) (h : s.StatusCoherent) : t.StatusCoherent := by
  cases hm with
  | host hh =>
    obtain ⟨hk, ha, hb⟩ := h
    have hbusy := hh.busy
    rw [hh.frame] at hbusy ⊢
    exact ⟨hk, ha, fun k => hb (hbusy.symm.trans k)⟩
  | cmd => exact ⟨rfl, Bool.noConfusion, fun _ => ⟨rfl, rfl⟩⟩
  | resetInput => exact ⟨rfl, Bool.noConfusion, Bool.noConfusion⟩
  | command c => exact State.statusCoherent_complete _ c
  | illegal => exact s.statusCoherent_complete _

end Sys2Proof.Machine

/-- Settles O54: only filled buffers and host byte writes touch the memory, and each keeps the form. -/
theorem stepKeepsMemoryForm : Obligations.StepKeepsMemoryForm := fun _ _ h hs => (step_moved hs).wf_mem h

/-- Settles O55: a queue is extended by one insertion, loses one entry, or is emptied. -/
theorem stepKeepsQueue : Obligations.StepKeepsQueue :=
  have ⟨_, hq, _⟩ := resetMeetsEveryInvariant
  fun _ _ => step_keeps .of_tables hq Effect.queueWf

/-- Settles O56: DICT is written only with the dictionary of a tree or with the empty one. -/
theorem stepKeepsDictionaryEntries : Obligations.StepKeepsDictionaryEntries :=
  have ⟨_, _, hd, _⟩ := resetMeetsEveryInvariant
  fun _ _ => step_keeps .of_tables hd Effect.dictWf

/-- Settles O57: TREE is written only by a build, which leaves one tree, and by the resets, which clear TREE_VALID. -/
theorem stepKeepsOneTree : Obligations.StepKeepsOneTree :=
  have ⟨_, _, _, ht, _⟩ := resetMeetsEveryInvariant
  fun _ _ => step_keeps .of_tables ht Effect.treeOk

/-- Settles O58: a tree build clears DICT_VALID, and a dictionary build sets it with the current tree's dictionary. -/
theorem stepKeepsDictionaryOfTree : Obligations.StepKeepsDictionaryOfTree :=
  have ⟨_, _, _, _, hd, _⟩ := resetMeetsEveryInvariant
  fun _ _ => step_keeps .of_tables hd Effect.dictCurrent

/-- Settles O59: a command starts and completes with coherent fields, and nothing else changes them. -/
theorem statusFieldsKept : Obligations.StatusFieldsKept := fun _ _ h hs => (step_moved hs).statusCoherent h
end

section
/-! PROOFS. What each command leaves alone, and how it completes (10_state R23 to R41, R27, R30). -/

namespace Sys2Proof.Machine

/-! ### The frame of an effect -/

/-- No command touches the operands; a RESET clears them. -/
theorem Effect.operands {s u : State} {i : Instr} (he : Effect s i u) (hi : i ≠ .reset) :
    u.opa = s.opa ∧ u.opb = s.opb := by
  cases he with
  | reset => exact absurd rfl hi
  | pqInsert hk => simp [State.pqInsert_eq hk]
  | _ => simp

/-- The model's own fields and LAST_OP pass through every command. -/
theorem Effect.record {s u : State} {i : Instr} (he : Effect s i u) :
    u.lastOp = s.lastOp ∧ u.host = s.host ∧ u.reads = s.reads ∧ u.drawn = s.drawn := by
  cases he with
  | reset => exact ⟨rfl, rfl, rfl, rfl⟩
  | pqInsert hk => simp [State.pqInsert_eq hk]
  | _ => simp

/-- RESET alone clears ANY_ERR (47_control R221). -/
theorem Effect.anyErr {s u : State} {i : Instr} (he : Effect s i u) :
    u.anyErr = if i = .reset then false else s.anyErr := by
  cases he with
  | nothing hi => rw [if_neg hi]
  | reset => rfl
  | pqInsert hk => simp [State.pqInsert_eq hk]
  | _ => simp

theorem Effect.results {s u : State} {i : Instr} (he : Effect s i u) (hi : i ≠ .reset) (h1 : i ≠ .pqExtract)
    (h2 : i ≠ .dictLookup) : u.res0 = s.res0 ∧ u.res1 = s.res1 ∧ u.res2 = s.res2 := by
  cases he with
  | reset => exact absurd rfl hi
  | pqExtract => exact absurd rfl h1
  | dictLookup => exact absurd rfl h2
  | pqInsert hk => simp [State.pqInsert_eq hk]
  | _ => simp

theorem Effect.fcnt {s u : State} {i : Instr} (he : Effect s i u) (hi : i ≠ .reset) (h1 : i ≠ .faRun)
    (h2 : i ≠ .encodeBlock) : u.fcnt = s.fcnt := by
  cases he with
  | reset => exact absurd rfl hi
  | faRun => exact absurd rfl h1
  | encodeShort | encodeDeep | encodePacked => exact absurd rfl h2
  | pqInsert hk => simp [State.pqInsert_eq hk]
  | _ => simp

theorem Effect.flist {s u : State} {i : Instr} (he : Effect s i u) (hi : i ≠ .reset) (h1 : i ≠ .faRun)
    (h2 : i ≠ .encodeBlock) (h3 : i ≠ .decodeFrame) : u.flist = s.flist ∧ u.flistLen = s.flistLen := by
  cases he with
  | reset => exact absurd rfl hi
  | faRun => exact absurd rfl h1
  | encodeShort | encodeDeep | encodePacked => exact absurd rfl h2
  | decodeHeader | decodeExhausted | decodeCoded => exact absurd rfl h3
  | pqInsert hk => simp [State.pqInsert_eq hk]
  | _ => simp

/-- Outside the builders TREE stays, and with it the queue but for the queue's own commands (42_tree_builder R138). -/
theorem Effect.tree {s u : State} {i : Instr} (he : Effect s i u) (hi : i ≠ .reset) (h1 : i ≠ .tbRun) (h2 : i ≠ .upRun)
    (h3 : i ≠ .encodeBlock) (h4 : i ≠ .decodeFrame) :
    u.tree = s.tree ∧ u.treeRoot = s.treeRoot ∧ u.treeNodes = s.treeNodes ∧ u.treeValid = s.treeValid
      ∧ (i ≠ .pqClear → i ≠ .pqInsert → u.pqSerial = s.pqSerial ∧ (i ≠ .pqExtract → u.pq = s.pq))
      ∧ (i ≠ .dbRun → u.dictValid = s.dictValid) := by
  cases he with
  | reset => exact absurd rfl hi
  | tbRun => exact absurd rfl h1
  | upRun => exact absurd rfl h2
  | encodeShort | encodeDeep | encodePacked => exact absurd rfl h3
  | decodeRaw | decodeHeader | decodeExhausted | decodeCoded => exact absurd rfl h4
  | pqInsert hk => simp [State.pqInsert_eq hk]
  | _ => simp

theorem Effect.dict {s u : State} {i : Instr} (he : Effect s i u) (hi : i ≠ .reset) (h1 : i ≠ .dbRun)
    (h2 : i ≠ .encodeBlock) : u.dict = s.dict := by
  cases he with
  | reset => exact absurd rfl hi
  | dbRun | dbRunOverflow => exact absurd rfl h1
  | encodeShort | encodeDeep | encodePacked => exact absurd rfl h2
  | pqInsert hk => simp [State.pqInsert_eq hk]
  | _ => simp

theorem Effect.rawLen {s u : State} {i : Instr} (he : Effect s i u) (hi : i ≠ .reset) (h1 : i ≠ .decodeFrame) :
    u.rawLen = s.rawLen ∧ u.frmUsed = s.frmUsed := by
  cases he with
  | reset => exact absurd rfl hi
  | decodeRaw | decodeHeader | decodeExhausted | decodeCoded => exact absurd rfl h1
  | pqInsert hk => simp [State.pqInsert_eq hk]
  | _ => simp

theorem Effect.payLen {s u : State} {i : Instr} (he : Effect s i u) (hi : i ≠ .reset) (h1 : i ≠ .pkRun)
    (h2 : i ≠ .encodeBlock) (h3 : i ≠ .decodeFrame) : u.payLen = s.payLen := by
  cases he with
  | reset => exact absurd rfl hi
  | pkRun => exact absurd rfl h1
  | encodeShort | encodeDeep | encodePacked => exact absurd rfl h2
  | decodeRaw | decodeHeader | decodeExhausted | decodeCoded => exact absurd rfl h3
  | pqInsert hk => simp [State.pqInsert_eq hk]
  | _ => simp

theorem Effect.frmLen {s u : State} {i : Instr} (he : Effect s i u) (hi : i ≠ .reset) (h1 : i ≠ .encodeBlock) :
    u.frmLen = s.frmLen := by
  cases he with
  | reset => exact absurd rfl hi
  | encodeShort | encodeDeep | encodePacked => exact absurd rfl h1
  | pqInsert hk => simp [State.pqInsert_eq hk]
  | _ => simp

/-! ### The buffers (10_state R36) -/

/-- The commands that may write a buffer (44_bit_packer R169, 45_bit_unpacker R185, 46_block_codec R198, R206). -/
def MayWrite (i : Instr) : Buffer → Prop
  | .raw => i = .upRun ∨ i = .decodeFrame
  | .pay => i = .pkRun ∨ i = .encodeBlock ∨ i = .decodeFrame
  | .frm => i = .encodeBlock

theorem Buffer.holds_unique {b c : Buffer} {a : Nat} (hb : b.holds a) (hc : c.holds a) : b = c := by
  by_contra h
  have hi : a - b.base < b.size := by omega
  have hj : a - c.base < c.size := by omega
  have := Buffer.disjoint h hi hj
  omega

/-- Filling one buffer leaves the bytes of the others. -/
theorem State.memByte_fillBuf_other (s : State) {b c : Buffer} {a : Nat} (ha : c.holds a) (h : c ≠ b) (bs : List Byte) :
    (s.fillBuf b bs).memByte a = s.memByte a := by
  rw [State.memByte_fillBuf, if_neg]
  rintro ⟨h1, h2⟩
  exact h (Buffer.holds_unique ha ⟨h1, by omega⟩)

theorem State.memByte_putFrame_other (s : State) {c : Buffer} {a : Nat} (ha : c.holds a) (h : c ≠ .frm)
    (f : List Byte) : (s.putFrame f).memByte a = s.memByte a :=
  (State.memByte_of_mem (State.setFrmLen_mem _ _) a).trans (s.memByte_fillBuf_other ha h f)

/-- A command leaves every byte of a buffer it may not write. -/
theorem Effect.memByte {s u : State} {i : Instr} (he : Effect s i u) {b : Buffer} {a : Nat} (ha : b.holds a)
    (hw : ¬ MayWrite i b) : u.memByte a = s.memByte a := by
  cases he with
  | pqInsert hk => exact State.memByte_of_mem (by simp [State.pqInsert_eq hk]) a
  | pkRun bs =>
    have hb : b ≠ .pay := by rintro rfl; exact hw (.inl rfl)
    exact (State.memByte_of_mem (by simp) a).trans (s.memByte_fillBuf_other ha hb bs)
  | upRun _ bs =>
    have hb : b ≠ .raw := by rintro rfl; exact hw (.inl rfl)
    exact (State.memByte_fillBuf_other _ ha hb bs).trans (State.memByte_of_mem (by simp) a)
  | encodeShort | encodeDeep =>
    have hb : b ≠ .frm := by rintro rfl; exact hw rfl
    exact (State.memByte_putFrame_other _ ha hb _).trans (State.memByte_of_mem (by simp) a)
  | encodePacked _ _ _ _ bs =>
    have hf : b ≠ .frm := by rintro rfl; exact hw rfl
    have hp : b ≠ .pay := by rintro rfl; exact hw (.inr (.inl rfl))
    rw [State.memByte_putFrame_other _ ha hf, State.memByte_of_mem (State.setPayLen_mem _ _),
      State.memByte_fillBuf_other _ ha hp]
    exact State.memByte_of_mem (by simp) a
  | decodeRaw bs =>
    have hb : b ≠ .raw := by rintro rfl; exact hw (.inr rfl)
    exact (State.memByte_of_mem (by simp) a).trans (s.memByte_fillBuf_other ha hb bs)
  | decodeExhausted _ _ bs _ _ cs =>
    have hr : b ≠ .raw := by rintro rfl; exact hw (.inr rfl)
    have hp : b ≠ .pay := by rintro rfl; exact hw (.inr (.inr rfl))
    rw [State.memByte_fillBuf_other _ ha hr]
    exact (State.memByte_of_mem (by simp) a).trans (s.memByte_fillBuf_other ha hp bs)
  | decodeCoded _ _ bs _ _ cs =>
    have hr : b ≠ .raw := by rintro rfl; exact hw (.inr rfl)
    have hp : b ≠ .pay := by rintro rfl; exact hw (.inr (.inr rfl))
    rw [State.memByte_of_mem (State.setFrmUsed_mem _ _), State.memByte_of_mem (State.setRawLen_mem _ _),
      State.memByte_fillBuf_other _ ha hr]
    exact (State.memByte_of_mem (by simp) a).trans (s.memByte_fillBuf_other ha hp bs)
  | _ => rfl

/-! ### The validity flags (10_state R30) -/

theorem Effect.treeValid_cases {s u : State} {i : Instr} (he : Effect s i u) :
    u.treeValid = s.treeValid ∨ (i = .reset ∧ u.treeValid = false)
      ∨ (i ∈ [Instr.tbRun, .upRun, .encodeBlock, .decodeFrame] ∧ u.treeValid = true) := by
  cases he with
  | reset => exact .inr (.inl ⟨rfl, rfl⟩)
  | tbRun | upRun | encodeDeep | encodePacked | decodeExhausted | decodeCoded => exact .inr (.inr (by simp))
  | pqInsert hk => exact .inl (by simp [State.pqInsert_eq hk])
  | _ => exact .inl (by simp)

theorem Effect.dictValid_cases {s u : State} {i : Instr} (he : Effect s i u) :
    u.dictValid = s.dictValid ∨ (i ∈ [Instr.dbRun, .encodeBlock] ∧ u.dictValid = true)
      ∨ (i ∈ [Instr.reset, .tbRun, .dbRun, .upRun, .encodeBlock, .decodeFrame] ∧ u.dictValid = false) := by
  cases he with
  | dbRun | encodePacked => exact .inr (.inl (by simp))
  | reset => exact .inr (.inr ⟨by simp, rfl⟩)
  | tbRun | dbRunOverflow | upRun | encodeDeep | decodeExhausted | decodeCoded => exact .inr (.inr (by simp))
  | pqInsert hk => exact .inl (by simp [State.pqInsert_eq hk])
  | _ => exact .inl (by simp)

/-- A step that changes a STATUS flag other than BUSY is the reset input, a command, or an illegal word, which raises. -/
theorem Moved.flags_cases {s t : State} (hm : Moved s t) :
    (t.treeValid = s.treeValid ∧ t.dictValid = s.dictValid ∧ (s.anyErr = true → t.anyErr = true))
      ∨ (∃ rest, s.host = .resetInput :: rest ∧ t.treeValid = false ∧ t.dictValid = false)
      ∨ ∃ w turns i u, s.eng = .busy w turns ∧ decode w = .ok i ∧ Effect s i u
        ∧ t.treeValid = u.treeValid ∧ t.dictValid = u.dictValid ∧ (u.anyErr = true → t.anyErr = true) := by
  cases hm with
  | host hh => rw [hh.frame]; exact .inl ⟨rfl, rfl, id⟩
  | cmd => exact .inl ⟨rfl, rfl, id⟩
  | resetInput hs => exact .inr (.inl ⟨_, hs, rfl, rfl⟩)
  | command c hb hd he => exact .inr (.inr ⟨_, _, _, _, hb, hd, he, rfl, rfl, fun h => by simp [State.complete, h]⟩)
  | illegal => exact .inl ⟨rfl, rfl, fun _ => rfl⟩

end Sys2Proof.Machine

open Sys2Proof Sys2Proof.Machine

/-- Settles O52: what each effect of a command leaves alone; completing it touches the STATUS fields and ENG only. -/
theorem onlyTheseCommandsWrite : Obligations.OnlyTheseCommandsWrite := by
  intro i s t hi h
  obtain ⟨u, c, he, rfl⟩ := exec_next_ends h
  obtain ⟨ha, hb⟩ := he.operands hi
  exact ⟨ha, hb, he.results hi, he.fcnt hi, he.flist hi, he.tree hi, he.dict hi, he.rawLen hi, he.payLen hi,
    he.frmLen hi, fun a => ⟨fun h1 h2 hr => he.memByte hr (not_or.2 ⟨h1, h2⟩),
      fun h1 h2 h3 hp => he.memByte hp (not_or.2 ⟨h1, not_or.2 ⟨h2, h3⟩⟩), fun h1 hf => he.memByte hf h1⟩⟩

/-- Settles O7: every command completes with one of its effects, and no effect touches the record of the host. -/
theorem everyCommandCompletes : Obligations.EveryCommandCompletes := by
  intro i s
  by_cases hi : i = .reset
  · subst hi
    exact ⟨resetRun s, rfl, rfl, rfl, rfl, rfl, rfl, rfl, rfl, rfl⟩
  · obtain ⟨t, ht, u, c, he, rfl⟩ := exec_ends i s
    obtain ⟨hl, hh, hr, hd⟩ := he.record
    refine ⟨_, ht, rfl, rfl, rfl, hl, ?_, hh, hr, hd⟩
    simp [State.complete, he.anyErr, hi, Bool.or_comm]

/-- Settles O9: a command other than RESET keeps ANY_ERR at 1, and RESET has one word. -/
theorem anyErrIsSticky : Obligations.AnyErrIsSticky := by
  intro s t h hs ht
  rcases (step_moved h).flags_cases with ⟨-, -, ha⟩ | ⟨rest, hr, -⟩ | ⟨w, turns, i, u, hb, hd, he, -, -, ha⟩
  · simp [ha hs] at ht
  · exact .inr ⟨rest, hr⟩
  · refine .inl ⟨turns, ?_⟩
    by_cases hi : i = .reset
    · rw [hb, decode_eq_ok.1 hd, hi]
    · have hu := he.anyErr
      rw [if_neg hi, hs] at hu
      simp [ha hu] at ht

/-- Settles O53: a flag that a step changes is changed by the reset input or by the effect of a command. -/
theorem validityFlagsChangeOnlyByBuilds : Obligations.ValidityFlagsChangeOnlyByBuilds := by
  intro s t h
  rcases (step_moved h).flags_cases with ⟨ht, hd, -⟩ | ⟨rest, hr, ht, hd⟩ | ⟨w, turns, i, u, hb, hi, he, ht, hd, -⟩
  · simp +contextual [ht, hd]
  · simp [ht, hd, hr]
  · rw [ht, hd]
    refine ⟨fun h0 h1 => ?_, fun h0 h1 => ?_, fun h1 h0 => .inr ?_, fun h1 h0 => .inr ?_⟩
    · rcases he.treeValid_cases with e | ⟨-, e⟩ | ⟨hm, -⟩
      · simp [e, h0] at h1
      · simp [e] at h1
      · exact ⟨w, turns, i, hb, hi, hm⟩
    · rcases he.dictValid_cases with e | ⟨hm, -⟩ | ⟨-, e⟩
      · simp [e, h0] at h1
      · exact ⟨w, turns, i, hb, hi, hm⟩
      · simp [e] at h1
    · rcases he.treeValid_cases with e | ⟨rfl, -⟩ | ⟨-, e⟩
      · simp [e, h1] at h0
      · exact ⟨w, turns, hb, hi⟩
      · simp [e] at h0
    · rcases he.dictValid_cases with e | ⟨-, e⟩ | ⟨hm, -⟩
      · simp [e, h1] at h0
      · simp [e] at h0
      · exact ⟨w, turns, i, hb, hi, hm⟩
end

section
/-! PROOFS. The engine's turn, the register window and the STATUS word (10_state R21 to R33). -/

namespace Sys2Proof.Machine

/-! ### A host access on an idle block -/

theorem step_access {s : State} {x : HostAccess} {rest : List HostTurn} (he : s.eng = .idle)
    (hh : s.host = .access x :: rest) : step s = State.hostAccess { s with host := rest } x := by
  simp only [step, he, idleStep, hh, idleTurn]

/-- A word read of the register window records the register's value. -/
theorem step_readReg {s : State} {a : Addr} {rest : List HostTurn} (he : s.eng = .idle)
    (hh : s.host = .access (.rd32 a) :: rest) (hw : registerWindow a = true) (ha : aligned a = true) :
    step s = .next { s with host := rest, reads := s.reads ++ [.word (s.readReg a.toNat)] } := by
  rw [step_access he hh, State.hostAccess, if_pos ha, State.readWord, if_pos hw]
  rfl

/-- A word write to the register window writes the register. -/
theorem step_writeReg {s : State} {a : Addr} {v : Word} {rest : List HostTurn} (he : s.eng = .idle)
    (hh : s.host = .access (.wr32 a v) :: rest) (hw : registerWindow a = true) (ha : aligned a = true) :
    step s = .next (State.writeReg { s with host := rest } a.toNat v) := by
  rw [step_access he hh, State.hostAccess, if_pos ha, State.writeWord, if_pos hw]

/-! ### The registers -/

theorem State.readReg_reserved (s : State) {off : Nat} (h : 0x040 ≤ off) : s.readReg off = 0 := by
  unfold State.readReg
  split <;> try omega
  rfl

theorem State.writeReg_reserved (s : State) {off : Nat} (h : 0x040 ≤ off) (v : Word) : s.writeReg off v = s := by
  unfold State.writeReg
  split <;> try omega
  rfl

/-- The low `n` bits of a word, read back as a word. -/
theorem setWidth_setWidth_mask (w : Word) (n : Nat) (hn : n ≤ 32) :
    (w.setWidth n).setWidth 32 = w &&& BitVec.ofNat 32 (2 ^ n - 1) := by
  apply BitVec.eq_of_toNat_eq
  have h1 : 2 ^ n ≤ 2 ^ 32 := Nat.pow_le_pow_right (by decide) hn
  have h2 : 0 < 2 ^ n := Nat.two_pow_pos n
  have h3 : w.toNat % 2 ^ n < 2 ^ n := Nat.mod_lt _ h2
  rw [BitVec.toNat_setWidth, BitVec.toNat_setWidth, BitVec.toNat_and, BitVec.toNat_ofNat,
    Nat.mod_eq_of_lt (show 2 ^ n - 1 < 2 ^ 32 by omega), Nat.and_two_pow_sub_one_eq_mod, Nat.mod_eq_of_lt (by omega)]

/-- TREE_INFO: NODES over ROOT, zeros between them and above (10_state R32). -/
theorem State.treeInfoWord_eq (s : State) :
    s.treeInfoWord = (0 : BitVec 6) ++ s.treeNodes ++ (0 : BitVec 7) ++ s.treeRoot := by
  apply BitVec.eq_of_getLsbD_eq
  intro i hi
  rw [State.treeInfoWord, BitVec.getLsbD_or, BitVec.getLsbD_append, BitVec.getLsbD_append, BitVec.getLsbD_append]
  by_cases h9 : i < 9
  · simp [h9, hi, show i < 16 by omega]
  have hr : s.treeRoot.getLsbD i = false := BitVec.getLsbD_of_ge _ _ (by omega)
  by_cases h16 : i < 16
  · simp [hr, h9, h16, show i - 9 < 7 by omega]
  · simpa [hr, h9, h16, hi, show ¬ i - 9 < 7 by omega, show i - 9 - 7 = i - 16 by omega] using BitVec.lt_of_getLsbD

/-- The value of every register the spec names (10_state R23 to R33). -/
theorem State.readReg_named (s : State) :
    ∀ p ∈ [((0x000000 : Addr), (0x48554631 : Word)), (0x000004, 0), (0x000008, s.statusWord),
          (0x00000C, s.rawLen.setWidth 32), (0x000010, s.payLen.setWidth 32), (0x000014, s.frmLen.setWidth 32),
          (0x000018, s.frmUsed.setWidth 32), (0x00001C, s.flistLen.setWidth 32), (0x000020, s.opa), (0x000024, s.opb),
          (0x000028, s.res0), (0x00002C, s.res1), (0x000030, s.res2),
          (0x000034, (BitVec.ofNat 9 s.pq.length).setWidth 32), (0x000038, s.pqSerial),
          (0x00003C, (0 : BitVec 6) ++ s.treeNodes ++ (0 : BitVec 7) ++ s.treeRoot)],
      registerWindow p.1 = true ∧ aligned p.1 = true ∧ s.readReg p.1.toNat = p.2 := by
  rw [← s.treeInfoWord_eq]
  simp only [List.forall_mem_cons]
  refine ⟨?_, ?_, ?_, ?_, ?_, ?_, ?_, ?_, ?_, ?_, ?_, ?_, ?_, ?_, ?_, ?_, List.forall_mem_nil _⟩
  all_goals exact ⟨rfl, rfl, rfl⟩

/-! ### The STATUS word -/

theorem getLsbD_flagBit (b : Bool) (k i : Nat) (hi : i < 32) : (flagBit b k).getLsbD i = (decide (i = k) && b) := by
  rcases Nat.lt_trichotomy i k with h | rfl | h
  · simp [flagBit, h, h.ne]
  · simp [flagBit, hi]
  · have h0 : i - k ≠ 0 := by omega
    simp [flagBit, h.ne', h0]

theorem State.getLsbD_statusWord (s : State) {i : Nat} (hi : i < 32) :
    s.statusWord.getLsbD i
      = (decide (i = 0) && s.isBusy || decide (i = 1) && s.done || decide (i = 2) && s.err || decide (i = 3) && s.anyErr
        || decide (i = 4) && s.treeValid || decide (i = 5) && s.dictValid
        || !decide (i < 8) && s.code.toByte.getLsbD (i - 8) || !decide (i < 16) && s.lastOp.getLsbD (i - 16)) := by
  have h8 : i - 8 < 32 := by omega
  have h16 : i - 16 < 32 := by omega
  simp only [State.statusWord, BitVec.getLsbD_or, getLsbD_flagBit _ _ _ hi, BitVec.getLsbD_shiftLeft,
    BitVec.getLsbD_setWidth, hi, h8, h16, decide_true, Bool.true_and]

/-- From bit 6 on, STATUS holds CODE and LAST_OP alone (10_state R26). -/
theorem State.getLsbD_statusWord_fields (s : State) {i : Nat} (h6 : 6 ≤ i) (hi : i < 32) :
    s.statusWord.getLsbD i
      = (!decide (i < 8) && s.code.toByte.getLsbD (i - 8) || !decide (i < 16) && s.lastOp.getLsbD (i - 16)) := by
  rw [s.getLsbD_statusWord hi]
  simp [show i ≠ 0 by omega, show i ≠ 1 by omega, show i ≠ 2 by omega, show i ≠ 3 by omega, show i ≠ 4 by omega,
    show i ≠ 5 by omega]

theorem State.statusWord_gap (s : State) : s.statusWord.extractLsb' 6 2 = 0 := by
  apply BitVec.eq_of_getLsbD_eq
  intro i hi
  rw [BitVec.getLsbD_extractLsb', s.getLsbD_statusWord_fields (by omega) (by omega)]
  simp [show 6 + i < 8 by omega, show 6 + i < 16 by omega]

theorem State.statusWord_code (s : State) : s.statusWord.extractLsb' 8 8 = s.code.toByte := by
  apply BitVec.eq_of_getLsbD_eq
  intro i hi
  rw [BitVec.getLsbD_extractLsb', s.getLsbD_statusWord_fields (by omega) (by omega)]
  simp [hi, show 8 + i < 16 by omega]

theorem State.statusWord_lastOp (s : State) : s.statusWord.extractLsb' 16 8 = s.lastOp := by
  apply BitVec.eq_of_getLsbD_eq
  intro i hi
  have hc : s.code.toByte.getLsbD (16 + i - 8) = false := BitVec.getLsbD_of_ge _ _ (by omega)
  rw [BitVec.getLsbD_extractLsb', s.getLsbD_statusWord_fields (by omega) (by omega)]
  simp [hi, hc]

theorem State.statusWord_top (s : State) : s.statusWord.extractLsb' 24 8 = 0 := by
  apply BitVec.eq_of_getLsbD_eq
  intro i hi
  have hc : s.code.toByte.getLsbD (24 + i - 8) = false := BitVec.getLsbD_of_ge _ _ (by omega)
  have hl : s.lastOp.getLsbD (24 + i - 16) = false := BitVec.getLsbD_of_ge _ _ (by omega)
  rw [BitVec.getLsbD_extractLsb', s.getLsbD_statusWord_fields (by omega) (by omega)]
  simp [hc, hl]

end Sys2Proof.Machine

open Sys2Proof Sys2Proof.Machine

/-- Settles O4: on a busy block with no host turn to take, the step is the engine's. -/
theorem stepRunsTheDecodedCommand : Obligations.StepRunsTheDecodedCommand := by
  intro s w turns i hb ht hd
  have he : engineStep w s = exec i s := by simp only [engineStep, hd]
  rw [← he, step, hb]
  rcases ht with hh | rfl
  · simp only [busyStep, hh]
  · cases hh : s.host <;> simp only [busyStep, hh]

/-- Settles O5: the write reaches the register CMD, and the turns drawn are the free value of this draw. -/
theorem cmdWriteStartsCommand : Obligations.CmdWriteStartsCommand := by
  intro s w rest he hh
  exact ⟨_, _, step_writeReg he hh (by decide) (by decide)⟩

/-- Settles O8: each flag stands at its bit, CODE and LAST_OP in their bytes, and the table has a row for each code. -/
theorem statusWordFields : Obligations.StatusWordFields := by
  refine ⟨fun s => ?_, fun c => by cases c <;> decide⟩
  refine ⟨?_, ?_, ?_, ?_, ?_, ?_, s.statusWord_gap, s.statusWord_code, s.statusWord_lastOp, s.statusWord_top⟩ <;>
  · rw [s.getLsbD_statusWord (by decide)]
    simp

/-- Settles O17: the register window reads and writes its registers, the narrow ones by their low bits. -/
theorem hostRegistersReadBack : Obligations.HostRegistersReadBack := by
  intro s w rest he
  have hwin : ∀ a : Addr, a.toNat ≤ 0x0FF → registerWindow a = true := fun a h => by simp [registerWindow]; omega
  refine ⟨fun hh => ⟨_, step_writeReg he hh rfl rfl, rfl, rfl⟩,
    fun hh => ⟨_, step_writeReg he hh rfl rfl, rfl, rfl⟩,
    fun hh => ⟨_, step_writeReg he hh rfl rfl, rfl, setWidth_setWidth_mask w 17 (by decide)⟩,
    fun hh => ⟨_, step_writeReg he hh rfl rfl, rfl, setWidth_setWidth_mask w 17 (by decide)⟩,
    fun hh => ⟨_, step_writeReg he hh rfl rfl, rfl, setWidth_setWidth_mask w 17 (by decide)⟩,
    fun hh => ⟨_, step_writeReg he hh rfl rfl, rfl, setWidth_setWidth_mask w 9 (by decide)⟩,
    fun a v hm hh => ?_, fun a h1 h2 h4 => ⟨fun hh => ?_, fun hh => ?_⟩⟩
  · obtain ⟨hw, ha, hv⟩ := s.readReg_named (a, v) hm
    rw [step_readReg he hh hw ha, hv]
  · rw [step_readReg he hh (hwin a h2) (by simp [aligned, h4]), s.readReg_reserved h1]
  · rw [step_writeReg he hh (hwin a h2) (by simp [aligned, h4]), State.writeReg_reserved _ h1]
end

section
/-! PROOFS. The host port outside the register window: what each access does on an idle block, byte by byte and word
by word (20_memory R61 to R72). -/

namespace Sys2Proof.Machine

/-! ### Each access on an idle block -/

theorem registerWindow_eq_false {a : Addr} (h : 0x100 ≤ a.toNat) : registerWindow a = false := by
  simp [registerWindow, h]

theorem registerWindow_eq_true {a : Addr} (h : a.toNat ≤ 0xFF) : registerWindow a = true := by
  simp [registerWindow, Nat.lt_succ_of_le h]

theorem aligned_eq_true {a : Addr} (h : a.toNat % 4 = 0) : aligned a = true := by simp [aligned, h]

theorem aligned_eq_false {a : Addr} (h : a.toNat % 4 ≠ 0) : aligned a = false := by simp [aligned, h]

section
variable {s : State} {a : Addr} {rest : List HostTurn}

theorem step_readByte (he : s.eng = .idle) (hh : s.host = .access (.rd8 a) :: rest) (ha : 0x100 ≤ a.toNat) :
    step s = .next { s with host := rest, reads := s.reads ++ [.byte (s.portByte a.toNat)] } := by
  rw [step_access he hh, State.hostAccess, registerWindow_eq_false ha]
  rfl

theorem step_writeByte {v : Byte} (he : s.eng = .idle) (hh : s.host = .access (.wr8 a v) :: rest)
    (ha : 0x100 ≤ a.toNat) : step s = .next (State.writePortByte { s with host := rest } a.toNat v) := by
  rw [step_access he hh, State.hostAccess, registerWindow_eq_false ha]
  rfl

theorem step_readWord (he : s.eng = .idle) (hh : s.host = .access (.rd32 a) :: rest) (h4 : a.toNat % 4 = 0) :
    step s = .next { s with host := rest, reads := s.reads ++ [.word (s.readWord a)] } := by
  rw [step_access he hh, State.hostAccess, if_pos (aligned_eq_true h4)]
  rfl

theorem step_writeWord {w : Word} (he : s.eng = .idle) (hh : s.host = .access (.wr32 a w) :: rest)
    (h4 : a.toNat % 4 = 0) : step s = .next (State.writeWord { s with host := rest } a w) := by
  rw [step_access he hh, State.hostAccess, if_pos (aligned_eq_true h4)]

end

/-! ### Addresses that ignore writes -/

/-- A host write to the address can change something: it is a buffer byte or a byte of FLIST
(`State.writePortByte_of_not_writable`). -/
def writable (a : Nat) : Prop := bufferAddress a ∨ (0x061000 ≤ a ∧ a ≤ 0x0617FF)

/-- The three buffers, by their addresses (R61). -/
theorem bufferAddress_iff (a : Nat) :
    bufferAddress a
      ↔ (0x010000 ≤ a ∧ a ≤ 0x01FFFF) ∨ (0x020000 ≤ a ∧ a ≤ 0x02FFFF) ∨ (0x040000 ≤ a ∧ a ≤ 0x050509) := by
  simp only [bufferAddress, Buffer.holds, Buffer.base, Buffer.size, Config.frmCap]
  omega

theorem State.writePortByte_of_not_writable (s : State) {a : Nat} (h : ¬ writable a) (v : Byte) :
    s.writePortByte a v = s :=
  s.writePortByte_other (fun hb => h (.inl hb)) (fun hf => h (.inr hf)) v

theorem State.writeWord_of_not_writable (s : State) {a : Addr} (ha : 0x100 ≤ a.toNat)
    (h : ∀ k < 4, ¬ writable (a.toNat + k)) (w : Word) : s.writeWord a w = s := by
  have h0 : ¬ writable a.toNat := h 0 (by decide)
  have h1 := h 1 (by decide)
  have h2 := h 2 (by decide)
  have h3 := h 3 (by decide)
  simp only [State.writeWord, registerWindow_eq_false ha, Bool.false_eq_true, if_false,
    State.writePortByte_of_not_writable _ h0, State.writePortByte_of_not_writable _ h1,
    State.writePortByte_of_not_writable _ h2, State.writePortByte_of_not_writable _ h3]

theorem not_writable_of_readOnly {a : Nat}
    (h : (0x060000 ≤ a ∧ a ≤ 0x0603FF) ∨ (0x062000 ≤ a ∧ a ≤ 0x0627FF) ∨ (0x064000 ≤ a ∧ a ≤ 0x0647FB)) :
    ¬ writable a := by
  rw [writable, bufferAddress_iff]
  omega

/-- The read-only registers ignore a word written to them (R71). -/
theorem State.writeReg_readOnly (s : State) (w : Word) :
    ∀ a ∈ [(0x000000 : Addr), 0x000008, 0x000018, 0x000028, 0x00002C, 0x000030, 0x000034, 0x000038, 0x00003C],
      registerWindow a = true ∧ aligned a = true ∧ s.writeReg a.toNat w = s := by
  simp only [List.forall_mem_cons]
  refine ⟨?_, ?_, ?_, ?_, ?_, ?_, ?_, ?_, ?_, List.forall_mem_nil _⟩
  all_goals exact ⟨rfl, rfl, rfl⟩

section
variable {a : Nat} (h : ¬ mapped a)
include h

/-- The register window is mapped, so an unmapped address lies past it. -/
theorem le_of_not_mapped : 0x100 ≤ a := by
  rw [mapped] at h
  omega

theorem not_writable_of_not_mapped : ¬ writable a := by
  rw [mapped] at h
  rw [writable, bufferAddress_iff]
  omega

theorem State.portByte_of_not_mapped (s : State) : s.portByte a = 0 := by
  rw [mapped] at h
  exact s.portByte_other (by rw [bufferAddress_iff]; omega) (by omega) (by omega) (by omega) (by omega)

end

/-! ### Words and their bytes -/

theorem State.readWord_eq_wordOf (s : State) {a : Addr} (ha : 0x100 ≤ a.toNat) :
    s.readWord a = wordOf (s.portByte a.toNat) (s.portByte (a.toNat + 1)) (s.portByte (a.toNat + 2))
      (s.portByte (a.toNat + 3)) := by
  rw [State.readWord, registerWindow_eq_false ha]
  rfl

/-- A word read outside the register window has its four bytes in order (R64, R65). -/
theorem State.byteOf_readWord (s : State) {a : Addr} (ha : 0x100 ≤ a.toNat) {k : Nat} (hk : k < 4) :
    byteOf (s.readWord a) k = s.portByte (a.toNat + k) := by
  obtain ⟨h0, h1, h2, h3⟩ := byteOf_wordOf (s.portByte a.toNat) (s.portByte (a.toNat + 1)) (s.portByte (a.toNat + 2))
    (s.portByte (a.toNat + 3))
  rw [s.readWord_eq_wordOf ha]
  interval_cases k <;> assumption

/-- A word read is fixed by its four bytes. -/
theorem State.readWord_eq_of_bytes (s : State) {a : Addr} (ha : 0x100 ≤ a.toNat) {v : Word}
    (h : ∀ k < 4, s.portByte (a.toNat + k) = byteOf v k) : s.readWord a = v := by
  have h0 : s.portByte a.toNat = byteOf v 0 := h 0 (by decide)
  rw [s.readWord_eq_wordOf ha, h0, h 1 (by decide), h 2 (by decide), h 3 (by decide), wordOf_byteOf]

/-- A byte written to a buffer reads back, and every other byte of the port reads as before. -/
theorem State.portByte_writePortByte_of_buffer (s : State) {a : Nat} (ha : bufferAddress a) (v : Byte) (b : Nat) :
    (s.writePortByte a v).portByte b = if b = a then v else s.portByte b := by
  split
  · next hb =>
    subst hb
    rw [State.portByte_buffer _ ha, State.memByte_writePortByte, if_pos ⟨rfl, ha⟩]
  · next hb =>
    have hm : (s.writePortByte a v).memByte b = s.memByte b := by
      rw [State.memByte_writePortByte, if_neg fun h => hb h.1]
    rw [s.writePortByte_buffer ha] at hm ⊢
    exact State.portByte_congr hm rfl rfl rfl rfl

/-- An aligned word write leaves every byte outside the word as it was. -/
theorem State.portByte_writeWord_outside (s : State) {a : Addr} (ha : 0x100 ≤ a.toNat) (h4 : a.toNat % 4 = 0)
    (w : Word) {b : Nat} (hb : b < a.toNat ∨ a.toNat + 4 ≤ b) : (s.writeWord a w).portByte b = s.portByte b := by
  simp only [State.writeWord, registerWindow_eq_false ha, Bool.false_eq_true, if_false]
  rw [State.portByte_writePortByte_ne _ (by omega), State.portByte_writePortByte_ne _ (by omega),
    State.portByte_writePortByte_ne _ (by omega), State.portByte_writePortByte_ne _ (by omega)]

/-! ### The words of the table windows (R67 to R70) -/

theorem windowByte_word (words : Nat → Word) (i : Nat) {k : Nat} (hk : k < 4) :
    windowByte words (4 * i + k) = byteOf (words i) k := by
  rw [windowByte, show (4 * i + k) / 4 = i by omega, show (4 * i + k) % 4 = k by omega]

/-- A word read of a window whose bytes are those of `words` is a word of `words`. -/
theorem State.readWord_of_window (s : State) {n i : Nat} {words : Nat → Word} (h0 : 0x100 ≤ n) (h1 : n < 2 ^ 24)
    (h : ∀ k < 4, s.portByte (n + k) = windowByte words (4 * i + k)) : s.readWord (BitVec.ofNat 24 n) = words i := by
  have hn : (BitVec.ofNat 24 n).toNat = n := (BitVec.toNat_ofNat ..).trans (Nat.mod_eq_of_lt h1)
  refine s.readWord_eq_of_bytes (by rwa [hn]) fun k hk => ?_
  rw [hn, h k hk, windowByte_word words i hk]

theorem State.readWord_fcnt (s : State) {i : Nat} (hi : i < 256) :
    s.readWord (BitVec.ofNat 24 (0x060000 + 4 * i)) = s.fcntWord i :=
  s.readWord_of_window (by omega) (by omega) fun k hk => by
    rw [s.portByte_fcnt (by omega), show (0x060000 + 4 * i + k) % 0x400 = 4 * i + k by omega]

theorem State.readWord_flist (s : State) {i : Nat} (hi : i < 512) :
    s.readWord (BitVec.ofNat 24 (0x061000 + 4 * i)) = s.flistWord i :=
  s.readWord_of_window (by omega) (by omega) fun k hk => by
    rw [s.portByte_flist (by omega), show (0x061000 + 4 * i + k) % 0x800 = 4 * i + k by omega]

theorem State.readWord_dict (s : State) {i : Nat} (hi : i < 512) :
    s.readWord (BitVec.ofNat 24 (0x062000 + 4 * i)) = s.dictWord i :=
  s.readWord_of_window (by omega) (by omega) fun k hk => by
    rw [s.portByte_dict (by omega), show (0x062000 + 4 * i + k) % 0x800 = 4 * i + k by omega]

theorem State.readWord_tree (s : State) {i : Nat} (hi : i < 511) :
    s.readWord (BitVec.ofNat 24 (0x064000 + 4 * i)) = s.treeWord i :=
  s.readWord_of_window (by omega) (by omega) fun k hk => by
    rw [s.portByte_tree (by omega), show (0x064000 + 4 * i + k) % 0x800 = 4 * i + k by omega]

section
variable (s : State) {i : Nat} (hi : i < 256)

theorem State.fcntWord_eq : s.fcntWord i = (s.fcnt[i]).setWidth 32 := by
  simp [State.fcntWord, hi]

theorem State.flistWord_even : s.flistWord (2 * i) = (s.flist[i]).sym.setWidth 32 := by
  simp [State.flistWord, hi]

theorem State.flistWord_odd : s.flistWord (2 * i + 1) = (s.flist[i]).count := by
  simp [State.flistWord, hi, show (2 * i + 1) / 2 = i by omega, Nat.add_mod]

theorem State.dictWord_even : s.dictWord (2 * i) = (s.dict[i]).lowWord := by
  simp [State.dictWord, hi]

theorem State.dictWord_odd : s.dictWord (2 * i + 1) = (s.dict[i]).highWord := by
  simp [State.dictWord, hi, show (2 * i + 1) / 2 = i by omega, Nat.add_mod]

end

theorem State.treeWord_eq (s : State) {i : Nat} (hi : i < 511) : s.treeWord i = (s.tree[i]).toWord := by
  simp [State.treeWord, hi]

theorem DictEntry.lowWord_eq (e : DictEntry) : e.lowWord = e.pattern.extractLsb' 0 32 :=
  BitVec.setWidth_eq_extractLsb' (by decide)

/-- The fields of word 1 of a DICT entry, bit by bit (R70). -/
theorem DictEntry.getLsbD_highWord (e : DictEntry) {i : Nat} (hi : i < 32) :
    e.highWord.getLsbD i
      = if i < 24 then e.pattern.getLsbD (32 + i)
        else if i < 30 then e.width.getLsbD (i - 24)
        else decide (i = 31) && e.present := by
  rw [DictEntry.highWord, BitVec.getLsbD_append, BitVec.getLsbD_append, BitVec.getLsbD_append]
  by_cases h24 : i < 24
  · simp [h24]
  · by_cases h30 : i < 30
    · simp [h24, h30, show i - 24 < 6 by omega]
    · obtain rfl | rfl : i = 30 ∨ i = 31 := by omega
      · simp
      · simp

theorem DictEntry.highWord_pattern (e : DictEntry) : e.highWord.extractLsb' 0 24 = e.pattern.extractLsb' 32 24 := by
  apply BitVec.eq_of_getLsbD_eq
  intro i hi
  rw [BitVec.getLsbD_extractLsb', e.getLsbD_highWord (by omega)]
  simp [hi]

theorem DictEntry.highWord_width (e : DictEntry) : e.highWord.extractLsb' 24 6 = e.width := by
  apply BitVec.eq_of_getLsbD_eq
  intro i hi
  rw [BitVec.getLsbD_extractLsb', e.getLsbD_highWord (by omega)]
  simp [hi, show 24 + i < 30 by omega]

/-! ### Byte writes to FLIST (R69) -/

theorem getLsbD_setByteOf (v : Word) (k : Nat) (b : Byte) {i : Nat} (hi : i < 32) :
    (setByteOf v k b).getLsbD i = if 8 * k ≤ i ∧ i < 8 * k + 8 then b.getLsbD (i - 8 * k) else v.getLsbD i := by
  simp only [setByteOf, show (0xFF : Word) = (BitVec.allOnes 8).setWidth 32 from rfl, BitVec.getLsbD_or,
    BitVec.getLsbD_and, BitVec.getLsbD_not, BitVec.getLsbD_shiftLeft, BitVec.getLsbD_setWidth, BitVec.getLsbD_allOnes]
  by_cases h1 : i < 8 * k
  · simp [hi, h1, show ¬ 8 * k ≤ i by omega]
  · by_cases h2 : i < 8 * k + 8
    · simp [hi, h1, h2, show 8 * k ≤ i by omega, show i - 8 * k < 8 by omega, show i - 8 * k < 32 by omega]
    · have hb : b.getLsbD (i - 8 * k) = false := BitVec.getLsbD_of_ge _ _ (by omega)
      simp [hi, hb, h1, h2, show ¬ i - 8 * k < 8 by omega]

theorem byteOf_setByteOf (v : Word) {k j : Nat} (hj : j < 4) (b : Byte) :
    byteOf (setByteOf v k b) j = if k = j then b else byteOf v j := by
  apply BitVec.eq_of_getLsbD_eq
  intro i hi
  rw [getLsbD_byteOf, getLsbD_setByteOf v k b (by omega)]
  by_cases h : k = j
  · subst h
    simp [hi]
  · rw [if_neg (by omega), if_neg h, getLsbD_byteOf]

theorem FreqEntry.setByte_sym (e : FreqEntry) (k : Nat) (b : Byte) :
    (e.setByte k b).sym = if k = 0 then b else e.sym := by
  unfold FreqEntry.setByte
  split_ifs <;> rfl

theorem FreqEntry.byteOf_setByte_count (e : FreqEntry) (k : Nat) (b : Byte) {j : Nat} (hj : j < 4) :
    byteOf (e.setByte k b).count j = if k = j + 4 then b else byteOf e.count j := by
  unfold FreqEntry.setByte
  by_cases h : k < 4
  · rw [if_neg (show k ≠ j + 4 by omega)]
    split_ifs <;> rfl
  · rw [if_neg (show k ≠ 0 by omega), if_neg h, byteOf_setByteOf _ hj]
    simp only [show k - 4 = j ↔ k = j + 4 by omega]

end Sys2Proof.Machine

open Sys2Proof Sys2Proof.Machine

/-- Settles O15: a misfit access is refused before its address is looked up. -/
theorem misfitAccessesAreRefused : Obligations.MisfitAccessesAreRefused := by
  intro s a v w rest he
  refine ⟨fun ha => ⟨fun hh => ?_, fun hh => ?_⟩, fun h4 => ⟨fun hh => ?_, fun hh => ?_⟩⟩ <;>
    rw [step_access he hh, State.hostAccess]
  · rw [if_pos (registerWindow_eq_true ha)]
  · rw [if_pos (registerWindow_eq_true ha)]
  · rw [aligned_eq_false h4]
    rfl
  · rw [aligned_eq_false h4]
    rfl

/-- Settles O12: an unmapped byte is in no window that is read and at no address that is written. -/
theorem unmappedReadsZeroIgnoresWrites : Obligations.UnmappedReadsZeroIgnoresWrites := by
  intro s a v w rest he hm
  have ha := le_of_not_mapped hm
  refine ⟨fun hh => ?_, fun hh => ?_, fun h4 hk => ⟨fun hh => ?_, fun hh => ?_⟩⟩
  · rw [step_readByte he hh ha, State.portByte_of_not_mapped hm]
  · rw [step_writeByte he hh ha, State.writePortByte_of_not_writable _ (not_writable_of_not_mapped hm)]
  · have h0 : s.readWord a = 0 := s.readWord_eq_of_bytes ha fun k h => by
      simp [State.portByte_of_not_mapped (hk k h), byteOf]
    rw [step_readWord he hh h4, h0]
  · rw [step_writeWord he hh h4,
      State.writeWord_of_not_writable _ ha fun k h => not_writable_of_not_mapped (hk k h)]

/-- Settles O13: the byte read is `portByte`, which is the buffer's byte in a buffer and a byte of its word elsewhere. -/
theorem bufferByteWriteReadsBack : Obligations.BufferByteWriteReadsBack := by
  refine ⟨fun s a rest he ha hh => step_readByte he hh ha, fun s => ⟨fun i hi => ?_, fun i hi => ?_, fun i hi => ?_,
    fun a _ ha k hk => (s.byteOf_readWord ha hk).symm⟩, fun s a v rest he hb hh => ?_⟩
  · exact s.portByte_buffer ((bufferAddress_iff _).2 (by omega))
  · exact s.portByte_buffer ((bufferAddress_iff _).2 (by omega))
  · exact s.portByte_buffer ((bufferAddress_iff _).2 (by omega))
  · have ha : 0x100 ≤ a.toNat := by
      rw [bufferAddress_iff] at hb
      omega
    refine ⟨_, step_writeByte he hh ha, ?_, ?_, fun b hba => ?_⟩
    · rw [State.writePortByte_buffer _ hb]
    · rw [State.portByte_writePortByte_of_buffer _ hb, if_pos rfl]
    · rw [State.portByte_writePortByte_of_buffer _ hb, if_neg hba]
      rfl

/-- Settles O14: a word read is the word of its four bytes, a word write the four byte writes in turn. -/
theorem wordAccessIsFourBytes : Obligations.WordAccessIsFourBytes := by
  intro s a rest he h4 ha
  have hw := registerWindow_eq_false ha
  refine ⟨fun hh => ⟨_, step_readWord he hh h4, fun k hk => s.byteOf_readWord ha hk⟩, fun w hh => ?_⟩
  refine ⟨_, step_writeWord he hh h4, State.writeWord_frame _ hw w, State.memByte_writeWord _ hw w, fun i hi => ?_,
    fun k hk hb => ?_, fun b hb => State.portByte_writeWord_outside _ ha h4 w hb⟩
  · rw [State.flist_writeWord _ hw h4 w i hi]
    exact ⟨rfl, rfl⟩
  · rw [State.portByte_buffer _ hb, State.memByte_writeWord _ hw, if_pos ⟨by omega, by omega, hb⟩,
      Nat.add_sub_cancel_left]

/-- Settles O16: the read-only registers fall through `writeReg`, and the read-only windows hold no writable byte. -/
theorem readOnlyIgnoresWrites : Obligations.ReadOnlyIgnoresWrites := by
  intro s rest he
  refine ⟨fun a w hm hh => ?_, fun a v w hwin => ⟨fun hh => ?_, fun h4 hh => ?_⟩⟩
  · obtain ⟨hw, ha, hs⟩ := State.writeReg_readOnly { s with host := rest } w a hm
    rw [step_writeReg he hh hw ha, hs]
  · rw [step_writeByte he hh (by omega), State.writePortByte_of_not_writable _ (not_writable_of_readOnly hwin)]
  · have hk : ∀ k < 4, ¬ writable (a.toNat + k) := fun k hk => not_writable_of_readOnly (by omega)
    rw [step_writeWord he hh h4, State.writeWord_of_not_writable _ (by omega) hk]

/-- Settles O18: each window is made of the words of its table, and a DICT or TREE word has the fields of R70 and R68. -/
theorem tableWordForms : Obligations.TableWordForms := by
  refine fun s => ⟨fun i hi => ?_, fun i hi => ⟨fun sym hs => ?_, fun zero one hs => ?_⟩⟩
  · have hf0 := s.readWord_flist (i := 2 * i) (by omega)
    have hf1 := s.readWord_flist (i := 2 * i + 1) (by omega)
    have hd0 := s.readWord_dict (i := 2 * i) (by omega)
    have hd1 := s.readWord_dict (i := 2 * i + 1) (by omega)
    rw [show 0x061000 + 4 * (2 * i) = 0x061000 + 8 * i by omega, s.flistWord_even hi] at hf0
    rw [show 0x061000 + 4 * (2 * i + 1) = 0x061000 + 8 * i + 4 by omega, s.flistWord_odd hi] at hf1
    rw [show 0x062000 + 4 * (2 * i) = 0x062000 + 8 * i by omega, s.dictWord_even hi, DictEntry.lowWord_eq] at hd0
    rw [show 0x062000 + 4 * (2 * i + 1) = 0x062000 + 8 * i + 4 by omega, s.dictWord_odd hi] at hd1
    refine ⟨(s.readWord_fcnt hi).trans (s.fcntWord_eq hi), hf0, hf1, hd0, ?_⟩
    rw [hd1]
    exact ⟨DictEntry.highWord_pattern _, DictEntry.highWord_width _, DictEntry.getLsbD_highWord _ (by decide),
      DictEntry.getLsbD_highWord _ (by decide)⟩
  · rw [s.readWord_tree hi, s.treeWord_eq hi, hs, Node.toWord]
  · rw [s.readWord_tree hi, s.treeWord_eq hi, hs, Node.toWord]

/-- Settles O19: the byte lies in entry `i` alone, at offset `k`. -/
theorem flistByteWrites : Obligations.FlistByteWrites := by
  intro s i k hi hk v rest he hh
  have hn : (BitVec.ofNat 24 (0x061000 + 8 * i + k)).toNat = 0x061000 + 8 * i + k :=
    (BitVec.toNat_ofNat ..).trans (Nat.mod_eq_of_lt (by omega))
  have hs := step_writeByte he hh (by omega)
  rw [hn] at hs
  have hf := State.flist_writePortByte { s with host := rest } (0x061000 + 8 * i + k) v
  have hfi := hf i hi
  rw [if_pos (by omega), Nat.add_sub_cancel_left] at hfi
  refine ⟨_, hs, ?_, fun j hj hne => ?_, ?_, fun b hb => ?_⟩
  · rw [State.writePortByte_flist _ (by omega)]
    rfl
  · rw [hf j hj, if_neg (by omega)]
  · rw [hfi, FreqEntry.setByte_sym]
  · rw [hfi, FreqEntry.byteOf_setByte_count _ _ _ hb]
end

section
/-! PROOFS. Command words: the decoder against the opcode map (30_encoding R80 to R82). -/

namespace Sys2Proof

open Sys2Proof.Machine

/-- A command's word is its OPCODE under zero reserved bits (30_encoding R80, R81). -/
theorem encode_eq_setWidth_specOpcode (i : Instr) : encode i = (specOpcode i).setWidth 32 := by cases i <;> rfl

/-- A word is a byte under zero bits exactly when its upper 24 bits are 0 and its low 8 bits are the byte. -/
theorem eq_setWidth_byte_iff {w : Word} {b : Byte} :
    w = b.setWidth 32 ↔ w.extractLsb' 8 24 = 0 ∧ w.setWidth 8 = b := by
  simp only [← BitVec.toNat_inj, BitVec.toNat_setWidth, BitVec.extractLsb'_toNat,
    Nat.shiftRight_eq_div_pow, BitVec.ofNat_eq_ofNat, BitVec.toNat_ofNat]
  have := w.isLt
  have := b.isLt
  omega

/-- Bits above the OPCODE make a word illegal, whatever its low byte is (30_encoding R82). -/
theorem decode_reserved {w : Word} (h : w.extractLsb' 8 24 ≠ 0) :
    decode w = .error (.reservedBitsSet (w.extractLsb' 8 24)) := if_pos h

end Sys2Proof

open Sys2Proof Sys2Proof.Machine

/-- Settles O2: the decoder reads a command from its own word alone, and that word is the OPCODE under zero bits. -/
theorem decodeSelectsTheTable : Obligations.DecodeSelectsTheTable := by
  refine ⟨fun w i => ?_, fun i _ => decode_encode i⟩
  rw [decode_eq_ok, encode_eq_setWidth_specOpcode, eq_setWidth_byte_iff]

/-- Settles O1: each of the thirteen words is the encoding of its command; the two others fail one check each. -/
theorem commandWordsDecode : Obligations.CommandWordsDecode :=
  ⟨decode_encode .nop, decode_encode .reset, decode_encode .faRun, decode_encode .pqClear, decode_encode .pqInsert,
    decode_encode .pqExtract, decode_encode .tbRun, decode_encode .dbRun, decode_encode .dictLookup,
    decode_encode .pkRun, decode_encode .upRun, decode_encode .encodeBlock, decode_encode .decodeFrame,
    decode_reserved (by decide), by decide⟩
end

section
/-! PROOFS. No code of a dictionary is the beginning of another (30_encoding R101). -/

namespace Sys2Proof.Machine

/-- Along one path there is one leaf: a code that begins another is the whole of it, with the same symbol. -/
theorem symbol_eq_of_code_begins {t : Vector Node 511} {n : BitVec 9} {p q : List Bool} {x y : Byte} (hp : isCodeOf t n p x)
    (hq : isCodeOf t n q y) (h : p <+: q) : x = y := by
  obtain ⟨rest, rfl⟩ := h
  obtain ⟨m, hm, hx⟩ := hp
  obtain ⟨k, hk, hy⟩ := hq
  rw [descend_append, hm, Option.bind_some] at hk
  exact ((isCodeOf_leaf hx).1 ⟨k, hk, hy⟩).2.symm

/-- DB_RUN of a tree within the width bound (43_dictionary R151, R153). -/
theorem dbRun_of_some {s : State} {d : Vector DictEntry 256} (hv : s.treeValid = true)
    (hd : dictOfTree s.tree s.treeRoot = some d) : dbRun s = (s.setDict d true).finish .ok := by
  simp [dbRun, hv, State.buildDict, hd]

/-- DB_RUN of a tree past the width bound (43_dictionary R152, R153). -/
theorem dbRun_of_none {s : State} (hv : s.treeValid = true) (hd : dictOfTree s.tree s.treeRoot = none) :
    dbRun s = (s.setDict emptyDict false).finish .dictOverflow := by
  simp [dbRun, hv, State.buildDict, hd]

/-- What DB_RUN does, said once (43_dictionary R151 to R153). -/
theorem dbRun_cases (s : State) :
    (s.treeValid = false ∧ dbRun s = s.raise .errNoTree)
      ∨ (s.treeValid = true ∧ ∃ d, dictOfTree s.tree s.treeRoot = some d ∧ dbRun s = (s.setDict d true).finish .ok)
      ∨ (s.treeValid = true ∧ dictOfTree s.tree s.treeRoot = none
        ∧ dbRun s = (s.setDict emptyDict false).finish .dictOverflow) := by
  cases hv : s.treeValid with
  | false => exact .inl ⟨rfl, if_pos hv⟩
  | true =>
    cases hd : dictOfTree s.tree s.treeRoot with
    | some d => exact .inr (.inl ⟨rfl, d, rfl, dbRun_of_some hv hd⟩)
    | none => exact .inr (.inr ⟨rfl, rfl, dbRun_of_none hv hd⟩)

/-- A symbol present in the dictionary of a tree has a code that leads to a leaf of it (43_dictionary R151). -/
theorem dictOfTree_present {t : Vector Node 511} {root : BitVec 9} {d : Vector DictEntry 256}
    (h : dictOfTree t root = some d) {sym : Byte} (hs : (dictAt d sym).present = true) :
    isCodeOf t root (dictAt d sym).codeBits sym := by
  rcases (dictOfTree_some h).2 sym with ⟨-, h2⟩ | ⟨bits, h1, h2⟩
  · simp [h2] at hs
  · rw [h2.codeBits]
    exact h1.1

end Sys2Proof.Machine

open Sys2Proof Sys2Proof.Machine

/-- Settles O34: two codes lead to leaves of the tree, and no path leads on from a leaf. -/
theorem codesDoNotBeginEachOther : Obligations.CodesDoNotBeginEachOther := by
  intro s t h hc x y hxy hx hy hpre
  cases h
  rcases dbRun_cases s with ⟨-, e⟩ | ⟨-, d, hd, e⟩ | ⟨-, -, e⟩
  · simp [e] at hc
  · simp only [e, State.finish_dict, State.setDict_dict] at hx hy hpre
    exact hxy (symbol_eq_of_code_begins (dictOfTree_present hd hx) (dictOfTree_present hd hy) hpre)
  · simp [e] at hc
end

section
/-! PROOFS. The symbols that occur in a block, as FA_RUN and ENCODE count them (41_frequency_analyzer R125, R128;
30_encoding R93). -/

namespace Sys2Proof.Machine

/-- FLIST_LEN is the number of symbols with a count (41_frequency_analyzer R125). -/
theorem occurring_countBytes {block : List Byte} (h : block.length ≤ Config.blockMax) :
    occurring (countBytes block) = ((List.range 256).filter fun i => block.count (BitVec.ofNat 8 i) ≠ 0).length := by
  rw [occurring, toList_counters, List.countP_map, List.countP_eq_length_filter]
  congr 2
  funext i
  have hi := toNat_counterAt_countBytes h (BitVec.ofNat 8 i)
  rw [Function.comp, bne, ← hi, Bool.eq_iff_iff]
  simp [← BitVec.toNat_inj]

/-- FLIST_LEN is the number of distinct symbols of the block. -/
theorem occurring_eq_card {block : List Byte} (h : block.length ≤ Config.blockMax) :
    occurring (countBytes block) = block.toFinset.card := by
  rw [occurring_countBytes h, ← List.length_map (BitVec.ofNat 8), ← List.toFinset_card_of_nodup]
  · congr 1
    ext b
    simp only [List.mem_toFinset, List.mem_map, List.mem_filter, List.mem_range, decide_eq_true_eq, ne_eq,
      List.count_eq_zero, not_not]
    constructor
    · rintro ⟨i, ⟨-, hi⟩, rfl⟩
      exact hi
    · exact fun hb => ⟨b.toNat, ⟨b.isLt, by simpa using hb⟩, by simp⟩
  · exact nodup_symbols.sublist (List.filter_sublist.map _)

/-- An entry of the frequency list holds the number of times its symbol occurs in the block. -/
theorem count_of_mem_sortedEntries {block : List Byte} (h : block.length ≤ Config.blockMax) {e : FreqEntry}
    (he : e ∈ sortedEntries (countBytes block)) : e.count.toNat = block.count e.sym := by
  have := (counterAt (countBytes block) e.sym).isLt
  rw [mem_sortedEntries.1 he, BitVec.toNat_setWidth, Nat.mod_eq_of_lt (by omega), toNat_counterAt_countBytes h]

/-- Every symbol of the block is among the first FLIST_LEN entries (41_frequency_analyzer R128 (b)). -/
theorem exists_entry_of_mem_block {block : List Byte} (h : block.length ≤ Config.blockMax) {b : Byte} (hb : b ∈ block) :
    ∃ e ∈ (sortedEntries (countBytes block)).take (occurring (countBytes block)), e.sym = b := by
  have he : (⟨b, (counterAt (countBytes block) b).setWidth 32⟩ : FreqEntry) ∈ sortedEntries (countBytes block) :=
    mem_sortedEntries.2 rfl
  have hc := count_of_mem_sortedEntries h he
  rw [← List.take_append_drop (occurring (countBytes block)) (sortedEntries (countBytes block)), List.mem_append] at he
  rcases he with he | he
  · exact ⟨_, he, rfl⟩
  · have h0 := (sortedEntries_split _).2 _ he
    exact absurd (hc.symm.trans h0) (List.count_pos_iff.2 hb).ne'

/-! ### The block in RAW -/

theorem State.length_block (s : State) : s.block.length = s.rawLen.toNat := State.length_bufBytes ..

theorem State.mem_block {s : State} {b : Byte} : b ∈ s.block ↔ ∃ k < s.rawLen.toNat, s.bufByte .raw k = b := by
  simp [State.block, State.bufBytes, State.blockLength]

theorem State.block_eq_nil {s : State} : s.block = [] ↔ s.rawLen = 0 := by
  rw [← List.length_eq_zero_iff, s.length_block, ← BitVec.toNat_inj]
  rfl

/-- FLIST_LEN after the analysis of the block. -/
theorem State.analyze_block_listLength (s : State) :
    (s.analyze s.blockLength).listLength = occurring (countBytes s.block) := s.analyze_listLength _

theorem State.analyze_listLength_le (s : State) (len : Nat) : (s.analyze len).listLength ≤ 256 :=
  (s.analyze_listLength len).trans_le (occurring_le _)

/-- No symbol occurs exactly in an empty block (41_frequency_analyzer R128 (d)). -/
theorem State.analyze_listLength_eq_zero {s : State} (h : s.blockLength ≤ Config.blockMax) :
    (s.analyze s.blockLength).listLength = 0 ↔ s.rawLen = 0 := by
  rw [s.analyze_block_listLength, occurring_eq_zero (s.length_block.trans_le h), State.block_eq_nil]

/-- One symbol occurs exactly in a block of one byte value. -/
theorem State.analyze_listLength_eq_one {s : State} (h : s.blockLength ≤ Config.blockMax) :
    (s.analyze s.blockLength).listLength = 1
      ↔ s.rawLen ≠ 0 ∧ ∀ k < s.rawLen.toNat, s.bufByte .raw k = s.bufByte .raw 0 := by
  rw [s.analyze_block_listLength, occurring_eq_card (s.length_block.trans_le h), Finset.card_eq_one]
  have hpos : s.rawLen ≠ 0 ↔ 0 < s.rawLen.toNat := by
    rw [ne_eq, ← BitVec.toNat_inj]
    exact Nat.pos_iff_ne_zero.symm
  simp only [Finset.ext_iff, List.mem_toFinset, State.mem_block, Finset.mem_singleton, hpos]
  constructor
  · rintro ⟨a, ha⟩
    have hall : ∀ k < s.rawLen.toNat, s.bufByte .raw k = a := fun k hk => (ha _).1 ⟨k, hk, rfl⟩
    obtain ⟨k, hk, -⟩ := (ha a).2 rfl
    have h0 : 0 < s.rawLen.toNat := by omega
    exact ⟨h0, fun j hj => (hall j hj).trans (hall 0 h0).symm⟩
  · rintro ⟨h0, hall⟩
    exact ⟨s.bufByte .raw 0, fun b => ⟨fun ⟨k, hk, e⟩ => e.symm.trans (hall k hk), fun e => ⟨0, h0, e.symm⟩⟩⟩

/-- Two symbols occur or more in any other block. -/
theorem State.two_le_listLength {s : State} (h : s.blockLength ≤ Config.blockMax)
    (hne : ¬ ∀ k < s.rawLen.toNat, s.bufByte .raw k = s.bufByte .raw 0) :
    2 ≤ (s.analyze s.blockLength).listLength := by
  have hpos : s.rawLen ≠ 0 := fun h0 => hne fun k hk => by simp [h0] at hk
  have h0 := mt (State.analyze_listLength_eq_zero h).1 hpos
  have h1 := mt (State.analyze_listLength_eq_one h).1 fun ⟨_, hall⟩ => hne hall
  omega

end Sys2Proof.Machine
end

section
/-! PROOFS. ENCODE against FA_RUN, TB_RUN, DB_RUN and PK_RUN run in turn (46_block_codec R196, R198). -/

namespace Sys2Proof.Machine

/-! ### The units' commands -/

/-- FA_RUN of a block of legal length (41_frequency_analyzer R126). -/
theorem exec_faRun {s : State} (h : s.blockLength ≤ Config.blockMax) :
    exec .faRun s = .next ((s.analyze s.blockLength).finish .ok) :=
  congrArg Host.Outcome.next (if_neg (Nat.not_lt.2 h))

/-- TB_RUN of a list it accepts (42_tree_builder R139). -/
theorem tbRun_eq {s : State} {n : Nat} (hn : s.listLength = n) (h0 : 1 ≤ n) (h1 : n ≤ 256)
    (h2 : s.countSum n ≤ Config.countMax) : tbRun s = (s.buildTree n).finish .ok := by
  subst hn
  have h1' : ¬ Config.alphabet < s.listLength := Nat.not_lt.2 h1
  rw [tbRun, if_neg (by omega), if_neg h1', if_neg (Nat.not_lt.2 h2)]

/-- PK_RUN of a block of legal length with a dictionary (44_bit_packer R169). -/
theorem pkRun_eq {s : State} (h : s.blockLength ≤ Config.blockMax) (hv : s.dictValid = true) :
    pkRun s = (s.pack s.blockLength).finish (if s.packOverflows s.blockLength then .packOverflow else .ok) := by
  rw [pkRun, if_neg (Nat.not_lt.2 h), if_neg (by simp [hv])]

/-! ### The tree ENCODE builds -/

/-- The counts that TB_RUN adds up after FA_RUN are the block's length (41_frequency_analyzer R128 (a)). -/
theorem State.countSum_analyze {s : State} (h : s.blockLength ≤ Config.blockMax) {n : Nat}
    (hn : (s.analyze s.blockLength).listLength = n) : (s.analyze s.blockLength).countSum n = s.blockLength := by
  subst hn
  rw [State.countSum, State.analyze_entries, State.analyze_listLength]
  exact (sum_take_sortedEntries (s.length_block.trans_le h)).trans s.length_block

/-- TB_RUN after FA_RUN builds the tree that ENCODE builds (46_block_codec R198). -/
theorem exec_tbRun_analyze {s : State} (h : s.blockLength ≤ Config.blockMax) {n : Nat}
    (hn : (s.analyze s.blockLength).listLength = n) (h0 : 1 ≤ n) (h1 : n ≤ 256) :
    exec .tbRun ((s.analyze s.blockLength).finish .ok) = .next ((s.encodeBuilt n).finish .ok) := by
  have hsum : ((s.analyze s.blockLength).finish .ok).countSum n ≤ Config.countMax :=
    (s.countSum_analyze h hn).trans_le h
  obtain ⟨t, hb, rfl, -⟩ := ((s.analyze s.blockLength).finish .ok).buildTree_spec h0 h1
  have htb := tbRun_eq (s := (s.analyze s.blockLength).finish .ok) hn h0 h1 hsum
  rw [hb] at htb
  exact congrArg Host.Outcome.next htb

/-- What the tree of ENCODE is (42_tree_builder R136, R137): one tree whose leaves are the symbols of the block, its
root an internal node when two symbols occur or more. -/
theorem State.encodeBuilt_tree (s : State) {n : Nat} (h0 : 1 ≤ n) (h1 : n ≤ 256) :
    TreeWf (s.encodeBuilt n).tree (s.encodeBuilt n).treeRoot (2 * n - 1)
      ∧ (∀ e ∈ (s.analyze s.blockLength).entries n, ∃ i < n, (s.encodeBuilt n).tree[i]? = some (.leaf e.sym))
      ∧ (2 ≤ n → ∃ z o, nodeAt (s.encodeBuilt n).tree (s.encodeBuilt n).treeRoot = .internal z o) := by
  obtain ⟨t, -, rfl, hwf, hleaf, hint, -⟩ := (s.analyze s.blockLength).buildTree_spec h0 h1
  refine ⟨hwf, fun e he => ?_, fun h2 => ?_⟩
  · obtain ⟨i, hi, rfl⟩ := List.getElem_of_mem he
    have hin : i < n := by rwa [State.length_entries h1] at hi
    refine ⟨i, hin, (hleaf i hin).trans ?_⟩
    simp [State.entries]
  · obtain ⟨z, o, hz⟩ := hint (2 * n - 2) (by omega) (by omega)
    have hroot : (s.encodeBuilt n).treeRoot.toNat = 2 * n - 2 :=
      (BitVec.toNat_ofNat ..).trans (Nat.mod_eq_of_lt (by omega))
    have hnode : (s.encodeBuilt n).tree[2 * n - 2]? = some (.internal z o) := hz
    exact ⟨z, o, by rw [nodeAt_eq, hroot, hnode, Option.getD_some]⟩

/-- Every symbol of the block has a code in the dictionary ENCODE builds, of one bit at least when two symbols occur or
more (43_dictionary R156). -/
theorem State.codeBits_ne_nil {s : State} (h : s.blockLength ≤ Config.blockMax) {n : Nat}
    (hn : (s.analyze s.blockLength).listLength = n) (h2 : 2 ≤ n) (h1 : n ≤ 256) {d : Vector DictEntry 256}
    (hd : dictOfTree (s.encodeBuilt n).tree (s.encodeBuilt n).treeRoot = some d) {b : Byte} (hb : b ∈ s.block) :
    (dictAt d b).codeBits ≠ [] := by
  obtain ⟨hwf, hleaf, hroot⟩ := s.encodeBuilt_tree (n := n) (by omega) h1
  obtain ⟨z, o, hroot⟩ := hroot h2
  obtain ⟨e, he, rfl⟩ := exists_entry_of_mem_block (s.length_block.trans_le h) hb
  rw [← s.analyze_block_listLength, hn, State.block, ← State.analyze_entries] at he
  obtain ⟨i, hi, hsym⟩ := hleaf e he
  obtain ⟨-, hcode⟩ := dictOfTree_leaf hwf (by omega) hd (by omega) hsym
  obtain ⟨b, rest, hcons, -⟩ := (isCodeOf_internal hroot).1 hcode
  exact hcons ▸ List.cons_ne_nil b rest

end Sys2Proof.Machine
end

section
/-! PROOFS. ENCODE's outcomes and its raw frames (46_block_codec R195 to R198, 30_encoding R92). -/

namespace Sys2Proof.Machine

/-! ### Other buffers than the one written -/

theorem State.bufByte_putFrame_other (s : State) {b : Buffer} (hb : b ≠ .frm) (f : List Byte) {i : Nat}
    (hi : i < b.size) : (s.putFrame f).bufByte b i = s.bufByte b i := s.bufByte_fillBuf_other hb f hi

@[simp] theorem State.bufByte_finish (s : State) (c : Code) (b : Buffer) (i : Nat) :
    (s.finish c).bufByte b i = s.bufByte b i := rfl

@[simp] theorem State.bufByte_setDict (s : State) (d : Vector DictEntry 256) (v : Bool) (b : Buffer) (i : Nat) :
    (s.setDict d v).bufByte b i = s.bufByte b i := rfl

@[simp] theorem State.bufByte_encodeBuilt (s : State) (n : Nat) (b : Buffer) (i : Nat) :
    (s.encodeBuilt n).bufByte b i = s.bufByte b i := State.bufByte_of_mem (s.encodeBuilt_mem n) b i

theorem State.bufByte_pay_writeRaw (s : State) (len : Nat) {k : Nat} (hk : k < 65536) :
    (s.writeRaw len).bufByte .pay k = s.bufByte .pay k := s.bufByte_putFrame_other (by decide) _ hk

theorem State.bufByte_pay_writeCoded (s : State) (n len payLen : Nat) {k : Nat} (hk : k < 65536) :
    (s.writeCoded n len payLen).bufByte .pay k = s.bufByte .pay k := s.bufByte_putFrame_other (by decide) _ hk

theorem State.bufByte_pack_other (s : State) {b : Buffer} (hb : b ≠ .pay) (len : Nat) {i : Nat} (hi : i < b.size) :
    (s.pack len).bufByte b i = s.bufByte b i := s.bufByte_fillBuf_other hb _ hi

/-! ### The outcomes -/

/-- ENC_RAW_EMPTY says that no symbol occurs, ENC_RAW_SINGLE that one does (46_block_codec R196). -/
theorem encodeRun_code_iff {s : State} (h : s.blockLength ≤ Config.blockMax) {n : Nat}
    (hn : (s.analyze s.blockLength).listLength = n) :
    ((encodeRun s).code = .encRawEmpty ↔ n = 0) ∧ ((encodeRun s).code = .encRawSingle ↔ n = 1) := by
  rcases encodeRun_cases h n hn.symm with ⟨h0, e⟩ | ⟨h0, e⟩ | ⟨h0, -, -, e⟩ | ⟨h0, -, d, -, ⟨-, e⟩ | ⟨-, e⟩⟩ <;>
  · simp only [e, State.finish_code, reduceCtorEq, true_iff, false_iff]
    omega

/-- With fewer than two symbols ENCODE analyzes the block and stores it raw, and nothing else (46_block_codec R196). -/
theorem encodeRun_short {s : State} (h : s.blockLength ≤ Config.blockMax)
    (hn : (s.analyze s.blockLength).listLength < 2) :
    ∃ c, encodeRun s = ((s.analyze s.blockLength).writeRaw s.blockLength).finish c := by
  rcases encodeRun_cases h _ rfl with ⟨-, e⟩ | ⟨-, e⟩ | ⟨h0, -⟩ | ⟨h0, -⟩
  · exact ⟨_, e⟩
  · exact ⟨_, e⟩
  · omega
  · omega

/-- An outcome other than ENC_CODED comes with a raw frame of the block, which no unit has touched (46_block_codec
R196). -/
theorem encodeRun_raw {s : State} (h : s.blockLength ≤ Config.blockMax) (hc : (encodeRun s).code ≠ .encCoded) :
    ∃ (u : State) (c : Code), encodeRun s = (u.writeRaw s.blockLength).finish c
      ∧ ∀ k < 65536, u.bufByte .raw k = s.bufByte .raw k := by
  rcases encodeRun_cases h _ rfl with ⟨-, e⟩ | ⟨-, e⟩ | ⟨-, -, -, e⟩ | ⟨-, -, d, -, ⟨-, e⟩ | ⟨-, e⟩⟩
  · exact ⟨_, _, e, fun k _ => rfl⟩
  · exact ⟨_, _, e, fun k _ => rfl⟩
  · exact ⟨_, _, e, fun k _ => by simp⟩
  · exact ⟨_, _, e, fun k hk => by simp [State.bufByte_pack_other _ (show Buffer.raw ≠ .pay by decide) _ hk]⟩
  · rw [e] at hc
    exact absurd rfl hc

/-! ### The raw frame -/

/-- What a raw frame of the block holds in FRM (46_block_codec R195, 30_encoding R92). -/
theorem State.writeRaw_fields (s : State) {len : Nat} (h : len ≤ 65536) :
    (s.writeRaw len).frmLen.toNat = 6 + len ∧ (s.writeRaw len).bufLe16 .frm 0 = 0
      ∧ (s.writeRaw len).bufLe32 .frm 2 = BitVec.ofNat 32 len
      ∧ ∀ k < len, (s.writeRaw len).bufByte .frm (6 + k) = s.bufByte .raw k := by
  have hb := s.length_bufBytes .raw 0 len
  have hf : (rawFrame (s.bufBytes .raw 0 len)).length ≤ Config.frmCap := by
    rw [length_rawFrame, hb, Config.frmCap]
    omega
  obtain ⟨h1, h2, h3⟩ := State.rawFrame_fields (s.putFrame_holds hf)
  rw [hb] at h2
  refine ⟨?_, h1, h2, fun k hk => ?_⟩
  · rw [State.writeRaw, s.putFrame_frmLen hf, length_rawFrame, hb]
  · rw [State.writeRaw, State.holdsAt_iff.1 h3 k (by rwa [hb]), State.getElem_bufBytes, Nat.zero_add]

/-! ### After the tree -/

/-- ENCODE with the dictionary `d` built on the tree of `n` symbols (46_block_codec R196). -/
abbrev State.encodeDict (s : State) (n : Nat) (d : Vector DictEntry 256) : State := (s.encodeBuilt n).setDict d true

/-- ENCODE with the block packed by the dictionary `d` (46_block_codec R196). -/
abbrev State.encodePay (s : State) (n : Nat) (d : Vector DictEntry 256) : State := (s.encodeDict n d).pack s.blockLength

@[simp] theorem State.encodeBuilt_pq (s : State) (n : Nat) : (s.encodeBuilt n).pq = [] := rfl
@[simp] theorem State.encodeBuilt_treeValid (s : State) (n : Nat) : (s.encodeBuilt n).treeValid = true := rfl
@[simp] theorem State.encodeBuilt_fcnt (s : State) (n : Nat) :
    (s.encodeBuilt n).fcnt = (s.analyze s.blockLength).fcnt := rfl
@[simp] theorem State.encodeBuilt_flist (s : State) (n : Nat) :
    (s.encodeBuilt n).flist = (s.analyze s.blockLength).flist := rfl
@[simp] theorem State.encodeBuilt_flistLen (s : State) (n : Nat) :
    (s.encodeBuilt n).flistLen = (s.analyze s.blockLength).flistLen := rfl

/-- The block is still in RAW when ENCODE packs it. -/
theorem State.bufBytes_encodeBuilt (s : State) (n : Nat) (d : Vector DictEntry 256) (v : Bool) :
    ((s.encodeBuilt n).setDict d v).bufBytes .raw 0 s.blockLength = s.block := State.bufBytes_of_mem (by simp) ..

/-- The dictionary ENCODE packs with is well formed. -/
theorem State.dictWf_encodeBuilt {s : State} {n : Nat} {d : Vector DictEntry 256}
    (hd : dictOfTree (s.encodeBuilt n).tree (s.encodeBuilt n).treeRoot = some d) (v : Bool) :
    ((s.encodeBuilt n).setDict d v).DictWf := dictOfTree_wf hd

/-- Does ENCODE's packer overflow, in terms of the block's code bits (46_block_codec R197, 44_bit_packer R168). -/
theorem State.encodeBuilt_packOverflows (s : State) (n : Nat) {d : Vector DictEntry 256}
    (hd : dictOfTree (s.encodeBuilt n).tree (s.encodeBuilt n).treeRoot = some d) :
    (s.encodeDict n d).packOverflows s.blockLength = true ↔ 65536 ≤ ((streamBits d s.block).length + 7) / 8 := by
  rw [State.packOverflows_iff (State.dictWf_encodeBuilt hd true), s.bufBytes_encodeBuilt]
  rfl

theorem State.encodeBuilt_not_packOverflows (s : State) (n : Nat) {d : Vector DictEntry 256}
    (hd : dictOfTree (s.encodeBuilt n).tree (s.encodeBuilt n).treeRoot = some d) :
    (s.encodeDict n d).packOverflows s.blockLength = false ↔ ((streamBits d s.block).length + 7) / 8 < 65536 := by
  rw [← Bool.not_eq_true, s.encodeBuilt_packOverflows n hd, not_le]

/-- PK_RUN with the dictionary ENCODE builds packs the block that ENCODE packs. -/
theorem exec_pkRun_encodeDict {s : State} (h : s.blockLength ≤ Config.blockMax) (n : Nat) (d : Vector DictEntry 256) :
    exec .pkRun ((s.encodeDict n d).finish .ok)
      = .next ((s.encodePay n d).finish
          (if (s.encodeDict n d).packOverflows s.blockLength then .packOverflow else .ok)) := by
  have hl : ((s.encodeDict n d).finish .ok).blockLength = s.blockLength := by simp [State.blockLength]
  have hpk := pkRun_eq (s := (s.encodeDict n d).finish .ok) (hl.trans_le h) (by simp)
  rw [hl] at hpk
  exact congrArg Host.Outcome.next hpk

/-- ENCODE of a block of two symbols or more against the commands FA_RUN, TB_RUN, DB_RUN and PK_RUN run in turn
(46_block_codec R196, R198): they build the same tree and dictionary, and pack the same payload. -/
theorem encodeRun_units {s : State} (h : s.blockLength ≤ Config.blockMax) {n : Nat}
    (hn : (s.analyze s.blockLength).listLength = n) (h2 : 2 ≤ n) :
    exec .tbRun ((s.analyze s.blockLength).finish .ok) = .next ((s.encodeBuilt n).finish .ok)
      ∧ ((dictOfTree (s.encodeBuilt n).tree (s.encodeBuilt n).treeRoot = none
          ∧ exec .dbRun ((s.encodeBuilt n).finish .ok)
            = .next (((s.encodeBuilt n).setDict emptyDict false).finish .dictOverflow)
          ∧ encodeRun s = (((s.encodeBuilt n).setDict emptyDict false).writeRaw s.blockLength).finish .encRawDict)
        ∨ ∃ d, dictOfTree (s.encodeBuilt n).tree (s.encodeBuilt n).treeRoot = some d
          ∧ exec .dbRun ((s.encodeBuilt n).finish .ok) = .next ((s.encodeDict n d).finish .ok)
          ∧ ((65536 ≤ ((streamBits d s.block).length + 7) / 8
              ∧ exec .pkRun ((s.encodeDict n d).finish .ok) = .next ((s.encodePay n d).finish .packOverflow)
              ∧ encodeRun s = ((s.encodePay n d).writeRaw s.blockLength).finish .encRawPack)
            ∨ (((streamBits d s.block).length + 7) / 8 < 65536
              ∧ exec .pkRun ((s.encodeDict n d).finish .ok) = .next ((s.encodePay n d).finish .ok)
              ∧ encodeRun s = ((s.encodePay n d).writeCoded n s.blockLength (s.encodePay n d).payLen.toNat).finish
                  .encCoded))) := by
  refine ⟨exec_tbRun_analyze h hn (by omega) (hn ▸ s.analyze_listLength_le _), ?_⟩
  rcases encodeRun_cases h n hn.symm with ⟨h0, -⟩ | ⟨h0, -⟩ | ⟨-, -, hd, e⟩ | ⟨-, -, d, hd, hp⟩
  · omega
  · omega
  · have hdb := dbRun_of_none (s := (s.encodeBuilt n).finish .ok) rfl hd
    exact .inl ⟨hd, congrArg Host.Outcome.next hdb, e⟩
  · have hdb := dbRun_of_some (s := (s.encodeBuilt n).finish .ok) rfl hd
    refine .inr ⟨d, hd, congrArg Host.Outcome.next hdb, ?_⟩
    have hpk := exec_pkRun_encodeDict h n d
    rcases hp with ⟨ho, e⟩ | ⟨ho, e⟩ <;> rw [ho] at hpk
    · exact .inl ⟨(s.encodeBuilt_packOverflows n hd).1 ho, hpk, e⟩
    · exact .inr ⟨(s.encodeBuilt_not_packOverflows n hd).1 ho, hpk, e⟩

end Sys2Proof.Machine

open Sys2Proof Sys2Proof.Machine

/-- Settles O44: ENCODE's outcomes are told apart by the number of symbols, the dictionary build and the packer, each of
which does what the unit's own command does; a raw frame holds the block, which no unit writes. -/
theorem encodeRawFrames : Obligations.EncodeRawFrames := by
  intro s t h hs
  cases hs
  have hlen : s.blockLength ≤ Config.blockMax := h
  obtain ⟨hempty, hsingle⟩ := encodeRun_code_iff hlen rfl
  refine ⟨fun hc => ?_, hempty.trans (State.analyze_listLength_eq_zero hlen),
    hsingle.trans (State.analyze_listLength_eq_one hlen), fun hc => ?_, fun hne => ?_⟩
  · obtain ⟨u, c, e, hu⟩ := encodeRun_raw hlen hc
    obtain ⟨h1, h2, h3, h4⟩ := u.writeRaw_fields h
    rw [e]
    exact ⟨h1, h2, h3, fun k hk => (h4 k hk).trans (hu k (by omega))⟩
  · obtain ⟨c, e⟩ := encodeRun_short hlen (by rw [hempty, hsingle] at hc; omega)
    simp [e]
  · have h2 := State.two_le_listLength hlen hne
    obtain ⟨htb, ⟨hd, hdb, e⟩ | ⟨d, -, hdb, ⟨hlt, hpk, e⟩ | ⟨hlt, hpk, e⟩⟩⟩ := encodeRun_units hlen rfl h2 <;> rw [e]
    · refine ⟨_, _, _, _, exec_faRun hlen, htb, hdb, rfl, ?_⟩
      simpa +contextual [State.bufByte_pay_writeRaw, dictAt_emptyDict] using dictOfTree_none hd
    · refine ⟨_, _, _, _, exec_faRun hlen, htb, hdb, hpk, ?_⟩
      simp +contextual [hlt, State.bufByte_pay_writeRaw]
    · refine ⟨_, _, _, _, exec_faRun hlen, htb, hdb, hpk, ?_⟩
      simp +contextual [hlt, State.bufByte_pay_writeCoded]
end

section
/-! PROOFS. ENCODE's coded frame (46_block_codec R195, 30_encoding R91, R93). -/

namespace Sys2Proof.Machine

/-- What a coded frame holds in FRM (46_block_codec R195, 30_encoding R91). -/
theorem State.writeCoded_fields (s : State) {n len payLen : Nat} (hn : n ≤ 256) (hl : len ≤ 65536)
    (hp : payLen ≤ 65536) :
    (s.writeCoded n len payLen).frmLen.toNat = 10 + 5 * n + payLen
      ∧ ((s.writeCoded n len payLen).bufLe16 .frm 0).toNat = n
      ∧ (∀ (i : Nat) (_ : i < 256), i < n → (s.writeCoded n len payLen).bufByte .frm (2 + 5 * i) = s.flist[i].sym
          ∧ (s.writeCoded n len payLen).bufLe32 .frm (3 + 5 * i) = s.flist[i].count)
      ∧ ((s.writeCoded n len payLen).bufLe32 .frm (2 + 5 * n)).toNat = len
      ∧ ((s.writeCoded n len payLen).bufLe32 .frm (6 + 5 * n)).toNat = payLen
      ∧ ∀ k < payLen, (s.writeCoded n len payLen).bufByte .frm (10 + 5 * n + k) = s.bufByte .pay k := by
  have he := s.length_entries hn
  have hb := s.length_bufBytes .pay 0 payLen
  have hlen := length_codedFrame (s.entries n) len (s.bufBytes .pay 0 payLen)
  have hf : (codedFrame (s.entries n) len (s.bufBytes .pay 0 payLen)).length ≤ Config.frmCap := by
    rw [hlen, he, hb, Config.frmCap]
    omega
  obtain ⟨h1, h2, h3, h4, h5⟩ := State.codedFrame_fields (s.putFrame_holds hf)
  rw [he] at h1 h3 h4 h5
  rw [hb] at h4
  rw [State.writeCoded]
  refine ⟨?_, ?_, fun i _ hi => ?_, ?_, ?_, fun k hk => ?_⟩
  · rw [s.putFrame_frmLen hf, hlen, he, hb]
  · rw [h1, BitVec.toNat_ofNat]
    omega
  · have hi' : i < (s.entries n).length := by rwa [he]
    have hentry : (s.entries n)[i] = s.flist[i] := by simp [State.entries]
    have := (h2 i hi').trans hentry
    exact ⟨congrArg FreqEntry.sym this, congrArg FreqEntry.count this⟩
  · rw [h3, BitVec.toNat_ofNat]
    omega
  · rw [h4, BitVec.toNat_ofNat]
    omega
  · rw [State.holdsAt_iff.1 h5 k (by rwa [hb]), State.getElem_bufBytes, Nat.zero_add]

/-- The payload ENCODE packs below the capacity: the block's code bits, rounded up to whole bytes (30_encoding R105,
R107). -/
theorem State.encodeBuilt_payload (s : State) {n : Nat} {d : Vector DictEntry 256}
    (hd : dictOfTree (s.encodeBuilt n).tree (s.encodeBuilt n).treeRoot = some d)
    (hlt : ((streamBits d s.block).length + 7) / 8 < 65536) :
    (s.encodePay n d).payLen.toNat = ((streamBits d s.block).length + 7) / 8
      ∧ ∀ k < 8 * (s.encodePay n d).payLen.toNat,
          ((s.encodePay n d).bufByte .pay (k / 8)).getLsbD (k % 8) = (streamBits d s.block)[k]?.getD false := by
  have hwf := State.dictWf_encodeBuilt hd true
  refine ⟨?_, fun k hk => ?_⟩
  · rw [State.pack_payLen, s.bufBytes_encodeBuilt, length_packStream _ hwf, Config.packCap]
    exact Nat.min_eq_right hlt.le
  · rw [State.pack_bits _ hwf _ _ hk, s.bufBytes_encodeBuilt]
    rfl

/-- A block of two symbols or more has a code bit. -/
theorem State.streamBits_ne_nil {s : State} (h : s.blockLength ≤ Config.blockMax) {n : Nat}
    (hn : (s.analyze s.blockLength).listLength = n) (h2 : 2 ≤ n) (h1 : n ≤ 256) {d : Vector DictEntry 256}
    (hd : dictOfTree (s.encodeBuilt n).tree (s.encodeBuilt n).treeRoot = some d) : streamBits d s.block ≠ [] := by
  have hblock : s.block ≠ [] := by
    intro hnil
    have := (State.analyze_listLength_eq_zero h).2 (State.block_eq_nil.1 hnil)
    omega
  obtain ⟨b, hb⟩ := List.exists_mem_of_ne_nil _ hblock
  intro hnil
  exact State.codeBits_ne_nil h hn h2 h1 hd hb (List.flatMap_eq_nil_iff.1 hnil b hb)

/-- ENC_CODED says that two symbols or more occur and that the packer did not overflow (46_block_codec R196). -/
theorem encodeRun_coded {s : State} (h : s.blockLength ≤ Config.blockMax) {n : Nat}
    (hn : (s.analyze s.blockLength).listLength = n) (hc : (encodeRun s).code = .encCoded) :
    2 ≤ n ∧ n ≤ 256 ∧ ∃ d, dictOfTree (s.encodeBuilt n).tree (s.encodeBuilt n).treeRoot = some d
      ∧ ((streamBits d s.block).length + 7) / 8 < 65536
      ∧ encodeRun s
        = ((s.encodePay n d).writeCoded n s.blockLength (s.encodePay n d).payLen.toNat).finish .encCoded := by
  rcases encodeRun_cases h n hn.symm with ⟨-, e⟩ | ⟨-, e⟩ | ⟨-, -, -, e⟩ | ⟨h2, h1, d, hd, ⟨-, e⟩ | ⟨ho, e⟩⟩
  · simp [e] at hc
  · simp [e] at hc
  · simp [e] at hc
  · simp [e] at hc
  · exact ⟨h2, h1, d, hd, (s.encodeBuilt_not_packOverflows n hd).1 ho, e⟩

end Sys2Proof.Machine

open Sys2Proof Sys2Proof.Machine

/-- Settles O45: the frame is laid out from FLIST and PAY as they stand, and PAY holds the packed block. -/
theorem encodeCodedFrame : Obligations.EncodeCodedFrame := by
  intro s t h hs hc
  cases hs
  have hlen : s.blockLength ≤ Config.blockMax := h
  obtain ⟨h2, h1, d, hd, hlt, e⟩ := encodeRun_coded hlen rfl hc
  obtain ⟨hpay, hbits⟩ := s.encodeBuilt_payload hd hlt
  have hne := List.length_pos_iff.2 (State.streamBits_ne_nil hlen rfl h2 h1 hd)
  have hcount := s.analyze_block_listLength.trans (occurring_countBytes (s.length_block.trans_le h))
  obtain ⟨hfrm, hnum, hentries, horig, hpl, hbytes⟩ := State.writeCoded_fields
    (s.encodePay (s.analyze s.blockLength).listLength d) h1 h (hpay.trans_le hlt.le)
  have hlow : 1 ≤ (s.encodePay (s.analyze s.blockLength).listLength d).payLen.toNat := by omega
  rw [e]
  refine ⟨⟨_, exec_faRun hlen, by simp, by simp, by simp⟩, hcount, h2, h1, hlow, Nat.le_of_lt_succ (hpay.trans_lt hlt),
    hfrm, hnum, hentries, horig, hpl, hpay, fun k hk => ?_⟩
  exact (congrArg (·.getLsbD (k % 8)) (hbytes (k / 8) (Nat.div_lt_of_lt_mul hk))).trans (hbits k hk)
end

section
/-! PROOFS. The priority-queue commands (40_priority_queue R115 to R117). -/

namespace Sys2Proof.Machine

/-- The serials of a well-formed queue are distinct (40_priority_queue R112). -/
theorem State.QueueWf.serials_ne {s : State} (h : s.QueueWf) : s.pq.Pairwise fun e f => e.serial ≠ f.serial := by
  obtain ⟨-, hrising, -⟩ := h
  exact hrising.imp fun hlt he => hlt.ne (congrArg BitVec.toNat he)

theorem State.QueueWf.nodup {s : State} (h : s.QueueWf) : s.pq.Nodup :=
  h.serials_ne.imp fun hne he => hne (congrArg PqEntry.serial he)

/-- To take an entry out of a well-formed queue is to keep the entries other than it. -/
theorem State.QueueWf.erase_eq_filter {s : State} (h : s.QueueWf) (e : PqEntry) :
    s.pq.erase e = s.pq.filter (fun f => f ≠ e) := by
  rw [h.nodup.erase_eq_filter]
  exact List.filter_congr fun f _ => by rw [Bool.eq_iff_iff, bne_iff_ne, decide_eq_true_iff]

end Sys2Proof.Machine

open Sys2Proof Sys2Proof.Machine

/-- Settles O24: the entry taken is above every other, serials being distinct, and the rest of the queue is kept; an
empty queue has no entry to take. -/
theorem pqExtractTakesGreatest : Obligations.PqExtractTakesGreatest := by
  refine ⟨decode_encode .pqExtract, fun s => ?_⟩
  rcases pqExtractRun_cases s with ⟨hnil, hrun⟩ | ⟨e, htake, hrun⟩
  · exact ⟨fun _ hne => absurd hnil hne, fun _ => congrArg Host.Outcome.next hrun⟩
  · obtain ⟨hmem, -, -⟩ := pqTake_eq_some htake
    refine ⟨fun hwf _ => ⟨e, hmem, fun f hf hne => ?_, ?_⟩, fun hnil => absurd hmem (by simp [hnil])⟩
    · exact (PqEntry.greater_iff e f).2 (pqTake_above htake hwf.serials_ne hf hne)
    · rw [← hwf.erase_eq_filter]
      exact congrArg Host.Outcome.next hrun

/-- Settles O22: the word 0x20 encodes PQ_CLEAR, whose run writes the empty queue and the serial 0 and completes. -/
theorem pqClearEmptiesQueue : Obligations.PqClearEmptiesQueue :=
  ⟨decode_encode .pqClear, fun _ => rfl⟩

/-- Settles O23: the three ways PQ_INSERT can go exclude each other, by the queue's length and then the serial. -/
theorem pqInsertFollowsItsRule : Obligations.PqInsertFollowsItsRule := by
  refine ⟨decode_encode .pqInsert, fun s => ?_⟩
  rcases pqInsertRun_cases s with ⟨hfull, hrun⟩ | ⟨hroom, hlast, hrun⟩ | ⟨hroom, hnext, hrun⟩
  · have hnroom : ¬ s.pq.length < 256 := Nat.not_lt_of_le hfull
    exact ⟨fun h _ => absurd h hnroom, fun _ => congrArg Host.Outcome.next hrun, fun h _ => absurd h hnroom⟩
  · exact ⟨fun _ h => absurd hlast h, fun h => absurd h hroom.ne, fun _ _ => congrArg Host.Outcome.next hrun⟩
  · exact ⟨fun _ _ => congrArg Host.Outcome.next hrun, fun h => absurd h hroom.ne, fun _ h => absurd h hnext⟩
end

section
/-! PROOFS. The frequency analyzer's command (41_frequency_analyzer R125 to R128), and the bound on the block's
length that FA_RUN shares with PK_RUN and ENCODE (44_bit_packer R169, 46_block_codec R196). -/

namespace Sys2Proof.Machine

theorem State.analyze_block_flist (s : State) :
    (s.analyze s.blockLength).flist.toList = sortedEntries (countBytes s.block) := s.analyze_flist _

/-- Exactly the first FLIST_LEN entries have a count (R128 (b)). -/
theorem lt_occurring_iff {c : Vector (BitVec 17) 256} {i : Nat} (h : i < (sortedEntries c).length) :
    i < occurring c ↔ (sortedEntries c)[i].count ≠ 0 := by
  obtain ⟨hcount, hnone⟩ := sortedEntries_split c
  constructor
  · intro hi h0
    exact hcount _ (List.mem_take_iff_getElem.2 ⟨i, lt_min hi h, rfl⟩) (congrArg BitVec.toNat h0)
  · contrapose!
    intro hi
    exact BitVec.eq_of_toNat_eq
      (hnone _ (List.mem_drop_iff_getElem.2 ⟨i - occurring c, by omega, by simp [Nat.add_sub_cancel' hi]⟩))

/-- FLIST_LEN after the analysis of the block bounds the entries with a count. -/
theorem State.lt_analyze_listLength_iff (s : State) {i : Nat} (h : i < 256) :
    i < (s.analyze s.blockLength).listLength ↔ ((s.analyze s.blockLength).flist[i]).count ≠ 0 := by
  rw [s.analyze_block_listLength, lt_occurring_iff (by rwa [length_sortedEntries])]
  simp only [← s.analyze_block_flist, Vector.getElem_toList]

end Sys2Proof.Machine

open Sys2Proof Sys2Proof.Machine

/-- Settles O26: the counters are the block's counts, and FLIST is the strictly sorted list of all symbols with them. -/
theorem faRunCountsAndSorts : Obligations.FaRunCountsAndSorts := by
  intro s h
  have hlen : s.block.length ≤ Config.blockMax := s.length_block.trans_le h
  have hlist : ((s.analyze s.blockLength).finish .ok).flist.toList = sortedEntries (countBytes s.block) :=
    s.analyze_block_flist
  refine ⟨_, exec_faRun h, rfl, toNat_counterAt_countBytes hlen, fun sym => ?_, ?_, ?_⟩
  · rw [hlist]
    exact mem_sortedEntries.2 rfl
  · rw [hlist]
    exact sortedEntries_strict _
  · exact s.analyze_block_listLength.trans (occurring_countBytes hlen)

/-- Settles O27: the list is sorted by falling count and FLIST_LEN is the number of its entries with one, so the entries
past it add nothing to the sum. -/
theorem faRunListLaws : Obligations.FaRunListLaws := by
  intro s t h hs
  obtain rfl := Host.Outcome.next.inj ((exec_faRun h).symm.trans hs)
  exact ⟨State.countSum_analyze h rfl, fun _ hi => s.lt_analyze_listLength_iff hi,
    BitVec.toNat_inj.symm.trans (State.analyze_listLength_eq_zero h), s.analyze_listLength_le _⟩

/-- Settles O25: each of the three commands compares RAW_LEN with 65536 before it does anything else. -/
theorem blockLengthErrors : Obligations.BlockLengthErrors := by
  intro s i hi h
  have hlong : Config.blockMax < s.blockLength := h
  rcases hi with rfl | rfl | rfl <;> exact congrArg Host.Outcome.next (if_pos hlong)
end

section
/-! PROOFS. The tree builder (42_tree_builder R136 to R146). -/

namespace Sys2Proof.Machine

/-! ### What TB_RUN does -/

/-- Everything TB_RUN can do (R139): its two errors, and the build. -/
theorem tbRun_cases (s : State) :
    (s.flistLen.toNat = 0 ∧ tbRun s = s.raise .errEmpty)
      ∨ ((256 < s.flistLen.toNat ∨ (s.flistLen.toNat ≠ 0 ∧ 65536 < s.countSum s.flistLen.toNat))
        ∧ tbRun s = s.raise .errFlist)
      ∨ (1 ≤ s.flistLen.toNat ∧ s.flistLen.toNat ≤ 256 ∧ s.countSum s.flistLen.toNat ≤ 65536
        ∧ tbRun s = (s.buildTree s.flistLen.toNat).finish .ok) := by
  by_cases hempty : s.flistLen.toNat = 0
  · exact .inl ⟨hempty, if_pos hempty⟩
  by_cases hlong : 256 < s.flistLen.toNat
  · exact .inr (.inl ⟨.inl hlong, (if_neg hempty).trans (if_pos hlong)⟩)
  by_cases hsum : 65536 < s.countSum s.flistLen.toNat
  · exact .inr (.inl ⟨.inr ⟨hempty, hsum⟩, ((if_neg hempty).trans (if_neg hlong)).trans (if_pos hsum)⟩)
  · have hone : 1 ≤ s.flistLen.toNat := Nat.one_le_iff_ne_zero.2 hempty
    rw [Nat.not_lt] at hlong hsum
    exact .inr (.inr ⟨hone, hlong, hsum, tbRun_eq rfl hone hlong hsum⟩)

/-- TB_RUN on a list it accepts (R139). -/
theorem exec_tbRun {s : State} (hone : 1 ≤ s.flistLen.toNat) (hle : s.flistLen.toNat ≤ 256)
    (hsum : s.countSum s.flistLen.toNat ≤ 65536) :
    exec .tbRun s = .next ((s.buildTree s.flistLen.toNat).finish .ok) :=
  congrArg Host.Outcome.next (tbRun_eq rfl hone hle hsum)

/-- The merges of `build_tree(N)` start from the loaded list and end with the root's entry alone (R136, R137). -/
theorem State.buildTree_merges (s : State) {n : Nat} (h0 : 1 ≤ n) (h : n ≤ 256) :
    ∃ queue : Nat → List PqEntry, queue 0 = loadedQueue (s.entries n)
      ∧ (∀ k, k + 1 < n →
          MergeStep (queue k) (queue (k + 1)) (n + k) (buildNodes s.tree (s.entries n)).tree[n + k]?)
      ∧ ∃ root, queue (n - 1) = [root] ∧ root.payload.toNat = 2 * n - 2 := by
  have hl := s.length_entries h
  have hne : s.entries n ≠ [] := List.length_pos_iff.1 (by omega)
  obtain ⟨root, hroot, hpay, -⟩ := buildNodes_spec s.tree hne (hl.trans_le h)
  obtain ⟨queue, hfirst, hsteps, hlast⟩ := buildNodes_merges s.tree hne (hl.trans_le h)
  rw [hl] at hpay hsteps hlast
  exact ⟨queue, hfirst, hsteps, root, hlast.trans hroot, hpay⟩

/-- Two builds from one list agree on the nodes they place, whatever stood in TREE before (R144). -/
theorem State.buildNodes_entries_agree {s s' : State} {n : Nat} (h0 : 1 ≤ n) (h : n ≤ 256)
    (he : s'.entries n = s.entries n) {i : Nat} (hi : i < 2 * n - 1) :
    (buildNodes s'.tree (s'.entries n)).tree[i]? = (buildNodes s.tree (s.entries n)).tree[i]? := by
  have hl := s.length_entries h
  have hne : s.entries n ≠ [] := List.length_pos_iff.1 (by omega)
  obtain ⟨-, -, -, -, hnext, -⟩ := buildNodes_spec s'.tree hne (hl.trans_le h)
  rw [he]
  exact (buildNodes_agree s'.tree s.tree (hl.trans_le h)).tree i (by omega)

/-! ### One merge -/

/-- A merge of two entries or more takes the first entry the queue yields, then the first the rest yields (R136). -/
theorem Builder.merge_takes {b : Builder} (h : 1 < b.queue.length) :
    ∃ x y : PqEntry, ∃ q r : List PqEntry, pqTake b.queue = some (x, q) ∧ pqTake q = some (y, r)
      ∧ b.merge = Builder.place { b with queue := r } (mergedNode Config.childOrder x y) (x.weight + y.weight) := by
  obtain ⟨x, hx⟩ := pqTake_isSome (List.ne_nil_of_length_pos (Nat.zero_lt_of_lt h))
  have hrest := pqTake_length hx
  obtain ⟨y, hy⟩ := pqTake_isSome (q := b.queue.erase x) (List.ne_nil_of_length_pos (by omega))
  exact ⟨x, y, _, _, hx, hy, by simp only [Builder.merge, hx, hy]⟩

/-- The merge of a queue of two entries makes them the children of the new node, the greater one first (R136). -/
theorem MergeStep.of_pair {a b : PqEntry} {r : List PqEntry} {next : Nat} {placed : Option Node}
    (h : MergeStep [a, b] r next placed) :
    (a.Greater b ∧ placed = some (.internal (a.payload.setWidth 9) (b.payload.setWidth 9)))
      ∨ (b.Greater a ∧ placed = some (.internal (b.payload.setWidth 9) (a.payload.setWidth 9))) := by
  obtain ⟨x, y, rest, hperm, hgreatest, -, -, hplaced⟩ := h
  have hrest : rest = [] := List.length_eq_zero_iff.1 (by simpa using hperm.length_eq.symm)
  subst hrest
  have hxy := hgreatest y List.mem_cons_self
  rcases List.perm_pair.1 hperm.symm with he | he <;> cases he
  · exact .inl ⟨hxy, hplaced⟩
  · exact .inr ⟨hxy, hplaced⟩

/-! ### The two leaves of the shortest list with a merge -/

/-- The weight of a leaf is minus its count, as a signed integer (R140). -/
theorem toInt_neg_of_le {c : Word} (h : c.toNat ≤ 65536) : (-c).toInt = -(c.toNat : Int) := by
  have hc : c.toInt = c.toNat := BitVec.toInt_eq_toNat_of_lt (by omega)
  rw [BitVec.toInt_neg, hc]
  exact Int.bmod_eq_of_le (by omega) (by omega)

/-- Of two leaves the greater one has the lower count, or is the earlier one of the same count (R110, R136). -/
theorem greater_leaf_iff {c d : Word} (hc : c.toNat ≤ 65536) (hd : d.toNat ≤ 65536) (i j : BitVec 32)
    (p q : BitVec 16) :
    PqEntry.Greater ⟨-c, i, p⟩ ⟨-d, j, q⟩ ↔ c.toNat < d.toNat ∨ (c.toNat = d.toNat ∧ i.toNat < j.toNat) := by
  simp only [PqEntry.greater_iff, PqEntry.above_iff, toInt_neg_of_le hc, toInt_neg_of_le hd]
  omega

/-- LOAD of two entries (R136). -/
theorem loadedQueue_pair (e f : FreqEntry) : loadedQueue [e, f] = [⟨-e.count, 0, 0⟩, ⟨-f.count, 1, 1⟩] := rfl

theorem State.entries_two (s : State) : s.entries 2 = [s.flist[0], s.flist[1]] :=
  List.ext_getElem (s.length_entries (by decide)) fun i hi _ => by
    have : i < 2 := by simpa [State.entries] using hi
    interval_cases i <;> simp [State.entries]

theorem State.countSum_two (s : State) : s.countSum 2 = (s.flist[0]).count.toNat + (s.flist[1]).count.toNat := by
  simp [State.countSum, State.entries_two]

end Sys2Proof.Machine

open Sys2Proof Sys2Proof.Machine

/-- Settles O28: TB_RUN's three ways exclude each other, and each error is raised before anything is built. -/
theorem tbRunErrors : Obligations.TbRunErrors := by
  intro s
  rcases tbRun_cases s with ⟨hempty, hrun⟩ | ⟨hbad, hrun⟩ | ⟨hone, hle, hsum, -⟩
  · exact ⟨fun _ => congrArg Host.Outcome.next hrun, fun hbad => by omega⟩
  · exact ⟨fun hempty => by omega, fun _ => congrArg Host.Outcome.next hrun⟩
  · exact ⟨fun hempty => by omega, fun hbad => by omega⟩

/-- Settles O29: the laws of `build_tree`, whose internal nodes are its merges'. -/
theorem tbRunBuildsOneTree : Obligations.TbRunBuildsOneTree := by
  intro s hone hle hsum
  obtain ⟨t, hbuild, ht, hwf, hleaf, hinternal, hkept⟩ := s.buildTree_spec hone hle
  obtain ⟨queue, hfirst, hsteps, root, hlast, hroot⟩ := s.buildTree_merges hone hle
  rw [← ht] at hsteps
  rw [exec_tbRun hone hle hsum, hbuild]
  generalize s.flistLen.toNat = n at *
  have hnroot : (BitVec.ofNat 9 (2 * n - 2)).toNat = 2 * n - 2 := by rw [BitVec.toNat_ofNat]; omega
  have hnodes : (BitVec.ofNat 10 (2 * n - 1)).toNat = 2 * n - 1 := by rw [BitVec.toNat_ofNat]; omega
  have hserial : (BitVec.ofNat 32 (2 * n - 1)).toNat = 2 * n - 1 := by rw [BitVec.toNat_ofNat]; omega
  refine ⟨_, rfl, rfl, hnroot, hnodes, hserial, ?_, fun i _ hi => ?_, fun i _ hlo hhi => ?_, fun i _ hi => ?_,
    queue, hfirst, hsteps, root, hlast, hroot.trans hnroot.symm⟩
  · exact hnodes.symm ▸ hwf
  · exact Vector.getElem_eq_iff.2 (hleaf i hi)
  · obtain ⟨zero, one, hi⟩ := hinternal i hlo hhi
    exact ⟨zero, one, Vector.getElem_eq_iff.2 hi⟩
  · exact Vector.getElem_eq_iff.2 ((hkept i hi).trans (Vector.getElem?_eq_getElem _))

/-- Settles O30: the one merge of two leaves takes the greater first, the one of the lower count. -/
theorem lowerCountIsZeroChild : Obligations.LowerCountIsZeroChild := by
  intro s t h2 hsum hs
  have hlen : s.flistLen.toNat = 2 := congrArg BitVec.toNat h2
  obtain ⟨t', hs', -, -, -, -, -, -, -, -, queue, hfirst, hsteps, -⟩ :=
    tbRunBuildsOneTree s (by omega) (by omega) (hlen ▸ hsum)
  obtain rfl := Host.Outcome.next.inj (hs'.symm.trans hs)
  have hstep := hsteps 0 (by omega)
  rw [hfirst, hlen, s.entries_two, loadedQueue_pair] at hstep
  rw [s.countSum_two] at hsum
  refine Vector.getElem_eq_iff.2 ?_
  rcases MergeStep.of_pair hstep with ⟨hgreater, hplaced⟩ | ⟨hgreater, hplaced⟩
  · rw [greater_leaf_iff (by omega) (by omega)] at hgreater
    rw [if_neg (by omega)]
    exact hplaced
  · rw [greater_leaf_iff (by omega) (by omega)] at hgreater
    rw [if_pos (by simpa using hgreater)]
    exact hplaced

/-- Settles O31: the two entries taken are the greatest, serials being distinct, and the parent is placed and queued. -/
theorem mergeTakesTwoGreatest : Obligations.MergeTakesTwoGreatest := by
  intro b hq hn hdistinct
  obtain ⟨x, y, q, r, hx, hy, hmerge⟩ := Builder.merge_takes hq
  have hxq := pqTake_perm hx
  have hyr := pqTake_perm hy
  have hdistinct' := (List.pairwise_cons.1 (hxq.pairwise hdistinct fun h => h.symm)).2
  have htree := Builder.place_tree { b with queue := r } hn (mergedNode Config.childOrder x y) (x.weight + y.weight)
  rw [hmerge]
  refine ⟨x, y, r, hxq.trans (hyr.cons x), fun f hf => ?_, fun f hf => ?_, List.perm_append_singleton _ _,
    (htree b.next).trans (if_pos rfl), rfl, fun i hi => (htree i).trans (if_neg hi)⟩
  · exact (PqEntry.greater_iff x f).1 (pqTake_greater hx hdistinct f (hyr.symm.subset hf))
  · exact (PqEntry.greater_iff y f).1 (pqTake_greater hy hdistinct' f hf)

/-- Settles O32: the builds of two states with one list agree on every node they place. -/
theorem treeDependsOnListAlone : Obligations.TreeDependsOnListAlone := by
  intro s s' t t' hone hle hsum hlen hlist hs hs'
  have hsum' : s'.countSum s.flistLen.toNat ≤ 65536 := by rwa [State.countSum, hlist]
  obtain ⟨u, hu, rfl, -⟩ := s.buildTree_spec hone hle
  obtain ⟨u', hu', rfl, -⟩ := s'.buildTree_spec hone hle
  rw [exec_tbRun hone hle hsum, hu] at hs
  rw [exec_tbRun (hlen ▸ hone) (hlen ▸ hle) (hlen ▸ hsum'), hlen, hu'] at hs'
  cases hs
  cases hs'
  refine ⟨rfl, rfl, fun i h hi => ?_⟩
  have hi' : i < 2 * s.flistLen.toNat - 1 := by
    simp only [State.finish_treeNodes, State.setTree_treeNodes, BitVec.toNat_ofNat] at hi
    omega
  have hnode := State.buildNodes_entries_agree hone hle hlist hi'
  exact Vector.getElem_eq_iff.2 (hnode.trans (Vector.getElem?_eq_getElem h))
end

section
/-! PROOFS. DB_RUN, DICT_LOOKUP, and the two runs that want what an earlier one built (43_dictionary R151 to R157,
44_bit_packer R169). -/

namespace Sys2Proof.Machine

/-! ### The words of a lookup (R154) -/

/-- Which bit of an entry each bit of RES2 is. -/
theorem DictEntry.getLsbD_infoWord (e : DictEntry) (i : Nat) :
    e.infoWord.getLsbD i = if i < 6 then e.width.getLsbD i else decide (i = 8) && e.present := by
  rw [infoWord, BitVec.getLsbD_setWidth, BitVec.getLsbD_append, BitVec.getLsbD_append]
  by_cases hwidth : i < 6
  · have hword : i < 32 := by omega
    simp [hwidth, hword]
  by_cases hgap : i < 8
  · have hpad : i - 6 < 2 := by omega
    simp [hwidth, hpad, hgap.ne]
  by_cases hpresent : i = 8
  · simp [hpresent]
  · have hpad : ¬ i - 6 < 2 := by omega
    have habove : i - 6 - 2 ≠ 0 := by omega
    simp [hwidth, hpad, habove, hpresent]

theorem DictEntry.extractLsb'_infoWord_width (e : DictEntry) : e.infoWord.extractLsb' 0 6 = e.width :=
  BitVec.eq_of_getLsbD_eq fun i hi => by simp [hi, getLsbD_infoWord]

/-- RES2 is 0 between the width and the present bit, and above that bit. -/
theorem DictEntry.extractLsb'_infoWord_zero (e : DictEntry) {start len : Nat} (hlow : 6 ≤ start)
    (hne : start + len ≤ 8 ∨ 8 < start) : e.infoWord.extractLsb' start len = 0 :=
  BitVec.eq_of_getLsbD_eq fun i hi => by
    have hwidth : ¬ start + i < 6 := by omega
    have hpresent : start + i ≠ 8 := by omega
    simp [getLsbD_infoWord, hwidth, hpresent]

theorem DictEntry.infoWord_present (e : DictEntry) : e.infoWord.getLsbD 8 = e.present := by
  rw [getLsbD_infoWord]
  rfl

/-- The bits of a pattern from bit 32 up are its 24 high bits. -/
theorem setWidth_pattern_high (pat : BitVec 56) :
    (pat >>> 32).setWidth 32 = (pat.extractLsb' 32 24).setWidth 32 := by
  apply BitVec.eq_of_toNat_eq
  simp only [BitVec.toNat_setWidth, BitVec.toNat_ushiftRight, BitVec.extractLsb'_toNat, Nat.shiftRight_eq_div_pow]
  omega

end Sys2Proof.Machine

open Sys2Proof Sys2Proof.Machine

/-- Settles O33: the dictionary is built or not; either way `visit` says where its paths end (`dictOfTree_some`,
`dictOfTree_none`). -/
theorem dbRunRecordsPaths : Obligations.DbRunRecordsPaths := by
  intro s hv
  cases hd : dictOfTree s.tree s.treeRoot with
  | none =>
    exact ⟨_, congrArg Host.Outcome.next (dbRun_of_none hv hd), rfl,
      .inl ⟨rfl, rfl, dictAt_emptyDict, dictOfTree_none hd⟩⟩
  | some d =>
    obtain ⟨hshallow, hentries⟩ := dictOfTree_some hd
    refine ⟨_, congrArg Host.Outcome.next (dbRun_of_some hv hd), rfl,
      .inr ⟨rfl, rfl, fun bits n zero one hn => (hshallow bits n hn).2 zero one, fun sym => ?_⟩⟩
    rw [State.finish_dict, State.setDict_dict]
    refine (hentries sym).imp_right fun ⟨bits, ⟨hcode, hlast⟩, hrec⟩ => ?_
    rw [hrec.codeBits]
    exact ⟨hrec.1, hrec.wf, hcode, hlast⟩

/-- Settles O35: the three results are the entry's fields, cut out bit by bit. -/
theorem dictLookupReturnsEntry : Obligations.DictLookupReturnsEntry := by
  refine ⟨decode_encode .dictLookup, fun s => ?_⟩
  exact ⟨_, rfl, rfl, BitVec.setWidth_eq_extractLsb' (by decide : 32 ≤ 56), setWidth_pattern_high _,
    DictEntry.extractLsb'_infoWord_width _, DictEntry.extractLsb'_infoWord_zero _ (by decide) (by decide),
    DictEntry.infoWord_present _, DictEntry.extractLsb'_infoWord_zero _ (by decide) (by decide)⟩

/-- Settles O38: each run looks at what it needs before it does anything else, PK_RUN after its length. -/
theorem missingTreeOrDictionary : Obligations.MissingTreeOrDictionary := by
  intro s
  refine ⟨fun hv => congrArg Host.Outcome.next (if_pos hv), fun hlen hv => ?_⟩
  have hblock : ¬ Config.blockMax < s.blockLength := Nat.not_lt.2 hlen
  exact congrArg Host.Outcome.next ((if_neg hblock).trans (if_pos hv))
end

section
/-! PROOFS. PK_RUN's two outcomes (44_bit_packer R166 to R169). -/

namespace Sys2Proof.Machine

/-- PK_RUN of a block it accepts, with a dictionary (R169). -/
theorem exec_pkRun {s : State} (h : s.blockLength ≤ Config.blockMax) (hv : s.dictValid = true) :
    exec .pkRun s
      = .next ((s.pack s.blockLength).finish (if s.packOverflows s.blockLength then .packOverflow else .ok)) :=
  congrArg Host.Outcome.next (pkRun_eq h hv)

/-- PAY_LEN after the block is packed: its code bits in whole bytes, at most the capacity (R107, R166, R168). -/
theorem State.pack_block_payLen {s : State} (h : s.DictWf) :
    (s.pack s.blockLength).payLen.toNat = min 65536 (((streamBits s.dict s.block).length + 7) / 8) := by
  rw [State.pack_payLen, length_packStream _ h]
  rfl

/-- Ending the command after `pack` leaves every byte outside PAY[0..PAY_LEN−1] as it was. -/
theorem State.unchangedOutside_pack_finish (s : State) (len : Nat) (c : Code) :
    UnchangedOutside s ((s.pack len).finish c) .pay (s.pack len).payLen.toNat :=
  fun a => s.memByte_pack len a

end Sys2Proof.Machine

open Sys2Proof Sys2Proof.Machine

/-- Settles O36: below the capacity `pack` does not overflow, and PAY holds the whole stream (`State.pack_bits`). -/
theorem pkRunPacksTheStream : Obligations.PkRunPacksTheStream := by
  intro s hlen hv hd hlt
  have hfits : ¬ s.packOverflows s.blockLength := mt (State.packOverflows_iff hd _).1 (Nat.not_le.2 hlt)
  have hpay := (State.pack_block_payLen hd).trans (Nat.min_eq_right hlt.le)
  rw [exec_pkRun hlen hv, if_neg hfits]
  exact ⟨_, rfl, rfl, hpay, s.pack_bits hd s.blockLength, s.unchangedOutside_pack_finish _ _⟩

/-- Settles O37: from the capacity on `pack` overflows, and PAY_LEN is the capacity. -/
theorem pkRunOverflowsAtCapacity : Obligations.PkRunOverflowsAtCapacity := by
  intro s hlen hv hd hge
  have hfull : s.packOverflows s.blockLength := (State.packOverflows_iff hd _).2 hge
  have hpay := (State.pack_block_payLen hd).trans (Nat.min_eq_left hge)
  have hword : (s.pack s.blockLength).payLen = 65536 := BitVec.eq_of_toNat_eq hpay
  rw [exec_pkRun hlen hv, if_pos hfull]
  refine ⟨_, rfl, ?_, fun k hk => s.pack_bits hd s.blockLength k (hpay.symm ▸ hk), ?_⟩
  · rw [← hword]
    rfl
  · exact hpay ▸ s.unchangedOutside_pack_finish s.blockLength .packOverflow
end

section
/-! PROOFS. The bit unpacker's command (45_bit_unpacker R181 to R189). -/

namespace Sys2Proof.Machine

/-! ### What UP_RUN does -/

/-- The completion code of UP_RUN whose checks pass: did the payload run out (R185)? -/
def State.unpackCode (s : State) (len payLen : Nat) : Code := if s.exhausts len payLen then .fmtExhausted else .ok

theorem State.unpackCode_eq (s : State) (len payLen : Nat) :
    s.unpackCode len payLen = if (s.emitted len payLen).length < len then .fmtExhausted else .ok := by
  simp [State.unpackCode, State.exhausts]

/-- A completion whose code is an error in one case and an outcome in the other. -/
theorem State.complete_ite (s : State) {p : Prop} [Decidable p] {c c' : Code} (hc : c.isError = true)
    (hc' : c'.isError = false) : s.complete (if p then c else c') = if p then s.raise c else s.finish c' := by
  split
  · exact (s.raise_eq_complete hc).symm
  · exact (s.finish_eq_complete hc').symm

/-- UP_RUN whose checks pass builds the tree, unpacks the payload with it and completes (R185). -/
theorem exec_upRun {s : State} (hone : 1 ≤ s.flistLen.toNat) (hle : s.flistLen.toNat ≤ 256)
    (hraw : s.rawLen.toNat ≤ 65536) (hpay : s.payLen.toNat ≤ 65536)
    (hsum : s.countSum s.flistLen.toNat = s.rawLen.toNat) :
    exec .upRun s = .next (((s.buildTree s.flistLen.toNat).unpack s.rawLen.toNat s.payLen.toNat).complete
      ((s.buildTree s.flistLen.toNat).unpackCode s.rawLen.toNat s.payLen.toNat)) := by
  have hempty : ¬ s.listLength = 0 := Nat.one_le_iff_ne_zero.1 hone
  have hlong : ¬ Config.alphabet < s.listLength := Nat.not_lt.2 hle
  have hlen : ¬ (Config.blockMax < s.blockLength ∨ Config.packCap < s.payloadLength) :=
    not_or.2 ⟨Nat.not_lt.2 hraw, Nat.not_lt.2 hpay⟩
  have hcount : ¬ s.countSum s.listLength ≠ s.blockLength := not_not.2 hsum
  refine congrArg Host.Outcome.next ?_
  rw [upRun, if_neg hempty, if_neg hlong, if_neg hlen, if_neg hcount, State.unpackCode]
  dsimp only [State.listLength, State.blockLength, State.payloadLength]
  exact (State.complete_ite _ rfl rfl).symm

/-! ### RAW and PAY around `unpack` -/

/-- The tree build leaves the payload alone. -/
theorem State.emitted_buildTree (s : State) (n len payLen : Nat) :
    (s.buildTree n).emitted len payLen
      = unpackSyms (s.buildTree n).tree (s.buildTree n).treeRoot len (payloadBits (s.bufBytes .pay 0 payLen)) := by
  rw [State.emitted, State.bufBytes_of_mem (s.buildTree_mem n)]

/-- RAW holds the symbols emitted (R182). -/
theorem State.bufBytes_unpack (s : State) {len : Nat} (payLen : Nat) (h : len ≤ 65536) :
    (s.unpack len payLen).bufBytes .raw 0 (s.emitted len payLen).length = s.emitted len payLen :=
  s.bufBytes_fillBuf_same .raw _ ((s.length_emitted_le len payLen).trans h)

/-- `build_tree` and `unpack` write the symbols emitted, and no other byte (R182, R184). -/
theorem State.unchangedOutside_unpack (s : State) (n len payLen : Nat) (c : Code) :
    UnchangedOutside s (((s.buildTree n).unpack len payLen).complete c) .raw
      ((s.buildTree n).emitted len payLen).length :=
  fun a ha => ((s.buildTree n).memByte_unpack len payLen a ha).trans (State.memByte_of_mem (s.buildTree_mem n) a)

/-! ### The tree rebuilt from the list -/

/-- TB_RUN on two states with one list leaves one tree, whatever else they hold (42_tree_builder R144): its paths are
codes of the same symbols. -/
theorem isCodeOf_of_same_list {s s' t t' : State} (hone : 1 ≤ s.flistLen.toNat) (hle : s.flistLen.toNat ≤ 256)
    (hsum : s.countSum s.flistLen.toNat ≤ 65536) (hlen : s'.flistLen = s.flistLen)
    (hlist : s'.entries s.flistLen.toNat = s.entries s.flistLen.toNat) (ht : exec .tbRun s = .next t)
    (ht' : exec .tbRun s' = .next t') (bits : List Bool) (sym : Byte) :
    isCodeOf t'.tree t'.treeRoot bits sym ↔ isCodeOf t.tree t.treeRoot bits sym := by
  obtain ⟨hroot, -, hnode⟩ := treeDependsOnListAlone s s' t t' hone hle hsum hlen hlist ht ht'
  obtain ⟨u, hu, -, hr, hn, -, hwf, -⟩ := tbRunBuildsOneTree s hone hle hsum
  obtain rfl := Host.Outcome.next.inj (ht.symm.trans hu)
  have hsame : SameTree t.tree t'.tree t.treeNodes.toNat := by
    refine ⟨fun i hi => ?_, hwf.2⟩
    have h511 : i < 511 := by omega
    rw [Vector.getElem?_eq_getElem h511, Vector.getElem?_eq_getElem h511, hnode i h511 hi]
  rw [hroot]
  exact hsame.isCodeOf (by omega) bits sym

/-! ### The list of one entry -/

theorem State.countSum_one (s : State) : s.countSum 1 = (s.flist[0]).count.toNat := by
  have hentries : s.entries 1 = [s.flist[0]] :=
    List.ext_getElem (s.length_entries (by decide)) fun i hi _ => by
      obtain rfl : i = 0 := by simpa [State.entries] using hi
      simp [State.entries]
  simp [State.countSum, hentries]

end Sys2Proof.Machine

open Sys2Proof Sys2Proof.Machine

/-- Settles O39: UP_RUN looks at the list's length, then at the two lengths, then at the sum of the counts, before it
does anything else. -/
theorem upRunErrors : Obligations.UpRunErrors := by
  intro s
  have hempty : 1 ≤ s.flistLen.toNat → ¬ s.listLength = 0 := Nat.one_le_iff_ne_zero.1
  have hlong : s.flistLen.toNat ≤ 256 → ¬ Config.alphabet < s.listLength := Nat.not_lt.2
  refine ⟨fun h => congrArg Host.Outcome.next (if_pos h), fun h => ?_, fun hone hle h => ?_,
    fun hone hle hraw hpay h => ?_⟩ <;> refine congrArg Host.Outcome.next ?_
  · exact (if_neg (hempty (by omega))).trans (if_pos h)
  · exact (if_neg (hempty hone)).trans ((if_neg (hlong hle)).trans (if_pos h))
  · have hlen : ¬ (Config.blockMax < s.blockLength ∨ Config.packCap < s.payloadLength) :=
      not_or.2 ⟨Nat.not_lt.2 hraw, Nat.not_lt.2 hpay⟩
    exact (if_neg (hempty hone)).trans ((if_neg (hlong hle)).trans ((if_neg hlen).trans (if_pos h)))

/-- Settles O40: the tree is TB_RUN's, the symbols are what `unpack` emits (`yields_unpackSyms`), and a payload that
begins with a block's codes emits that block (`unpackSyms_codes`). -/
theorem upRunDecodesCodes : Obligations.UpRunDecodesCodes := by
  intro s hone hle hraw hpay hsum
  have hrun := exec_upRun hone hle hraw hpay hsum
  have hemitted := s.emitted_buildTree s.flistLen.toNat s.rawLen.toNat s.payLen.toNat
  have hread := (s.buildTree s.flistLen.toNat).bufBytes_unpack s.payLen.toNat hraw
  have hcode := (s.buildTree s.flistLen.toNat).unpackCode_eq s.rawLen.toNat s.payLen.toNat
  refine ⟨_, _, (s.buildTree s.flistLen.toNat).emitted s.rawLen.toNat s.payLen.toNat, exec_tbRun hone hle (by omega),
    hrun, ?_, hemitted, ?_, hcode, hread, s.unchangedOutside_unpack _ _ _ _,
    fun block code rest hblock hcodes hbits => ?_⟩
  · rw [← s.buildTree_anyErr s.flistLen.toNat, Bool.or_comm]
    rfl
  · rw [hemitted]
    exact yields_unpackSyms _ _ _ _
  · have hall : (s.buildTree s.flistLen.toNat).emitted s.rawLen.toNat s.payLen.toNat = block := by
      rw [hemitted, hbits, ← hblock]
      exact unpackSyms_codes code block hcodes rest
    rw [hall, hblock] at hread hcode
    exact ⟨hcode.trans (if_neg (lt_irrefl _)), hread⟩

/-- Settles O41: the tree of a one-entry list is its leaf, which is reached without a payload bit
(`unpackSyms_leaf`). -/
theorem upRunSingleEntry : Obligations.UpRunSingleEntry := by
  intro s hlen hraw hpay hcount
  have hone : s.flistLen.toNat = 1 := congrArg BitVec.toNat hlen
  have hsum : s.countSum s.flistLen.toNat = s.rawLen.toNat := by rw [hone, s.countSum_one, hcount]
  obtain ⟨u, hu, -, hroot, hnodes, -, -, hleaf, -⟩ :=
    tbRunBuildsOneTree s (by omega) (by omega) (hsum.trans_le hraw)
  obtain ⟨u', t, syms, hu', ht, heq, hsyms, -, hcode, hread, -⟩ :=
    upRunDecodesCodes s (by omega) (by omega) hraw hpay hsum
  obtain rfl := Host.Outcome.next.inj (hu.symm.trans hu')
  have hroot : u.treeRoot = 0 := BitVec.eq_of_toNat_eq (by rw [hroot, hone]; rfl)
  have hnodes : u.treeNodes = 1 := BitVec.eq_of_toNat_eq (by rw [hnodes, hone]; rfl)
  have hleaf : u.tree[0] = .leaf (s.flist[0]).sym := hleaf 0 (by decide) (by omega)
  have hsyms : syms = List.replicate s.rawLen.toNat (s.flist[0]).sym := by
    rw [hsyms]
    refine unpackSyms_leaf ?_ _ _
    rw [hroot, nodeAt_eq]
    simp [hleaf]
  rw [hsyms, List.length_replicate] at hcode hread
  rw [if_neg (lt_irrefl _)] at hcode
  refine ⟨t, ht, hcode, ?_, ?_, ?_, ?_, fun k hk => ?_⟩
  · rw [heq, hcode]; rfl
  · rw [heq]; exact hroot
  · rw [heq]; exact hnodes
  · rw [heq]; exact hleaf
  · have := State.getElem_bufBytes t .raw 0 s.rawLen.toNat k (by rwa [State.length_bufBytes])
    simpa [hread] using this.symm
end

section
/-! PROOFS. FA_RUN, TB_RUN, DB_RUN and PK_RUN, then UP_RUN (45_bit_unpacker R188). -/

namespace Sys2Proof.Machine

/-- TB_RUN after FA_RUN of a block that is not empty: the list has an entry, and the tree is the one ENCODE builds. -/
theorem exec_tbRun_faRun {s a b : State} (h : s.blockLength ≤ Config.blockMax) (h0 : s.rawLen ≠ 0)
    (ha : exec .faRun s = .next a) (hb : exec .tbRun a = .next b) :
    ∃ n, (s.analyze s.blockLength).listLength = n ∧ 1 ≤ n ∧ n ≤ 256 ∧ a = (s.analyze s.blockLength).finish .ok
      ∧ b = (s.encodeBuilt n).finish .ok := by
  obtain rfl := Host.Outcome.next.inj (ha.symm.trans (exec_faRun h))
  have hone : 1 ≤ (s.analyze s.blockLength).listLength :=
    Nat.one_le_iff_ne_zero.2 (mt (State.analyze_listLength_eq_zero h).1 h0)
  have hle := s.analyze_listLength_le s.blockLength
  exact ⟨_, rfl, hone, hle, rfl, Host.Outcome.next.inj (hb.symm.trans (exec_tbRun_analyze h rfl hone hle))⟩

/-- DB_RUN ends in OK on that tree when it has a dictionary (43_dictionary R153). -/
theorem exec_dbRun_encodeBuilt_ok {s c : State} {n : Nat} (hc : exec .dbRun ((s.encodeBuilt n).finish .ok) = .next c)
    (hok : c.code = .ok) :
    ∃ d, dictOfTree (s.encodeBuilt n).tree (s.encodeBuilt n).treeRoot = some d ∧ c = (s.encodeDict n d).finish .ok := by
  cases hc
  rcases dbRun_cases ((s.encodeBuilt n).finish .ok) with ⟨hv, -⟩ | ⟨-, d, hd, e⟩ | ⟨-, -, e⟩
  · simp at hv
  · exact ⟨d, hd, e⟩
  · simp [e] at hok

/-- PK_RUN ends in OK on that dictionary when the packer does not overflow (44_bit_packer R169). -/
theorem exec_pkRun_encodeDict_ok {s t : State} (h : s.blockLength ≤ Config.blockMax) {n : Nat}
    {d : Vector DictEntry 256} (ht : exec .pkRun ((s.encodeDict n d).finish .ok) = .next t) (hok : t.code = .ok) :
    (s.encodeDict n d).packOverflows s.blockLength = false ∧ t = (s.encodePay n d).finish .ok := by
  rw [exec_pkRun_encodeDict h n d] at ht
  cases ht
  cases ho : (s.encodeDict n d).packOverflows s.blockLength with
  | false => exact ⟨rfl, rfl⟩
  | true => simp [ho] at hok

/-- The payload packed below the capacity is the block's codes, one after the other, and then padding (30_encoding
R105, R106). -/
theorem State.payloadBits_encodePay {s : State} {n : Nat} {d : Vector DictEntry 256}
    (hd : dictOfTree (s.encodeBuilt n).tree (s.encodeBuilt n).treeRoot = some d)
    (ho : (s.encodeDict n d).packOverflows s.blockLength = false) :
    ∃ pad, payloadBits ((s.encodePay n d).bufBytes .pay 0 (s.encodePay n d).payLen.toNat)
      = s.block.flatMap (fun b => (dictAt d b).codeBits) ++ pad := by
  have hfits : (packStream d s.block).length ≤ Config.packCap := by
    have hlt := (s.encodeBuilt_not_packOverflows n hd).1 ho
    rw [length_packStream d (dictOfTree_wf hd), Config.packCap]
    exact hlt.le
  obtain ⟨pad, -, hbits⟩ := packStream_bits d (dictOfTree_wf hd) s.block
  refine ⟨List.replicate pad false, ?_⟩
  rw [State.pack_payload, s.bufBytes_encodeBuilt, State.setDict_dict, List.take_of_length_le hfits, hbits]
  rfl

/-- The dictionary ENCODE builds gives each symbol of the block a code of it (43_dictionary R151, R156). -/
theorem State.isCodeOf_encodeBuilt {s : State} (h : s.blockLength ≤ Config.blockMax) {n : Nat}
    (hn : (s.analyze s.blockLength).listLength = n) (h0 : 1 ≤ n) (h1 : n ≤ 256) {d : Vector DictEntry 256}
    (hd : dictOfTree (s.encodeBuilt n).tree (s.encodeBuilt n).treeRoot = some d) {b : Byte} (hb : b ∈ s.block) :
    isCodeOf (s.encodeBuilt n).tree (s.encodeBuilt n).treeRoot (dictAt d b).codeBits b := by
  obtain ⟨hwf, hleaf, -⟩ := s.encodeBuilt_tree h0 h1
  obtain ⟨e, he, rfl⟩ := exists_entry_of_mem_block (s.length_block.trans_le h) hb
  rw [← s.analyze_block_listLength, hn, State.block, ← State.analyze_entries] at he
  obtain ⟨i, hi, hsym⟩ := hleaf e he
  exact (dictOfTree_leaf hwf (by omega) hd (by omega) hsym).2

/-- A state that holds the list FA_RUN leaves gets a tree with the codes of the one ENCODE builds (42_tree_builder
R144). -/
theorem isCodeOf_tbRun_of_list {s e u : State} (h : s.blockLength ≤ Config.blockMax) {n : Nat}
    (hn : (s.analyze s.blockLength).listLength = n) (h0 : 1 ≤ n) (h1 : n ≤ 256)
    (hlen : e.flistLen = (s.analyze s.blockLength).flistLen) (hlist : e.flist = (s.analyze s.blockLength).flist)
    (hu : exec .tbRun e = .next u) (bits : List Bool) (sym : Byte) :
    isCodeOf u.tree u.treeRoot bits sym
      ↔ isCodeOf (s.encodeBuilt n).tree (s.encodeBuilt n).treeRoot bits sym := by
  subst hn
  have hentries : ∀ k, e.entries k = ((s.analyze s.blockLength).finish .ok).entries k := fun k => by
    simp [State.entries, hlist]
  exact isCodeOf_of_same_list (s := (s.analyze s.blockLength).finish .ok) h0 h1
    ((s.countSum_analyze h rfl).trans_le h) hlen (hentries _) (exec_tbRun_analyze h rfl h0 h1) hu bits sym

end Sys2Proof.Machine

open Sys2Proof Sys2Proof.Machine

/-- Settles O42: the payload is the codes of the block by the dictionary of the tree that TB_RUN built
(`State.payloadBits_encodePay`); UP_RUN builds a tree with the same codes from the same list
(`isCodeOf_tbRun_of_list`), so it decodes them. -/
theorem unitsRoundTrip : Obligations.UnitsRoundTrip := by
  intro s a b c t e h0 h ha hb hc ht hcok htok heq hkept
  have hlen : s.blockLength ≤ Config.blockMax := h
  obtain ⟨n, hn, hone, hle, rfl, rfl⟩ := exec_tbRun_faRun hlen h0 ha hb
  obtain ⟨d, hd, rfl⟩ := exec_dbRun_encodeBuilt_ok hc hcok
  obtain ⟨ho, rfl⟩ := exec_pkRun_encodeDict_ok hlen ht htok
  have hraw : e.rawLen = s.rawLen := by rw [heq]; simp
  have hpaylen : e.payLen = (s.encodePay n d).payLen := by rw [heq]; rfl
  have hnum : e.flistLen = (s.analyze s.blockLength).flistLen := by rw [heq]; simp
  have hlist : e.flist = (s.analyze s.blockLength).flist := by rw [heq]; simp
  have hn' : e.flistLen.toNat = n := by rwa [hnum]
  have hsum : e.countSum n = s.rawLen.toNat := by
    rw [State.countSum, State.entries, hlist]
    exact s.countSum_analyze hlen hn
  have hpay : e.payLen.toNat ≤ 65536 := by
    rw [hpaylen, State.pack_payLen]
    exact Nat.min_le_left _ _
  have hbytes : e.bufBytes .pay 0 e.payLen.toNat
      = (s.encodePay n d).bufBytes .pay 0 (s.encodePay n d).payLen.toNat := by
    rw [hpaylen]
    exact State.bufBytes_congr fun k hk => by simpa using hkept k hk
  obtain ⟨pad, hbits⟩ := State.payloadBits_encodePay hd ho
  obtain ⟨u, v, -, hu, hv, heqv, -, -, -, -, -, hdecode⟩ := upRunDecodesCodes e (hone.trans_eq hn'.symm)
    (hn'.trans_le hle) (by rwa [hraw]) hpay (by rw [hn', hsum, hraw])
  have hcodes : ∀ x ∈ s.block, isCodeOf v.tree v.treeRoot (dictAt d x).codeBits x := fun x hx => by
    rw [heqv]
    exact (isCodeOf_tbRun_of_list hlen hn hone hle hnum hlist hu _ _).2
      (State.isCodeOf_encodeBuilt hlen hn hone hle hd hx)
  obtain ⟨hok, hblock⟩ := hdecode s.block (fun x => (dictAt d x).codeBits) pad (by rw [s.length_block, hraw]) hcodes
    (by rw [hbytes, hbits])
  exact ⟨v, hv, hok, by rwa [hraw] at hblock⟩
end

section
/-! PROOFS. DECODE: the errors of the header, the raw frame, the coded frame (46_block_codec R201 to R206). -/

namespace Sys2Proof.Machine

/-! ### The branches of DECODE -/

/-- DECODE of a frame whose discriminator is there: it says which kind of frame it is (R201). -/
theorem decodeRun_discriminator {s : State} (h2 : 2 ≤ s.frmLen.toNat) (hle : s.frmLen.toNat ≤ 66826) :
    decodeRun s = if (s.bufLe16 .frm 0).toNat = 0 then decodeRaw s s.frmLen.toNat
      else if 256 < (s.bufLe16 .frm 0).toNat then s.raise .fmtDiscriminator
      else decodeCoded s s.frmLen.toNat (s.bufLe16 .frm 0).toNat := by
  have hlong : ¬ Config.frmCap < s.frameLength := Nat.not_lt.2 hle
  have hshort : ¬ s.frameLength < 2 := Nat.not_lt.2 h2
  exact (if_neg hlong).trans (if_neg hshort)

/-- DECODE of a raw frame (R201). -/
theorem decodeRun_raw {s : State} (h2 : 2 ≤ s.frmLen.toNat) (hle : s.frmLen.toNat ≤ 66826)
    (h0 : s.bufLe16 .frm 0 = 0) : decodeRun s = decodeRaw s s.frmLen.toNat :=
  (decodeRun_discriminator h2 hle).trans (if_pos (congrArg BitVec.toNat h0))

/-- DECODE of a raw frame whose length field is there: the length is checked, then the bytes are copied (R201). -/
theorem decodeRun_rawLength {s : State} (h6 : 6 ≤ s.frmLen.toNat) (hle : s.frmLen.toNat ≤ 66826)
    (h0 : s.bufLe16 .frm 0 = 0) {len : Nat} (hlen : len = (s.bufLe32 .frm 2).toNat) :
    decodeRun s = if 65536 < len then s.raise .fmtLength
      else if s.frmLen.toNat < 6 + len then s.raise .fmtTruncated
      else (((s.fillBuf .raw (s.bufBytes .frm 6 len)).setRawLen len).setFrmUsed (6 + len)).finish .decRaw := by
  subst hlen
  exact (decodeRun_raw (by omega) hle h0).trans (if_neg (Nat.not_lt.2 h6))

/-- DECODE of a coded frame of 1 to 256 entries (R201). -/
theorem decodeRun_coded {s : State} (h2 : 2 ≤ s.frmLen.toNat) (hle : s.frmLen.toNat ≤ 66826) {n : Nat}
    (hn : n = (s.bufLe16 .frm 0).toNat) (hone : 1 ≤ n) (hmax : n ≤ 256) :
    decodeRun s = decodeCoded s s.frmLen.toNat n := by
  subst hn
  exact (decodeRun_discriminator h2 hle).trans
    ((if_neg (Nat.one_le_iff_ne_zero.1 hone)).trans (if_neg (Nat.not_lt.2 hmax)))

/-- DECODE of a coded frame whose header is complete: the list is loaded, then come three checks (R201). -/
theorem decodeRun_header {s : State} (hle : s.frmLen.toNat ≤ 66826) {n len payLen : Nat}
    (hn : n = (s.bufLe16 .frm 0).toNat) (hone : 1 ≤ n) (hmax : n ≤ 256) (hheader : 10 + 5 * n ≤ s.frmLen.toNat)
    (hlen : len = (s.bufLe32 .frm (2 + 5 * n)).toNat) (hpay : payLen = (s.bufLe32 .frm (6 + 5 * n)).toNat) :
    decodeRun s = if 65536 < len ∨ 65536 < payLen then (s.loadHeader n).raise .fmtLength
      else if s.frmLen.toNat < 10 + 5 * n + payLen then (s.loadHeader n).raise .fmtTruncated
      else if (s.loadHeader n).countSum n ≠ len then (s.loadHeader n).raise .fmtCount
      else decodePayload (s.loadHeader n) n len payLen := by
  rw [decodeRun_coded (by omega) hle hn hone hmax]
  subst hlen hpay
  exact if_neg (Nat.not_lt.2 hheader)

/-- The counts of the list loaded from a header add up to those in the frame (R201). -/
theorem State.countSum_loadHeader (s : State) {n : Nat} (h : n ≤ 256) :
    (s.loadHeader n).countSum n = ((List.range n).map fun i => (s.bufLe32 .frm (3 + 5 * i)).toNat).sum := by
  rw [State.countSum, s.loadHeader_entries h, List.map_map]
  rfl

/-! ### The coded frame -/

/-- The completion code of DECODE of a coded frame whose header checks pass: did the payload run out (R201)? -/
def State.decodeCode (s : State) (len payLen : Nat) : Code :=
  if (s.emitted len payLen).length < len then .fmtExhausted else .decCoded

/-- DECODE of a coded frame whose header checks pass builds the tree, unpacks the payload and completes; RAW_LEN and
FRM_USED are written on success alone (R201). -/
theorem decodePayload_eq (s : State) {n len payLen : Nat} (hone : 1 ≤ n) (hmax : n ≤ 256) :
    ∃ rawLen frmUsed, decodePayload (s.loadHeader n) n len payLen
        = { ((s.decodeBuilt n payLen).unpack len payLen).complete ((s.decodeBuilt n payLen).decodeCode len payLen) with
            rawLen := rawLen, frmUsed := frmUsed }
      ∧ (((s.decodeBuilt n payLen).decodeCode len payLen = .decCoded ∧ rawLen = BitVec.ofNat 17 len
          ∧ frmUsed = BitVec.ofNat 17 (10 + 5 * n + payLen))
        ∨ ((s.decodeBuilt n payLen).decodeCode len payLen = .fmtExhausted ∧ rawLen = s.rawLen
          ∧ frmUsed = s.frmUsed)) := by
  have hraw := s.decodeBuilt_rawLen n payLen
  have hused := s.decodeBuilt_frmUsed n payLen
  rcases decodePayload_cases s (n := n) (len := len) (payLen := payLen) hone hmax with ⟨hx, e⟩ | ⟨hx, e⟩ <;>
    rw [e] <;> generalize s.decodeBuilt n payLen = b at *
  · have hcode : b.decodeCode len payLen = .fmtExhausted := if_pos (of_decide_eq_true hx)
    rw [hcode, State.raise_eq_complete _ rfl]
    exact ⟨_, _, rfl, .inr ⟨rfl, hraw, hused⟩⟩
  · have hcode : b.decodeCode len payLen = .decCoded := if_neg (of_decide_eq_false hx)
    rw [hcode, State.finish_eq_complete _ rfl]
    exact ⟨_, _, rfl, .inl ⟨rfl, rfl, rfl⟩⟩

theorem State.loadHeader_flistLen_toNat (s : State) {n : Nat} (h : n ≤ 256) : (s.loadHeader n).flistLen.toNat = n := by
  rw [State.loadHeader, State.setFlist_flistLen, BitVec.toNat_ofNat]
  omega

/-- TB_RUN on the list loaded from a header builds the tree that DECODE builds (R205), which is one tree whose first
nodes are the leaves of the list (42_tree_builder R137). -/
theorem State.decodeBuilt_tree (s : State) {n : Nat} (payLen : Nat) (hone : 1 ≤ n) (hmax : n ≤ 256)
    (hsum : (s.loadHeader n).countSum n ≤ 65536) :
    exec .tbRun (s.loadHeader n) = .next ((((s.loadHeader n).setQueue [] (BitVec.ofNat 32 (2 * n - 1))).setTree
        (s.decodeBuilt n payLen).tree (BitVec.ofNat 9 (2 * n - 2)) (2 * n - 1)).finish .ok)
      ∧ TreeWf (s.decodeBuilt n payLen).tree (BitVec.ofNat 9 (2 * n - 2)) (BitVec.ofNat 10 (2 * n - 1)).toNat
      ∧ ∀ (i : Nat) (h : i < 256), i < n → (s.decodeBuilt n payLen).tree[i] = .leaf ((s.loadHeader n).flist[i]).sym := by
  have hnum := s.loadHeader_flistLen_toNat hmax
  obtain ⟨u, hu, -, -, -, -, hwf, hleaf, -⟩ := tbRunBuildsOneTree (s.loadHeader n) (by rwa [hnum]) (by rwa [hnum])
    (by rwa [hnum])
  have hrun := exec_tbRun (s := s.loadHeader n) (by rwa [hnum]) (by rwa [hnum]) (by rwa [hnum])
  obtain ⟨t, hb, rfl, -⟩ := (s.loadHeader n).buildTree_spec hone hmax
  rw [hnum, hb] at hrun
  rw [hnum] at hleaf
  obtain rfl := Host.Outcome.next.inj (hrun.symm.trans hu)
  exact ⟨hrun, hwf, hleaf⟩

theorem State.decodeBuilt_mem (s : State) (n payLen : Nat) :
    (s.decodeBuilt n payLen).mem = (s.fillBuf .pay (s.bufBytes .frm (10 + 5 * n) payLen)).mem := rfl

@[simp] theorem State.decodeBuilt_flistLen (s : State) (n payLen : Nat) :
    (s.decodeBuilt n payLen).flistLen = BitVec.ofNat 9 n := rfl
@[simp] theorem State.decodeBuilt_payLen (s : State) (n payLen : Nat) :
    (s.decodeBuilt n payLen).payLen = BitVec.ofNat 17 payLen := rfl
@[simp] theorem State.decodeBuilt_pq (s : State) (n payLen : Nat) : (s.decodeBuilt n payLen).pq = [] := rfl
@[simp] theorem State.decodeBuilt_pqSerial (s : State) (n payLen : Nat) :
    (s.decodeBuilt n payLen).pqSerial = BitVec.ofNat 32 (2 * n - 1) := rfl
@[simp] theorem State.decodeBuilt_treeRoot (s : State) (n payLen : Nat) :
    (s.decodeBuilt n payLen).treeRoot = BitVec.ofNat 9 (2 * n - 2) := rfl
@[simp] theorem State.decodeBuilt_treeNodes (s : State) (n payLen : Nat) :
    (s.decodeBuilt n payLen).treeNodes = BitVec.ofNat 10 (2 * n - 1) := rfl
@[simp] theorem State.decodeBuilt_treeValid (s : State) (n payLen : Nat) :
    (s.decodeBuilt n payLen).treeValid = true := rfl
@[simp] theorem State.decodeBuilt_dictValid (s : State) (n payLen : Nat) :
    (s.decodeBuilt n payLen).dictValid = false := rfl

/-- The payload is copied to PAY (R201). -/
theorem State.bufBytes_decodeBuilt (s : State) (n : Nat) {payLen : Nat} (h : payLen ≤ 65536) :
    (s.decodeBuilt n payLen).bufBytes .pay 0 payLen = s.bufBytes .frm (10 + 5 * n) payLen := by
  have hl := s.length_bufBytes .frm (10 + 5 * n) payLen
  have hfill := s.bufBytes_fillBuf_same .pay (s.bufBytes .frm (10 + 5 * n) payLen) (hl.trans_le h)
  rw [hl] at hfill
  exact (State.bufBytes_of_mem (s.decodeBuilt_mem n payLen) ..).trans hfill

/-- Up to the unpacker DECODE writes the payload in PAY, and no other byte (R204). -/
theorem State.memByte_decodeBuilt (s : State) (n payLen : Nat) {a : Nat}
    (h : ¬ (Buffer.pay.base ≤ a ∧ a < Buffer.pay.base + payLen)) : (s.decodeBuilt n payLen).memByte a = s.memByte a := by
  rw [State.memByte_of_mem (s.decodeBuilt_mem n payLen), State.memByte_fillBuf, if_neg]
  rw [State.length_bufBytes]
  omega

/-- The payload's copy is still in PAY when the symbols are in RAW (R204). -/
theorem State.bufByte_pay_decodeBuilt_unpack (s : State) (n len : Nat) {payLen k : Nat} (h : payLen ≤ 65536)
    (hk : k < payLen) :
    ((s.decodeBuilt n payLen).unpack len payLen).bufByte .pay k = s.bufByte .frm (10 + 5 * n + k) := by
  have hsize : k < Buffer.pay.size := hk.trans_le h
  have hcopy := State.getElem_bufBytes (s.decodeBuilt n payLen) .pay 0 payLen k (by rwa [State.length_bufBytes])
  simp only [s.bufBytes_decodeBuilt n h, State.getElem_bufBytes, Nat.zero_add] at hcopy
  exact (State.bufByte_fillBuf_other _ (by decide) _ hsize).trans hcopy.symm

end Sys2Proof.Machine

open Sys2Proof Sys2Proof.Machine

/-- Settles O47: the checks before the header is complete come before anything is written, each after those before
it. -/
theorem decodeHeaderErrors : Obligations.DecodeHeaderErrors := by
  rintro s code (⟨hlong, rfl⟩ | ⟨hshort, rfl⟩ | ⟨h2, hle, h0, hcut, rfl⟩ | ⟨h6, hle, h0, hlen, rfl⟩
    | ⟨h6, hle, h0, hlen, hcut, rfl⟩ | ⟨h2, hle, hn, rfl⟩ | ⟨h2, hle, hone, hmax, hcut, rfl⟩) <;>
    refine congrArg Host.Outcome.next ?_
  · exact if_pos hlong
  · have hfits : ¬ Config.frmCap < s.frameLength := Nat.not_lt.2 (hshort.le.trans (by decide))
    exact (if_neg hfits).trans (if_pos hshort)
  · exact (decodeRun_raw h2 hle h0).trans (if_pos hcut)
  · exact (decodeRun_rawLength h6 hle h0 rfl).trans (if_pos hlen)
  · exact (decodeRun_rawLength h6 hle h0 rfl).trans ((if_neg (Nat.not_lt.2 hlen)).trans (if_pos hcut))
  · exact (decodeRun_discriminator h2 hle).trans ((if_neg (Nat.ne_zero_of_lt hn)).trans (if_pos hn))
  · exact (decodeRun_coded h2 hle rfl hone hmax).trans (if_pos hcut)

/-- Settles O48: the header's list is loaded before the three checks, each of which comes after those before it. -/
theorem decodeCodedErrors : Obligations.DecodeCodedErrors := by
  intro s n len payLen sum code hle hn hone hmax hheader hlen hpay hsum herr
  refine ⟨(s.loadHeader n).raise code, congrArg Host.Outcome.next ?_, rfl, s.loadHeader_flist hmax⟩
  rw [← s.countSum_loadHeader hmax] at hsum
  rw [decodeRun_header hle hn hone hmax hheader hlen hpay, ← hsum]
  rcases herr with ⟨hlong, rfl⟩ | ⟨hlen, hpay, hcut, rfl⟩ | ⟨hlen, hpay, hfits, hcount, rfl⟩
  · exact if_pos hlong
  · rw [if_neg (by omega), if_pos hcut]
  · rw [if_neg (by omega), if_neg (by omega), if_pos hcount]

/-- Settles O49: the bytes after the length field are copied, and RAW alone is written. -/
theorem decodeRawFrameCopies : Obligations.DecodeRawFrameCopies := by
  intro s len hle h0 hlen hmax hfits
  have hl := s.length_bufBytes .frm 6 len
  have hrun := decodeRun_rawLength (by omega) hle h0 hlen
  rw [if_neg (Nat.not_lt.2 hmax), if_neg (Nat.not_lt.2 hfits)] at hrun
  refine ⟨_, congrArg Host.Outcome.next hrun, rfl, fun k hk => ?_, fun a ha => ?_⟩
  · refine (s.bufByte_fillBuf_same .raw (s.bufBytes .frm 6 len) k).trans ?_
    rw [if_pos (by rw [hl]; exact lt_min (hk.trans_le hmax) hk), List.getElem?_eq_getElem (by rwa [hl]),
      Option.getD_some, State.getElem_bufBytes]
  · refine (s.memByte_fillBuf .raw _ a).trans (if_neg ?_)
    rw [hl]
    omega

/-- Settles O50: the tree is TB_RUN's on the loaded list (`State.decodeBuilt_tree`), the symbols are what `unpack`
emits from the payload's copy (`yields_unpackSyms`), and a payload that begins with a block's codes emits that block
(`unpackSyms_codes`). -/
theorem decodeCodedFrameDecodes : Obligations.DecodeCodedFrameDecodes := by
  intro s n len payLen hle hn hone hmax hlen hpay hlmax hpmax hfits hsum
  rw [← s.countSum_loadHeader hmax] at hsum
  obtain ⟨rawLen, frmUsed, hend, hlengths⟩ := decodePayload_eq s (len := len) (payLen := payLen) hone hmax
  have hrun := decodeRun_header hle hn hone hmax (by omega) hlen hpay
  rw [if_neg (by omega), if_neg (by omega), if_neg (not_not.2 hsum), hend] at hrun
  obtain ⟨htb, hwf, hleaf⟩ := s.decodeBuilt_tree payLen hone hmax (hsum.trans_le hlmax)
  have hbits := s.bufBytes_decodeBuilt n hpmax
  have hemitted : (s.decodeBuilt n payLen).emitted len payLen
      = unpackSyms (s.decodeBuilt n payLen).tree (s.decodeBuilt n payLen).treeRoot len
        (payloadBits (s.bufBytes .frm (10 + 5 * n) payLen)) := by
    rw [State.emitted, hbits]
  have hread := (s.decodeBuilt n payLen).bufBytes_unpack payLen hlmax
  refine ⟨_, _, (s.decodeBuilt n payLen).emitted len payLen, congrArg Host.Outcome.next hrun, ?_,
    s.loadHeader_flist hmax, htb, rfl, rfl, rfl, rfl, hwf, hleaf, fun _ => s.bufByte_pay_decodeBuilt_unpack n len hpmax,
    hemitted, hemitted ▸ yields_unpackSyms _ _ _ _, rfl, hread, fun a hraw hpay => ?_, hlengths,
    fun block code rest hblock hcodes hpayload => ?_⟩
  · simp [State.complete, Bool.or_comm]
  · exact ((s.decodeBuilt n payLen).memByte_unpack len payLen a hraw).trans (s.memByte_decodeBuilt n payLen hpay)
  · have hall : (s.decodeBuilt n payLen).emitted len payLen = block := by
      rw [hemitted, hpayload, ← hblock]
      exact unpackSyms_codes code block hcodes rest
    rw [hall, hblock] at hread
    refine ⟨if_neg ?_, hread⟩
    rw [hall, hblock]
    exact lt_irrefl _
end

section
/-! PROOFS. What ENCODE writes, and what it depends on (46_block_codec R196, R198, R200, R233). -/

namespace Sys2Proof.Machine

/-! ### What ENCODE may write -/

/-- ENCODE of a block of legal length ends in one of five outcomes, leaves the tables of the analyzer, and writes no
register but FRM_LEN and PAY_LEN (R196, R198). -/
theorem encodeRun_frame {s : State} (h : s.blockLength ≤ Config.blockMax) {t : State} (ht : t = encodeRun s) :
    (t.code = .encCoded ∨ t.code = .encRawEmpty ∨ t.code = .encRawSingle ∨ t.code = .encRawDict ∨ t.code = .encRawPack)
      ∧ t = { s with
          mem := t.mem, frmLen := t.frmLen, payLen := t.payLen, fcnt := (s.analyze s.blockLength).fcnt
          flist := (s.analyze s.blockLength).flist, flistLen := (s.analyze s.blockLength).flistLen
          pq := t.pq, pqSerial := t.pqSerial, tree := t.tree, treeRoot := t.treeRoot, treeNodes := t.treeNodes
          dict := t.dict, treeValid := t.treeValid, dictValid := t.dictValid
          eng := .idle, done := true, err := false, code := t.code } := by
  subst ht
  rcases encodeRun_cases h _ rfl with ⟨-, e⟩ | ⟨-, e⟩ | ⟨-, -, -, e⟩ | ⟨-, -, d, -, ⟨-, e⟩ | ⟨-, e⟩⟩ <;>
  · rw [e]
    simp [State.finish]

/-- The bytes ENCODE writes are the frame's, and the payload's when the packer ran (R198). -/
theorem encodeRun_memByte {s : State} {a : Nat}
    (hfrm : ¬ (Buffer.frm.base ≤ a ∧ a < Buffer.frm.base + (encodeRun s).frmLen.toNat))
    (hpay : ¬ (((encodeRun s).code = .encCoded ∨ (encodeRun s).code = .encRawPack) ∧ Buffer.pay.base ≤ a
      ∧ a < Buffer.pay.base + (encodeRun s).payLen.toNat)) :
    (encodeRun s).memByte a = s.memByte a := by
  refine encodeRun_outside ⟨?_, ?_, ?_⟩
  · rw [rawBytesWritten]
    omega
  · rw [payBytesWritten]
    split
    · next hc => exact fun ha => hpay ⟨.inl hc, ha⟩
    · next hc => exact fun ha => hpay ⟨.inr hc, ha⟩
    · omega
  · rw [frmBytesWritten]
    split
    · omega
    · exact hfrm

/-! ### What ENCODE depends on -/

/-- The frequency list of a block, as ENCODE's tree and frame take it (41_frequency_analyzer R125). -/
def blockEntries (block : List Byte) : List FreqEntry :=
  (sortedEntries (countBytes block)).take (occurring (countBytes block))

/-- The dictionary of the tree of a list, if it keeps the width bound (43_dictionary R151); the store the tree is built in
makes no difference (42_tree_builder R144), so it is an empty one. -/
def dictOfEntries (es : List FreqEntry) : Option (Vector DictEntry 256) :=
  dictOfTree (buildNodes (Vector.replicate 511 (.internal 0 0)) es).tree (BitVec.ofNat 9 (2 * es.length - 2))

/-- ENCODE's outcome and frame as a function of the block (R196, R197, R200). -/
def encodeAnswer (block : List Byte) : Code × List Byte :=
  if (blockEntries block).length = 0 then (.encRawEmpty, rawFrame block)
  else if (blockEntries block).length = 1 then (.encRawSingle, rawFrame block)
  else
    match dictOfEntries (blockEntries block) with
    | none => (.encRawDict, rawFrame block)
    | some d =>
      if Config.packCap ≤ (packStream d block).length then (.encRawPack, rawFrame block)
      else (.encCoded, codedFrame (blockEntries block) block.length (packStream d block))

/-- The analyzer leaves the block's list in FLIST (41_frequency_analyzer R125). -/
theorem State.analyze_block_entries {s : State} {n : Nat} (hn : (s.analyze s.blockLength).listLength = n) :
    (s.analyze s.blockLength).entries n = blockEntries s.block := by
  rw [State.analyze_entries, ← hn, s.analyze_block_listLength]
  rfl

theorem length_blockEntries (block : List Byte) : (blockEntries block).length ≤ 256 :=
  (List.length_take_le ..).trans (occurring_le _)

/-- The dictionary ENCODE builds is that of the block's list, whatever stood in TREE before (42_tree_builder R144). -/
theorem State.dictOfTree_encodeBuilt {s : State} {n : Nat} (hn : (s.analyze s.blockLength).listLength = n)
    (hone : 1 ≤ n) :
    dictOfTree (s.encodeBuilt n).tree (s.encodeBuilt n).treeRoot = dictOfEntries (blockEntries s.block) := by
  have hmax : n ≤ 256 := hn ▸ s.analyze_listLength_le _
  have hl := State.length_entries (s := s.analyze s.blockLength) hmax
  rw [State.analyze_block_entries hn] at hl
  have hne : blockEntries s.block ≠ [] := List.length_pos_iff.1 (by omega)
  have hsame := buildNodes_sameTree (Vector.replicate 511 (.internal 0 0)) s.tree hne (length_blockEntries _)
  have htree : (s.encodeBuilt n).tree = (buildNodes s.tree (blockEntries s.block)).tree := by
    rw [← State.analyze_block_entries hn]
    rfl
  have hroot : (s.encodeBuilt n).treeRoot = BitVec.ofNat 9 (2 * (blockEntries s.block).length - 2) := by
    rw [hl]
    rfl
  rw [htree, hroot]
  refine hsame.dictOfTree ?_
  rw [BitVec.toNat_ofNat]
  omega

/-- The block is still in RAW when ENCODE writes the frame. -/
theorem State.bufBytes_encodePay {s : State} (h : s.blockLength ≤ Config.blockMax) (n : Nat)
    (d : Vector DictEntry 256) : (s.encodePay n d).bufBytes .raw 0 s.blockLength = s.block := by
  have hsize : 0 + s.blockLength ≤ Buffer.raw.size := (Nat.zero_add _).trans_le h
  exact ((s.encodeDict n d).bufBytes_fillBuf_other (by decide) _ hsize).trans (s.bufBytes_encodeBuilt n d true)

/-- Does ENCODE's packer overflow, in terms of the block's packed stream (44_bit_packer R168). -/
theorem State.packOverflows_encodeDict (s : State) (n : Nat) (d : Vector DictEntry 256) :
    (s.encodeDict n d).packOverflows s.blockLength = decide (Config.packCap ≤ (packStream d s.block).length) := by
  rw [State.packOverflows, s.bufBytes_encodeBuilt]
  rfl

/-- The coded frame ENCODE writes below the capacity, in terms of the block (R195). -/
theorem State.writeCoded_encodePay {s : State} {n : Nat} (hn : (s.analyze s.blockLength).listLength = n)
    {d : Vector DictEntry 256} (hfits : (packStream d s.block).length ≤ Config.packCap) :
    (s.encodePay n d).writeCoded n s.blockLength (s.encodePay n d).payLen.toNat
      = (s.encodePay n d).putFrame (codedFrame (blockEntries s.block) s.block.length (packStream d s.block)) := by
  have hentries : (s.encodePay n d).entries n = (s.analyze s.blockLength).entries n := by simp [State.entries]
  rw [State.writeCoded, hentries, State.analyze_block_entries hn, State.pack_payload, s.bufBytes_encodeBuilt,
    State.setDict_dict, List.take_of_length_le hfits, s.length_block]
  rfl

/-- ENCODE ends with the outcome and the frame that the block has, whatever else the state holds (R200). -/
theorem encodeRun_eq_answer {s : State} (h : s.blockLength ≤ Config.blockMax) :
    ∃ u : State, encodeRun s = (u.putFrame (encodeAnswer s.block).2).finish (encodeAnswer s.block).1 := by
  obtain ⟨n, hn⟩ : ∃ n, (s.analyze s.blockLength).listLength = n := ⟨_, rfl⟩
  have hes := State.analyze_block_entries hn
  have hl := State.length_entries (s := s.analyze s.blockLength) (hn ▸ s.analyze_listLength_le _)
  rw [hes] at hl
  unfold encodeAnswer
  rcases encodeRun_cases h n hn.symm with ⟨h0, e⟩ | ⟨h1, e⟩ | ⟨h2, -, hd, e⟩ | ⟨h2, -, d, hd, hp⟩
  · rw [hl, if_pos h0]
    exact ⟨_, e⟩
  · rw [hl, if_neg (by omega), if_pos h1]
    exact ⟨_, e⟩
  · rw [State.dictOfTree_encodeBuilt hn (by omega)] at hd
    rw [hl, if_neg (by omega), if_neg (by omega), hd, ← s.bufBytes_encodeBuilt n emptyDict false]
    exact ⟨_, e⟩
  · rw [State.dictOfTree_encodeBuilt hn (by omega)] at hd
    rw [hl, if_neg (by omega), if_neg (by omega), hd]
    dsimp only
    rcases hp with ⟨ho, e⟩ | ⟨ho, e⟩
    · rw [s.packOverflows_encodeDict, decide_eq_true_eq] at ho
      rw [if_pos ho, ← State.bufBytes_encodePay h n d]
      exact ⟨_, e⟩
    · rw [s.packOverflows_encodeDict, decide_eq_false_iff_not] at ho
      have hfrm := State.writeCoded_encodePay hn (d := d) (Nat.le_of_not_le ho)
      rw [if_neg ho]
      exact ⟨_, e.trans (congrArg (State.finish · .encCoded) hfrm)⟩

theorem length_encodeAnswer {block : List Byte} (h : block.length ≤ 65536) :
    (encodeAnswer block).2.length ≤ Config.frmCap := by
  have hraw : (rawFrame block).length ≤ Config.frmCap := by
    rw [length_rawFrame, Config.frmCap]
    omega
  have hl := length_blockEntries block
  unfold encodeAnswer
  split
  · exact hraw
  split
  · exact hraw
  split
  · exact hraw
  split
  · exact hraw
  · next hfits =>
    rw [Config.packCap] at hfits
    rw [length_codedFrame, Config.frmCap]
    omega

end Sys2Proof.Machine

open Sys2Proof Sys2Proof.Machine

/-- Settles O43: ENCODE's five outcomes (`encodeRun_frame`), and the bytes that a command's run leaves alone. -/
theorem encodeCompletes : Obligations.EncodeCompletes := by
  intro s h
  obtain ⟨hcode, hframe⟩ := encodeRun_frame h rfl
  exact ⟨_, _, rfl, exec_faRun h, hcode, hframe, fun _ => encodeRun_memByte⟩

/-- Settles O46: both states end with the answer that their block has (`encodeRun_eq_answer`), and FRM holds its frame
from byte 0 on. -/
theorem encodeDependsOnBlockAlone : Obligations.EncodeDependsOnBlockAlone := by
  intro s s' t t' h hlen hblock hs hs'
  have h' : s'.rawLen.toNat ≤ 65536 := hlen ▸ h
  obtain ⟨u, e⟩ := encodeRun_eq_answer h
  obtain ⟨u', e'⟩ := encodeRun_eq_answer h'
  obtain rfl := e.symm.trans (Host.Outcome.next.inj hs)
  obtain rfl := e'.symm.trans (Host.Outcome.next.inj hs')
  have hf := length_encodeAnswer (s.length_block.trans_le h)
  rw [hblock]
  refine ⟨rfl, rfl, fun k hk => ?_⟩
  have hk : k < (encodeAnswer s.block).2.length := (u.putFrame_frmLen hf) ▸ hk
  exact (u'.putFrame_bytes hf k hk).trans (u.putFrame_bytes hf k hk).symm
end

section
/-! PROOFS. The round trip of the block codec (46_block_codec R207). -/

namespace Sys2Proof.Machine

/-- DECODE of the raw frame that ENCODE leaves restores the block (R207). -/
theorem exec_decodeFrame_of_rawFrame {s t : State} (h : s.rawLen.toNat ≤ 65536) (hs : exec .encodeBlock s = .next t)
    (hc : t.code ≠ .encCoded) :
    ∃ u, exec .decodeFrame t = .next u ∧ u.err = false ∧ u.rawLen = s.rawLen ∧ u.frmUsed = t.frmLen
      ∧ u.bufBytes .raw 0 s.rawLen.toNat = s.block := by
  obtain ⟨hframe, -⟩ := encodeRawFrames s t h hs
  obtain ⟨hfrm, hmark, hlen, hbytes⟩ := hframe hc
  have hlen : s.rawLen.toNat = (t.bufLe32 .frm 2).toNat := by
    rw [hlen, BitVec.toNat_ofNat]
    omega
  obtain ⟨u, hu, heq, hraw, -⟩ := decodeRawFrameCopies t s.rawLen.toNat (by omega) hmark hlen h hfrm.ge
  refine ⟨u, hu, congrArg State.err heq, ?_, ?_, State.bufBytes_congr fun k hk => ?_⟩
  · exact (congrArg State.rawLen heq).trans (by simp)
  · rw [heq, ← hfrm]
    simp
  · rw [Nat.zero_add, hraw k hk, hbytes k hk]

/-- The payload of the coded frame that ENCODE leaves begins with the codes of the block (R195, 30_encoding R105). -/
theorem exec_encodeBlock_payload {s t : State} (h : s.blockLength ≤ Config.blockMax) {n : Nat}
    (hn : (s.analyze s.blockLength).listLength = n) (hs : exec .encodeBlock s = .next t) (hc : t.code = .encCoded) :
    ∃ d pad, dictOfTree (s.encodeBuilt n).tree (s.encodeBuilt n).treeRoot = some d
      ∧ payloadBits (t.bufBytes .frm (10 + 5 * n) t.payLen.toNat)
        = s.block.flatMap (fun b => (dictAt d b).codeBits) ++ pad := by
  cases hs
  obtain ⟨-, hmax, d, hd, hlt, e⟩ := encodeRun_coded h hn hc
  obtain ⟨pad, hbits⟩ := State.payloadBits_encodePay hd ((s.encodeBuilt_not_packOverflows n hd).2 hlt)
  have hpay : (s.encodePay n d).payLen.toNat ≤ 65536 := by
    rw [State.pack_payLen]
    exact Nat.min_le_left _ _
  obtain ⟨-, -, -, -, -, hbytes⟩ := (s.encodePay n d).writeCoded_fields hmax h hpay
  refine ⟨d, pad, hd, ?_⟩
  rw [e, ← hbits]
  congr 1
  exact List.map_congr_left fun k hk => (hbytes k (List.mem_range.1 hk)).trans (by rw [Nat.zero_add])

/-- A header that holds the first entries of FLIST loads the list that stands there (R201). -/
theorem State.flist_eq_of_header {t : State} {l : Vector FreqEntry 256} {n : Nat}
    (hl : ∀ (i : Nat) (h : i < 256),
      l[i] = if i < n then ⟨t.bufByte .frm (2 + 5 * i), t.bufLe32 .frm (3 + 5 * i)⟩ else t.flist[i])
    (hentries : ∀ (i : Nat) (h : i < 256), i < n →
      t.bufByte .frm (2 + 5 * i) = (t.flist[i]).sym ∧ t.bufLe32 .frm (3 + 5 * i) = (t.flist[i]).count) :
    l = t.flist := by
  refine Vector.ext fun i hi => ?_
  rw [hl i hi]
  split
  · next hlt =>
    obtain ⟨hsym, hcount⟩ := hentries i hi hlt
    rw [hsym, hcount]
  · rfl

/-- The counts of such a header add up to those of FLIST. -/
theorem State.sum_header_counts {t : State} {n : Nat} (hmax : n ≤ 256)
    (hentries : ∀ (i : Nat) (h : i < 256), i < n →
      t.bufByte .frm (2 + 5 * i) = (t.flist[i]).sym ∧ t.bufLe32 .frm (3 + 5 * i) = (t.flist[i]).count) :
    ((List.range n).map fun i => (t.bufLe32 .frm (3 + 5 * i)).toNat).sum = t.countSum n := by
  have hload := State.flist_eq_of_header (t.loadHeader_flist hmax) hentries
  rw [← t.countSum_loadHeader hmax, State.countSum, State.entries, hload]
  rfl

/-- DECODE of the coded frame that ENCODE leaves restores the block: the list is the block's, so TB_RUN builds a tree
with the codes that ENCODE packed (R205, R207). -/
theorem exec_decodeFrame_of_codedFrame {s t : State} (h : s.rawLen.toNat ≤ 65536) (hs : exec .encodeBlock s = .next t)
    (hc : t.code = .encCoded) :
    ∃ u, exec .decodeFrame t = .next u ∧ u.err = false ∧ u.rawLen = s.rawLen ∧ u.frmUsed = t.frmLen
      ∧ u.bufBytes .raw 0 s.rawLen.toNat = s.block := by
  have hlen : s.blockLength ≤ Config.blockMax := h
  obtain ⟨⟨a, ha, -, hlist, hnum⟩, -, h2, hmax, -, hpmax, hfrm, hmark, hentries, horig, hpl, -⟩ :=
    encodeCodedFrame s t h hs hc
  obtain rfl := Host.Outcome.next.inj (ha.symm.trans (exec_faRun hlen))
  have hlist : t.flist = (s.analyze s.blockLength).flist := hlist
  have hnum : t.flistLen = (s.analyze s.blockLength).flistLen := hnum
  obtain ⟨n, hn⟩ : ∃ n, t.flistLen.toNat = n := ⟨_, rfl⟩
  have hcount : (s.analyze s.blockLength).listLength = n := (congrArg BitVec.toNat hnum.symm).trans hn
  rw [hn] at h2 hmax hfrm hmark hentries horig hpl
  have hsum : ((List.range n).map fun i => (t.bufLe32 .frm (3 + 5 * i)).toNat).sum = s.rawLen.toNat := by
    rw [State.sum_header_counts hmax hentries, State.countSum, State.entries, hlist]
    exact State.countSum_analyze hlen hcount
  obtain ⟨u, w, syms, hu, heq, hul, hw, htree, hroot, -, -, -, -, -, -, -, -, -, -, hends, hdecode⟩ :=
    decodeCodedFrameDecodes t n s.rawLen.toNat t.payLen.toNat (by omega) hmark.symm (by omega) hmax horig.symm hpl.symm h
      (by omega) hfrm.ge hsum
  have hulist := (State.flist_eq_of_header hul hentries).trans hlist
  have hulen : u.flistLen = (s.analyze s.blockLength).flistLen := by
    rw [heq, ← hnum, ← hn]
    simp
  obtain ⟨d, pad, hd, hbits⟩ := exec_encodeBlock_payload hlen hcount hs hc
  obtain ⟨hok, hblock⟩ := hdecode s.block (fun b => (dictAt d b).codeBits) pad s.length_block (fun b hb => by
    rw [htree, hroot]
    exact (isCodeOf_tbRun_of_list (e := { t with flist := u.flist, flistLen := u.flistLen }) hlen hcount (by omega) hmax
      hulen hulist hw _ _).2
      (State.isCodeOf_encodeBuilt hlen hcount (by omega) hmax hd hb)) hbits
  obtain ⟨-, hraw, hused⟩ | ⟨hx, -⟩ := hends
  · refine ⟨u, hu, ?_, ?_, ?_, hblock⟩
    · rw [heq, hok]
      rfl
    · simp [hraw]
    · rw [hused, ← hfrm]
      simp
  · rw [hok] at hx
    cases hx

end Sys2Proof.Machine

open Sys2Proof Sys2Proof.Machine

/-- Settles O51: ENCODE leaves a raw frame or a coded one, and DECODE restores the block from either. -/
theorem encodeThenDecodeRestoresBlock : Obligations.EncodeThenDecodeRestoresBlock := by
  intro s t h hs
  by_cases hc : t.code = .encCoded
  · exact exec_decodeFrame_of_codedFrame h hs hc
  · exact exec_decodeFrame_of_rawFrame h hs hc
end

section
/-! PROOFS. The control commands and the illegal command word (47_control R220 to R222). -/

namespace Sys2Proof.Machine

/-- On a busy block with no turn left before the engine's, the step is the engine's, host turns waiting or not. -/
theorem step_busy_zero {s : State} {w : Word} (h : s.eng = .busy w 0) : step s = engineStep w s := by
  rw [step, h]
  cases hh : s.host <;> simp only [busyStep, hh]

theorem specOpcode_mem_opcodes (i : Instr) : specOpcode i ∈ opcodes := by cases i <;> decide

/-- A word that breaks a check of 30_encoding R82 selects no command, every command having its word (R81). -/
theorem decode_of_illegal {w : Word} (h : w.extractLsb' 8 24 ≠ 0 ∨ w.setWidth 8 ∉ opcodes) :
    ∃ e, decode w = .error e := by
  cases hd : decode w with
  | error e => exact ⟨e, rfl⟩
  | ok i =>
    obtain ⟨hclear, hop⟩ := (decodeSelectsTheTable.1 w i).1 hd
    rcases h with hset | hunknown
    · exact absurd hclear hset
    · exact absurd (hop ▸ specOpcode_mem_opcodes i) hunknown

theorem engineStep_of_illegal {w : Word} (h : w.extractLsb' 8 24 ≠ 0 ∨ w.setWidth 8 ∉ opcodes) (s : State) :
    engineStep w s = .next (s.raise .errIllegalCmd) := by
  obtain ⟨e, he⟩ := decode_of_illegal h
  simp only [engineStep, he, execIllegal, illegalRun]

/-- After RESET, STATUS holds DONE and LAST_OP alone (47_control R221). -/
theorem State.statusWord_resetRun (s : State) : (resetRun s).statusWord = (0x2 : Word) ||| s.lastOp.setWidth 32 <<< 16 := by
  simp [resetRun, State.statusWord, State.isBusy, State.finish, flagBit, Code.toByte]

end Sys2Proof.Machine

open Sys2Proof Sys2Proof.Machine

/-- Settles O3: the decoder refuses the word, so the engine's step is the completion of an illegal word. -/
theorem illegalWordOnlyRaisesError : Obligations.IllegalWordOnlyRaisesError := by
  intro s w h
  rw [step_busy_zero rfl, engineStep_of_illegal h]
  rfl

/-- Settles O20: NOP's run is its completion, and 0x00000000 is its word. -/
theorem nopChangesStatusOnly : Obligations.NopChangesStatusOnly :=
  fun _ => ⟨rfl, stepRunsTheDecodedCommand _ _ 0 .nop rfl (.inr rfl) (decode_encode .nop)⟩

/-- Settles O21: RESET's run writes each item's reset value, and 0x00000001 is its word. -/
theorem resetCommandClears : Obligations.ResetCommandClears := by
  refine fun s => ⟨rfl, fun t ht => ?_⟩
  rw [stepRunsTheDecodedCommand _ _ 0 .reset rfl (.inr rfl) (decode_encode .reset)] at ht
  obtain rfl := Host.Outcome.next.inj ht
  simp only [State.statusWord_resetRun]
  decide
end

section
/-! PROOFS. The host's turns on a busy block, and the reset input (70_reset_and_hazards R260, R270). -/

namespace Sys2Proof.Machine

/-! ### A host turn on a busy block (R270) -/

/-- While host turns come before the engine's step, the step of a busy block is the host's next turn. -/
theorem step_busyTurn {s : State} {w : Word} {turns : Nat} {turn : HostTurn} {rest : List HostTurn}
    (hb : s.eng = .busy w (turns + 1)) (hh : s.host = turn :: rest) : step s = busyTurn w turns turn rest s := by
  simp only [step, hb, busyStep, hh]

/-- The turns left before the engine's step, and the host's list, do not show in STATUS (10_state R26). -/
theorem State.statusWord_busy {s : State} {w : Word} {turns : Nat} (hb : s.eng = .busy w turns) (left : Nat)
    (host : List HostTurn) : State.statusWord { s with eng := .busy w left, host := host } = s.statusWord := by
  simp only [State.statusWord, State.isBusy, hb]

/-- A STATUS read is recorded, and one host turn fewer is left. -/
theorem busyTurn_statusRead {s : State} {w : Word} {turns : Nat} (hb : s.eng = .busy w turns) (left : Nat)
    (rest : List HostTurn) :
    busyTurn w left (.access (.rd32 statusAddr)) rest s = .next { s with
      eng := .busy w left, host := rest, reads := s.reads ++ [.word s.statusWord] } := by
  rw [busyTurn, if_pos rfl, State.pollStatus, State.statusWord_busy hb]
  rfl

/-- Every other access is refused (93_implementation_defined row 9). -/
theorem busyTurn_otherAccess {x : HostAccess} (hx : x ≠ .rd32 statusAddr) (w : Word) (left : Nat)
    (rest : List HostTurn) (s : State) : busyTurn w left (.access x) rest s = .refused (.accessWhileBusy x) :=
  if_neg hx

/-! ### The reset input (R260) -/

/-- The reset input is taken on an idle block, and on a busy one while host turns come before the engine's step. -/
theorem step_resetInput {s : State} {rest : List HostTurn} (hh : s.host = .resetInput :: rest)
    (he : s.eng = .idle ∨ ∃ w turns, s.eng = .busy w (turns + 1)) :
    step s = .next { s.assertReset with host := rest } := by
  rcases he with hi | ⟨w, turns, hb⟩
  · simp only [step, hi, idleStep, hh, idleTurn]
  · rw [step_busyTurn hb hh, busyTurn]

/-- The bytes after the reset input are those that abandoning the command leaves. -/
theorem State.memByte_assertReset (s : State) (host : List HostTurn) (a : Nat) :
    State.memByte { s.assertReset with host := host } a = s.abandon.memByte a := rfl

theorem State.abandon_of_idle {s : State} (h : s.eng = .idle) : s.abandon = s := by
  simp only [State.abandon, h]

theorem State.abandon_of_error {s : State} {w : Word} {turns : Nat} {e : DecodeError} (hb : s.eng = .busy w turns)
    (hd : decode w = .error e) : s.abandon = s := by
  simp only [State.abandon, hb, hd]

theorem State.abandon_of_ok {s : State} {w : Word} {turns : Nat} {i : Instr} (hb : s.eng = .busy w turns)
    (hd : decode w = .ok i) :
    s.abandon = ((s.loseBytes .raw (rawBytesWritten i s)).loseBytes .pay (payBytesWritten i s)).loseBytes .frm
      (frmBytesWritten i s) := by
  simp only [State.abandon, hb, hd]

/-! A command that may not write a buffer counts no byte of it. -/

theorem rawBytesWritten_eq_zero {i : Instr} (h : ¬ MayWrite i .raw) (s : State) : rawBytesWritten i s = 0 := by
  cases i with
  | upRun => exact absurd (.inl rfl) h
  | decodeFrame => exact absurd (.inr rfl) h
  | _ => rfl

theorem payBytesWritten_eq_zero {i : Instr} (h : ¬ MayWrite i .pay) (s : State) : payBytesWritten i s = 0 := by
  cases i with
  | pkRun => exact absurd (.inl rfl) h
  | encodeBlock => exact absurd (.inr (.inl rfl)) h
  | decodeFrame => exact absurd (.inr (.inr rfl)) h
  | _ => rfl

theorem frmBytesWritten_eq_zero {i : Instr} (h : ¬ MayWrite i .frm) (s : State) : frmBytesWritten i s = 0 := by
  cases i with
  | encodeBlock => exact absurd rfl h
  | _ => rfl

/-- A byte of one buffer is kept when another buffer loses bytes, and when its own loses none. -/
theorem State.memByte_loseBytes_of_holds (s : State) {b c : Buffer} {a n : Nat} (ha : b.holds a)
    (hn : c = b → n = 0) : (s.loseBytes c n).memByte a = s.memByte a := by
  by_cases h : c = b
  · exact s.memByte_loseBytes c n (by have := hn h; omega)
  · exact s.memByte_fillBuf_other ha (Ne.symm h) _

/-- Abandoning a command loses bytes of a buffer only if the command may write that buffer. -/
theorem State.mayWrite_or_memByte_abandon {s : State} {w : Word} {turns : Nat} (hb : s.eng = .busy w turns)
    {b : Buffer} {a : Nat} (ha : b.holds a) :
    (∃ i, decode w = .ok i ∧ MayWrite i b) ∨ s.abandon.memByte a = s.memByte a := by
  cases hd : decode w with
  | error e => exact .inr (by rw [State.abandon_of_error hb hd])
  | ok i =>
    by_cases hw : MayWrite i b
    · exact .inl ⟨i, rfl, hw⟩
    · right
      rw [State.abandon_of_ok hb hd,
        State.memByte_loseBytes_of_holds _ ha fun hc => frmBytesWritten_eq_zero (hc ▸ hw) s,
        State.memByte_loseBytes_of_holds _ ha fun hc => payBytesWritten_eq_zero (hc ▸ hw) s,
        State.memByte_loseBytes_of_holds _ ha fun hc => rawBytesWritten_eq_zero (hc ▸ hw) s]

theorem State.memByte_abandon_of_outside {s : State} {w : Word} {turns : Nat} {i : Instr} (hb : s.eng = .busy w turns)
    (hd : decode w = .ok i) {a : Nat} (ha : OutsideWritten i s a) : s.abandon.memByte a = s.memByte a :=
  State.memByte_abandon hb fun _ hj => Except.ok.inj (hd.symm.trans hj) ▸ ha

/-- A run that ends in an error other than FMT_EXHAUSTED has every byte outside what it writes. -/
theorem outsideWritten_of_error {i : Instr} {s u : State} (h : exec i s = .next u) (he : u.err = true)
    (hc : u.code ≠ .fmtExhausted) (a : Nat) : OutsideWritten i s a := by
  obtain ⟨hraw, hpay, hfrm⟩ := written_of_error h he hc
  exact ⟨by omega, by omega, by omega⟩

end Sys2Proof.Machine

open Sys2Proof Sys2Proof.Machine

/-- Settles O6: the step is the host's turn, which tells a STATUS read from every other access; BUSY and DONE are bits 0
and 1 of STATUS. -/
theorem busyRefusesAllButStatusReads : Obligations.BusyRefusesAllButStatusReads := by
  intro s w turns x rest hb hh hdone
  rw [step_busyTurn hb hh]
  refine ⟨fun hx => busyTurn_otherAccess hx w turns rest s, fun hx => ⟨?_, ?_, ?_⟩⟩
  · rw [hx]
    exact busyTurn_statusRead hb turns rest
  · rw [(statusWordFields.1 s).1, State.isBusy, hb]
  · rw [(statusWordFields.1 s).2.1, hdone]

/-- Settles O11: the step is the reset input, and the bytes it leaves are those of the abandoned command's account: by
buffer (`mayWrite_or_memByte_abandon`), and within a buffer outside the bytes that its run writes. -/
theorem resetInputResets : Obligations.ResetInputResets := by
  intro s rest hh he
  refine ⟨_, step_resetInput hh he, rfl, fun hi a => ?_,
    fun w turns hb a => ⟨fun ha => ?_, fun ha => ?_, fun ha => ?_⟩,
    fun w turns i u hb hd hx => ⟨fun herr hc a => ?_, fun a hraw hpay hfrm => ?_⟩⟩ <;>
    rw [State.memByte_assertReset]
  · rw [State.abandon_of_idle hi]
  · rcases State.mayWrite_or_memByte_abandon hb ha with ⟨i, hd, rfl | rfl⟩ | hkept
    · exact .inl hd
    · exact .inr (.inl hd)
    · exact .inr (.inr hkept)
  · rcases State.mayWrite_or_memByte_abandon hb ha with ⟨i, hd, rfl | rfl | rfl⟩ | hkept
    · exact .inl hd
    · exact .inr (.inl hd)
    · exact .inr (.inr (.inl hd))
    · exact .inr (.inr (.inr hkept))
  · rcases State.mayWrite_or_memByte_abandon hb ha with ⟨i, hd, rfl⟩ | hkept
    · exact .inl hd
    · exact .inr hkept
  · exact State.memByte_abandon_of_outside hb hd (outsideWritten_of_error hx herr hc a)
  · have ha : OutsideWritten i s a := ⟨hraw, hpay, hfrm⟩
    exact ⟨State.memByte_abandon_of_outside hb hd ha, exec_outside hx ha⟩
end
